-- ==== Sys2Proof/Word.lean ====
section
/-! DEFINITION. The word types of the two blocks: 32-bit registers and bus addresses (R10, R103), bytes, and the
three transaction widths. -/

namespace Sys2Proof

/-- A 32-bit register value, bus address, descriptor or data operand (R10, R103, R140). -/
abbrev Word := BitVec 32

/-- One byte of an I²C batch or of a register lane (R54, R102). -/
abbrev Byte := BitVec 8

/-- A byte offset inside a 0x400-byte register window: the field OFF of the descriptor (R100, R140). -/
abbrev Offset := BitVec 10

/-- A 7-bit I²C child address (R147, R304). -/
abbrev ChildAddr := BitVec 7

/-- One of the eight streams of a DMA controller (R31). -/
abbrev StreamId := Fin 8

/-- The width of a transaction or of an item: 8, 16 or 32 bits (R103, R37). -/
inductive Width where
  | byte
  | half
  | word
deriving DecidableEq, Repr

end Sys2Proof
end

