-- ==== Sys2Proof/Config.lean ====
section
/-! DEFINITION. What an implementation fixes (the OPEN parameters of R9) and the free values (the two oracles).
Every constant here is opaque: no proof can know its value. The parameters are plain data, so that State can hold
them; a claim about every state is then a claim about every platform (log entry 3). -/

namespace Sys2Proof

/-- The construction parameters of one DMA controller instance (R9). -/
structure DmaSite where
  /-- Bits 31..10 of `DMA_BASE`: every base is a multiple of 0x400 (R380, D66). -/
  page : BitVec 22
  /-- `IRQ_WIRING` of the eight outputs `IRQ[0..7]`: the interrupt-controller input of each (R387, D33). -/
  irqInput : Vector Nat 8
deriving DecidableEq, Repr

/-- The construction parameters of one I²C controller instance (R9). -/
structure I2cSite where
  /-- Bits 31..10 of `I2C_BASE` (R380, D66). -/
  page : BitVec 22
  /-- `CHILDREN`: the 7-bit addresses at which a child is attached (R305, D50). -/
  children : List ChildAddr
  /-- `I2C_TX_REQ`: the DMA instance and stream that the line `DMA_TX` drives, or none (R383, D32). -/
  txReq : Option (Nat × StreamId)
  /-- `I2C_RX_REQ`: the same for the line `DMA_RX` (R383, D32). -/
  rxReq : Option (Nat × StreamId)
  /-- `IRQ_WIRING` of `EV_IRQ` (R387, D33). -/
  evInput : Nat
  /-- `IRQ_WIRING` of `ER_IRQ` (R387, D33). -/
  erInput : Nat
deriving DecidableEq, Repr

namespace Config

/-- `DMA_BASE` of each DMA instance, as a page number (R9: OPEN). -/
opaque dmaPage : Nat → BitVec 22

/-- `IRQ_WIRING` of each DMA instance's outputs (R9: OPEN). -/
opaque dmaIrqInput : Nat → Vector Nat 8

/-- `I2C_BASE` of each I²C instance, as a page number (R9: OPEN). -/
opaque i2cPage : Nat → BitVec 22

/-- `CHILDREN` of each I²C instance (R9: construction-time parameter). -/
opaque children : Nat → List ChildAddr

/-- `I2C_TX_REQ` of each I²C instance (R9: OPEN). -/
opaque txReq : Nat → Option (Nat × StreamId)

/-- `I2C_RX_REQ` of each I²C instance (R9: OPEN). -/
opaque rxReq : Nat → Option (Nat × StreamId)

/-- `IRQ_WIRING` of each I²C instance's `EV_IRQ` (R9: OPEN). -/
opaque evInput : Nat → Nat

/-- `IRQ_WIRING` of each I²C instance's `ER_IRQ` (R9: OPEN). -/
opaque erInput : Nat → Nat

/-- `N_DMA − 1`: how many DMA instances stand beside the first (R9: OPEN; DEDUCED at least one, log entry 3). -/
opaque moreDmas : Nat

/-- How many I²C instances stand beside the first (R9, D59: OPEN; DEDUCED at least one, log entry 3). -/
opaque moreI2cs : Nat

/-- `CASCADE_LIMIT − 1`: the limit is any positive natural (R9, D67: OPEN). -/
opaque cascadeLimitPred : Nat

/-- FREE VALUE: what the system-bus oracle answers to the `n`-th read that no fixed answer covers (R112, I7; log
entry 4). The reader keeps the low bytes that its width asks for. -/
opaque busAnswer : Nat → Word

/-- FREE VALUE: what a child answers to the `n`-th call that no fixed answer covers: `none` is `fail`, `some bytes`
is success, with the batch for `Read` (R304, I6; log entry 5). -/
opaque childAnswer : Nat → Option (List Byte)

/-- The construction parameters of DMA instance `k`. -/
def dmaSite (k : Nat) : DmaSite := ⟨dmaPage k, dmaIrqInput k⟩

/-- The construction parameters of I²C instance `j`. -/
def i2cSite (j : Nat) : I2cSite := ⟨i2cPage j, children j, txReq j, rxReq j, evInput j, erInput j⟩

end Config
end Sys2Proof
end

