-- ==== Sys2Proof/Syntax.lean ====
section
/-! DEFINITION. The operations of the two blocks: one constructor for each of the 145 rows of spec/opcode_table.json
(R140–R144). Every operation carries the number of the instance it addresses (`k` of a DMA, `j` of an I²C controller:
R140, R68), a write its data operand `d` (R141), a wildcard row the offset `o` (R144), the request event its line and
level (R143). With it the register names of the two windows. -/

namespace Sys2Proof

/-- The sub-registers of a stream (R39). -/
inductive StreamReg where
  | cr
  | ndtr
  | par
  | m0ar
  | m1ar
  | fcr
deriving DecidableEq, Repr

/-- What a word-aligned offset of the DMA window holds (R39, R145). -/
inductive DmaReg where
  | lisr
  | hisr
  | lifcr
  | hifcr
  | stream (x : StreamId) (r : StreamReg)
  | unmapped
deriving DecidableEq, Repr

/-- What a word-aligned offset of the I²C window holds (R60, R146). -/
inductive I2cReg where
  | cr1
  | cr2
  | dr
  | sr1
  | sr2
  | unmapped
deriving DecidableEq, Repr

/-- One operation as the environment presents it (R140): the instance it addresses (R68), the descriptor `T` and the
data operand `D` (R141; a read or an event carries none, and the field is not looked at). -/
structure Operation where
  inst : Nat
  desc : Word
  data : Word
deriving DecidableEq, Repr

/-- The operations, one constructor per row of the opcode table. -/
inductive Instr where
  -- DMA interrupt status and clear registers (R200–R207)
  | dmaRd32Lisr (k : Nat)
  | dmaWr32Lisr (k : Nat) (d : Word)
  | dmaRd32Hisr (k : Nat)
  | dmaWr32Hisr (k : Nat) (d : Word)
  | dmaRd32Lifcr (k : Nat)
  | dmaWr32Lifcr (k : Nat) (d : Word)
  | dmaRd32Hifcr (k : Nat)
  | dmaWr32Hifcr (k : Nat) (d : Word)
  -- DMA stream registers (R220–R233)
  | dmaRd32S0cr (k : Nat)
  | dmaWr32S0cr (k : Nat) (d : Word)
  | dmaRd32S0ndtr (k : Nat)
  | dmaWr32S0ndtr (k : Nat) (d : Word)
  | dmaRd32S0par (k : Nat)
  | dmaWr32S0par (k : Nat) (d : Word)
  | dmaRd32S0m0ar (k : Nat)
  | dmaWr32S0m0ar (k : Nat) (d : Word)
  | dmaRd32S0m1ar (k : Nat)
  | dmaWr32S0m1ar (k : Nat) (d : Word)
  | dmaRd32S0fcr (k : Nat)
  | dmaWr32S0fcr (k : Nat) (d : Word)
  | dmaRd32S1cr (k : Nat)
  | dmaWr32S1cr (k : Nat) (d : Word)
  | dmaRd32S1ndtr (k : Nat)
  | dmaWr32S1ndtr (k : Nat) (d : Word)
  | dmaRd32S1par (k : Nat)
  | dmaWr32S1par (k : Nat) (d : Word)
  | dmaRd32S1m0ar (k : Nat)
  | dmaWr32S1m0ar (k : Nat) (d : Word)
  | dmaRd32S1m1ar (k : Nat)
  | dmaWr32S1m1ar (k : Nat) (d : Word)
  | dmaRd32S1fcr (k : Nat)
  | dmaWr32S1fcr (k : Nat) (d : Word)
  | dmaRd32S2cr (k : Nat)
  | dmaWr32S2cr (k : Nat) (d : Word)
  | dmaRd32S2ndtr (k : Nat)
  | dmaWr32S2ndtr (k : Nat) (d : Word)
  | dmaRd32S2par (k : Nat)
  | dmaWr32S2par (k : Nat) (d : Word)
  | dmaRd32S2m0ar (k : Nat)
  | dmaWr32S2m0ar (k : Nat) (d : Word)
  | dmaRd32S2m1ar (k : Nat)
  | dmaWr32S2m1ar (k : Nat) (d : Word)
  | dmaRd32S2fcr (k : Nat)
  | dmaWr32S2fcr (k : Nat) (d : Word)
  | dmaRd32S3cr (k : Nat)
  | dmaWr32S3cr (k : Nat) (d : Word)
  | dmaRd32S3ndtr (k : Nat)
  | dmaWr32S3ndtr (k : Nat) (d : Word)
  | dmaRd32S3par (k : Nat)
  | dmaWr32S3par (k : Nat) (d : Word)
  | dmaRd32S3m0ar (k : Nat)
  | dmaWr32S3m0ar (k : Nat) (d : Word)
  | dmaRd32S3m1ar (k : Nat)
  | dmaWr32S3m1ar (k : Nat) (d : Word)
  | dmaRd32S3fcr (k : Nat)
  | dmaWr32S3fcr (k : Nat) (d : Word)
  | dmaRd32S4cr (k : Nat)
  | dmaWr32S4cr (k : Nat) (d : Word)
  | dmaRd32S4ndtr (k : Nat)
  | dmaWr32S4ndtr (k : Nat) (d : Word)
  | dmaRd32S4par (k : Nat)
  | dmaWr32S4par (k : Nat) (d : Word)
  | dmaRd32S4m0ar (k : Nat)
  | dmaWr32S4m0ar (k : Nat) (d : Word)
  | dmaRd32S4m1ar (k : Nat)
  | dmaWr32S4m1ar (k : Nat) (d : Word)
  | dmaRd32S4fcr (k : Nat)
  | dmaWr32S4fcr (k : Nat) (d : Word)
  | dmaRd32S5cr (k : Nat)
  | dmaWr32S5cr (k : Nat) (d : Word)
  | dmaRd32S5ndtr (k : Nat)
  | dmaWr32S5ndtr (k : Nat) (d : Word)
  | dmaRd32S5par (k : Nat)
  | dmaWr32S5par (k : Nat) (d : Word)
  | dmaRd32S5m0ar (k : Nat)
  | dmaWr32S5m0ar (k : Nat) (d : Word)
  | dmaRd32S5m1ar (k : Nat)
  | dmaWr32S5m1ar (k : Nat) (d : Word)
  | dmaRd32S5fcr (k : Nat)
  | dmaWr32S5fcr (k : Nat) (d : Word)
  | dmaRd32S6cr (k : Nat)
  | dmaWr32S6cr (k : Nat) (d : Word)
  | dmaRd32S6ndtr (k : Nat)
  | dmaWr32S6ndtr (k : Nat) (d : Word)
  | dmaRd32S6par (k : Nat)
  | dmaWr32S6par (k : Nat) (d : Word)
  | dmaRd32S6m0ar (k : Nat)
  | dmaWr32S6m0ar (k : Nat) (d : Word)
  | dmaRd32S6m1ar (k : Nat)
  | dmaWr32S6m1ar (k : Nat) (d : Word)
  | dmaRd32S6fcr (k : Nat)
  | dmaWr32S6fcr (k : Nat) (d : Word)
  | dmaRd32S7cr (k : Nat)
  | dmaWr32S7cr (k : Nat) (d : Word)
  | dmaRd32S7ndtr (k : Nat)
  | dmaWr32S7ndtr (k : Nat) (d : Word)
  | dmaRd32S7par (k : Nat)
  | dmaWr32S7par (k : Nat) (d : Word)
  | dmaRd32S7m0ar (k : Nat)
  | dmaWr32S7m0ar (k : Nat) (d : Word)
  | dmaRd32S7m1ar (k : Nat)
  | dmaWr32S7m1ar (k : Nat) (d : Word)
  | dmaRd32S7fcr (k : Nat)
  | dmaWr32S7fcr (k : Nat) (d : Word)
  -- DMA unmapped offsets (R209, R210)
  | dmaRd32Unmapped (k : Nat) (o : Offset)
  | dmaWr32Unmapped (k : Nat) (o : Offset) (d : Word)
  -- DMA narrow transactions (R105, R106)
  | dmaRd8 (k : Nat) (o : Offset)
  | dmaWr8 (k : Nat) (o : Offset) (d : Word)
  | dmaRd16 (k : Nat) (o : Offset)
  | dmaWr16 (k : Nat) (o : Offset) (d : Word)
  -- DMA misaligned transactions (R104)
  | dmaRd32MisalignedOdd (k : Nat) (o : Offset)
  | dmaRd32Misaligned2 (k : Nat) (o : Offset)
  | dmaRd16Misaligned (k : Nat) (o : Offset)
  | dmaWr32MisalignedOdd (k : Nat) (o : Offset) (d : Word)
  | dmaWr32Misaligned2 (k : Nat) (o : Offset) (d : Word)
  | dmaWr16Misaligned (k : Nat) (o : Offset) (d : Word)
  -- DMA events (R260, R268, R440)
  | dmaReq (k : Nat) (x : StreamId) (v : Bool)
  | dmaSync (k : Nat)
  | dmaReset (k : Nat)
  -- I²C registers (R340–R349)
  | i2cRd32Cr1 (j : Nat)
  | i2cWr32Cr1 (j : Nat) (d : Word)
  | i2cRd32Cr2 (j : Nat)
  | i2cWr32Cr2 (j : Nat) (d : Word)
  | i2cRd32Dr (j : Nat)
  | i2cWr32Dr (j : Nat) (d : Word)
  | i2cRd32Sr1 (j : Nat)
  | i2cWr32Sr1 (j : Nat) (d : Word)
  | i2cRd32Sr2 (j : Nat)
  | i2cWr32Sr2 (j : Nat) (d : Word)
  -- I²C unmapped offsets (R350, R351)
  | i2cRd32Unmapped (j : Nat) (o : Offset)
  | i2cWr32Unmapped (j : Nat) (o : Offset) (d : Word)
  -- I²C narrow transactions (R107–R109)
  | i2cRd8 (j : Nat) (o : Offset)
  | i2cRd16 (j : Nat) (o : Offset)
  | i2cWr8Aligned (j : Nat) (o : Offset) (d : Word)
  | i2cWr8Unaligned (j : Nat) (o : Offset) (d : Word)
  | i2cWr16Aligned (j : Nat) (o : Offset) (d : Word)
  | i2cWr16Unaligned (j : Nat) (o : Offset) (d : Word)
  -- I²C misaligned transactions (R104)
  | i2cRd32MisalignedOdd (j : Nat) (o : Offset)
  | i2cRd32Misaligned2 (j : Nat) (o : Offset)
  | i2cRd16Misaligned (j : Nat) (o : Offset)
  | i2cWr32MisalignedOdd (j : Nat) (o : Offset) (d : Word)
  | i2cWr32Misaligned2 (j : Nat) (o : Offset) (d : Word)
  | i2cWr16Misaligned (j : Nat) (o : Offset) (d : Word)
  -- I²C events (R352, R441)
  | i2cSync (j : Nat)
  | i2cReset (j : Nat)
deriving DecidableEq, Repr

end Sys2Proof
end

