-- ==== Sys2Proof/WellFormed.lean ====
section
/-! DEFINITION. Which operations are well formed: those whose offset is one that the opcode table gives to their row
(R144). A row with a full mask has no operand to check; the instance number is checked against the platform when the
operation is performed (log entry 6). -/

namespace Sys2Proof

/-- `OFF[1:0] = 0`: the offset of a 32-bit register (R104, R108). -/
def Offset.isWord (o : Offset) : Bool := o.extractLsb' 0 2 == 0#2

/-- `OFF[1:0] = 2` (R109, R144). -/
def Offset.isTwo (o : Offset) : Bool := o.extractLsb' 0 2 == 2#2

/-- `OFF[0] = 1` (R104, R144). -/
def Offset.isOdd (o : Offset) : Bool := o.getLsbD 0

/-- One of the five implemented offsets of the I²C window (R60). -/
def Offset.isI2cReg (o : Offset) : Bool := [0x00, 0x04, 0x10, 0x14, 0x18].contains o.toNat

/-- The offset of an operation lies where its opcode-table row puts it (R144). -/
def Instr.wellFormed : Instr → Bool
  | .dmaRd32Lisr _ => true
  | .dmaWr32Lisr _ _ => true
  | .dmaRd32Hisr _ => true
  | .dmaWr32Hisr _ _ => true
  | .dmaRd32Lifcr _ => true
  | .dmaWr32Lifcr _ _ => true
  | .dmaRd32Hifcr _ => true
  | .dmaWr32Hifcr _ _ => true
  | .dmaRd32S0cr _ => true
  | .dmaWr32S0cr _ _ => true
  | .dmaRd32S0ndtr _ => true
  | .dmaWr32S0ndtr _ _ => true
  | .dmaRd32S0par _ => true
  | .dmaWr32S0par _ _ => true
  | .dmaRd32S0m0ar _ => true
  | .dmaWr32S0m0ar _ _ => true
  | .dmaRd32S0m1ar _ => true
  | .dmaWr32S0m1ar _ _ => true
  | .dmaRd32S0fcr _ => true
  | .dmaWr32S0fcr _ _ => true
  | .dmaRd32S1cr _ => true
  | .dmaWr32S1cr _ _ => true
  | .dmaRd32S1ndtr _ => true
  | .dmaWr32S1ndtr _ _ => true
  | .dmaRd32S1par _ => true
  | .dmaWr32S1par _ _ => true
  | .dmaRd32S1m0ar _ => true
  | .dmaWr32S1m0ar _ _ => true
  | .dmaRd32S1m1ar _ => true
  | .dmaWr32S1m1ar _ _ => true
  | .dmaRd32S1fcr _ => true
  | .dmaWr32S1fcr _ _ => true
  | .dmaRd32S2cr _ => true
  | .dmaWr32S2cr _ _ => true
  | .dmaRd32S2ndtr _ => true
  | .dmaWr32S2ndtr _ _ => true
  | .dmaRd32S2par _ => true
  | .dmaWr32S2par _ _ => true
  | .dmaRd32S2m0ar _ => true
  | .dmaWr32S2m0ar _ _ => true
  | .dmaRd32S2m1ar _ => true
  | .dmaWr32S2m1ar _ _ => true
  | .dmaRd32S2fcr _ => true
  | .dmaWr32S2fcr _ _ => true
  | .dmaRd32S3cr _ => true
  | .dmaWr32S3cr _ _ => true
  | .dmaRd32S3ndtr _ => true
  | .dmaWr32S3ndtr _ _ => true
  | .dmaRd32S3par _ => true
  | .dmaWr32S3par _ _ => true
  | .dmaRd32S3m0ar _ => true
  | .dmaWr32S3m0ar _ _ => true
  | .dmaRd32S3m1ar _ => true
  | .dmaWr32S3m1ar _ _ => true
  | .dmaRd32S3fcr _ => true
  | .dmaWr32S3fcr _ _ => true
  | .dmaRd32S4cr _ => true
  | .dmaWr32S4cr _ _ => true
  | .dmaRd32S4ndtr _ => true
  | .dmaWr32S4ndtr _ _ => true
  | .dmaRd32S4par _ => true
  | .dmaWr32S4par _ _ => true
  | .dmaRd32S4m0ar _ => true
  | .dmaWr32S4m0ar _ _ => true
  | .dmaRd32S4m1ar _ => true
  | .dmaWr32S4m1ar _ _ => true
  | .dmaRd32S4fcr _ => true
  | .dmaWr32S4fcr _ _ => true
  | .dmaRd32S5cr _ => true
  | .dmaWr32S5cr _ _ => true
  | .dmaRd32S5ndtr _ => true
  | .dmaWr32S5ndtr _ _ => true
  | .dmaRd32S5par _ => true
  | .dmaWr32S5par _ _ => true
  | .dmaRd32S5m0ar _ => true
  | .dmaWr32S5m0ar _ _ => true
  | .dmaRd32S5m1ar _ => true
  | .dmaWr32S5m1ar _ _ => true
  | .dmaRd32S5fcr _ => true
  | .dmaWr32S5fcr _ _ => true
  | .dmaRd32S6cr _ => true
  | .dmaWr32S6cr _ _ => true
  | .dmaRd32S6ndtr _ => true
  | .dmaWr32S6ndtr _ _ => true
  | .dmaRd32S6par _ => true
  | .dmaWr32S6par _ _ => true
  | .dmaRd32S6m0ar _ => true
  | .dmaWr32S6m0ar _ _ => true
  | .dmaRd32S6m1ar _ => true
  | .dmaWr32S6m1ar _ _ => true
  | .dmaRd32S6fcr _ => true
  | .dmaWr32S6fcr _ _ => true
  | .dmaRd32S7cr _ => true
  | .dmaWr32S7cr _ _ => true
  | .dmaRd32S7ndtr _ => true
  | .dmaWr32S7ndtr _ _ => true
  | .dmaRd32S7par _ => true
  | .dmaWr32S7par _ _ => true
  | .dmaRd32S7m0ar _ => true
  | .dmaWr32S7m0ar _ _ => true
  | .dmaRd32S7m1ar _ => true
  | .dmaWr32S7m1ar _ _ => true
  | .dmaRd32S7fcr _ => true
  | .dmaWr32S7fcr _ _ => true
  | .dmaRd32Unmapped _ o => Offset.isWord o && decide (0xD0 ≤ o.toNat)
  | .dmaWr32Unmapped _ o _ => Offset.isWord o && decide (0xD0 ≤ o.toNat)
  | .dmaRd8 _ _ => true
  | .dmaWr8 _ _ _ => true
  | .dmaRd16 _ o => !Offset.isOdd o
  | .dmaWr16 _ o _ => !Offset.isOdd o
  | .dmaRd32MisalignedOdd _ o => Offset.isOdd o
  | .dmaRd32Misaligned2 _ o => Offset.isTwo o
  | .dmaRd16Misaligned _ o => Offset.isOdd o
  | .dmaWr32MisalignedOdd _ o _ => Offset.isOdd o
  | .dmaWr32Misaligned2 _ o _ => Offset.isTwo o
  | .dmaWr16Misaligned _ o _ => Offset.isOdd o
  | .dmaReq _ _ _ => true
  | .dmaSync _ => true
  | .dmaReset _ => true
  | .i2cRd32Cr1 _ => true
  | .i2cWr32Cr1 _ _ => true
  | .i2cRd32Cr2 _ => true
  | .i2cWr32Cr2 _ _ => true
  | .i2cRd32Dr _ => true
  | .i2cWr32Dr _ _ => true
  | .i2cRd32Sr1 _ => true
  | .i2cWr32Sr1 _ _ => true
  | .i2cRd32Sr2 _ => true
  | .i2cWr32Sr2 _ _ => true
  | .i2cRd32Unmapped _ o => Offset.isWord o && !Offset.isI2cReg o
  | .i2cWr32Unmapped _ o _ => Offset.isWord o && !Offset.isI2cReg o
  | .i2cRd8 _ _ => true
  | .i2cRd16 _ o => !Offset.isOdd o
  | .i2cWr8Aligned _ o _ => Offset.isWord o
  | .i2cWr8Unaligned _ o _ => !Offset.isWord o
  | .i2cWr16Aligned _ o _ => Offset.isWord o
  | .i2cWr16Unaligned _ o _ => Offset.isTwo o
  | .i2cRd32MisalignedOdd _ o => Offset.isOdd o
  | .i2cRd32Misaligned2 _ o => Offset.isTwo o
  | .i2cRd16Misaligned _ o => Offset.isOdd o
  | .i2cWr32MisalignedOdd _ o _ => Offset.isOdd o
  | .i2cWr32Misaligned2 _ o _ => Offset.isTwo o
  | .i2cWr16Misaligned _ o _ => Offset.isOdd o
  | .i2cSync _ => true
  | .i2cReset _ => true

/-- The well-formed operations, as a decidable proposition. -/
abbrev WellFormed (i : Instr) : Prop := i.wellFormed = true

end Sys2Proof
end

