-- ==== Sys2Proof/Decode.lean ====
section
/-! DEFINITION. The decoder of the transaction descriptor (R140–R146), total on every 32-bit word and rejecting by name,
and the encoder, whose descriptors are the `match` values of spec/opcode_table.json. The decoder reads the fields of
the descriptor (R140) and takes the exact register before the misaligned and the wildcard rows, as the most specific
row does (R144). -/

namespace Sys2Proof

/-- Why a descriptor has no operation: it is reserved (R142, R143). -/
inductive DecodeError where
  | reservedDescriptor
deriving DecidableEq, Repr

/-- The two blocks that a descriptor can name (R140). -/
inductive Block where
  | dma
  | i2c
deriving DecidableEq, Repr

/-- The sub-register at a sub-offset of a stream's 0x18 bytes (R39). -/
def StreamReg.ofSub : Nat → Option StreamReg
  | 0x00 => some .cr
  | 0x04 => some .ndtr
  | 0x08 => some .par
  | 0x0C => some .m0ar
  | 0x10 => some .m1ar
  | 0x14 => some .fcr
  | _ => none

/-- The sub-offset of a sub-register (R39). -/
def StreamReg.sub : StreamReg → Nat
  | .cr => 0x00
  | .ndtr => 0x04
  | .par => 0x08
  | .m0ar => 0x0C
  | .m1ar => 0x10
  | .fcr => 0x14

/-- The register of the DMA window at an offset (R39, R145): stream `x` register `X` is at `0x10 + 0x18·x + sub(X)`. -/
def DmaReg.ofOffset (o : Offset) : DmaReg :=
  if o.toNat = 0x00 then .lisr
  else if o.toNat = 0x04 then .hisr
  else if o.toNat = 0x08 then .lifcr
  else if o.toNat = 0x0C then .hifcr
  else if h : 0x10 ≤ o.toNat ∧ o.toNat < 0xD0 then
    match StreamReg.ofSub ((o.toNat - 0x10) % 0x18) with
    | some r => .stream ⟨(o.toNat - 0x10) / 0x18, by omega⟩ r
    | none => .unmapped
  else .unmapped

/-- The register of the I²C window at an offset (R60, R146). -/
def I2cReg.ofOffset (o : Offset) : I2cReg :=
  if o.toNat = 0x00 then .cr1
  else if o.toNat = 0x04 then .cr2
  else if o.toNat = 0x10 then .dr
  else if o.toNat = 0x14 then .sr1
  else if o.toNat = 0x18 then .sr2
  else .unmapped

/-- The 32-bit read of a stream register as an operation: the rows `DMA_RD32_S<x><reg>`. -/
def Instr.rdStream (k : Nat) (x : StreamId) (r : StreamReg) : Instr :=
  match x, r with
  | 0, .cr => .dmaRd32S0cr k
  | 0, .ndtr => .dmaRd32S0ndtr k
  | 0, .par => .dmaRd32S0par k
  | 0, .m0ar => .dmaRd32S0m0ar k
  | 0, .m1ar => .dmaRd32S0m1ar k
  | 0, .fcr => .dmaRd32S0fcr k
  | 1, .cr => .dmaRd32S1cr k
  | 1, .ndtr => .dmaRd32S1ndtr k
  | 1, .par => .dmaRd32S1par k
  | 1, .m0ar => .dmaRd32S1m0ar k
  | 1, .m1ar => .dmaRd32S1m1ar k
  | 1, .fcr => .dmaRd32S1fcr k
  | 2, .cr => .dmaRd32S2cr k
  | 2, .ndtr => .dmaRd32S2ndtr k
  | 2, .par => .dmaRd32S2par k
  | 2, .m0ar => .dmaRd32S2m0ar k
  | 2, .m1ar => .dmaRd32S2m1ar k
  | 2, .fcr => .dmaRd32S2fcr k
  | 3, .cr => .dmaRd32S3cr k
  | 3, .ndtr => .dmaRd32S3ndtr k
  | 3, .par => .dmaRd32S3par k
  | 3, .m0ar => .dmaRd32S3m0ar k
  | 3, .m1ar => .dmaRd32S3m1ar k
  | 3, .fcr => .dmaRd32S3fcr k
  | 4, .cr => .dmaRd32S4cr k
  | 4, .ndtr => .dmaRd32S4ndtr k
  | 4, .par => .dmaRd32S4par k
  | 4, .m0ar => .dmaRd32S4m0ar k
  | 4, .m1ar => .dmaRd32S4m1ar k
  | 4, .fcr => .dmaRd32S4fcr k
  | 5, .cr => .dmaRd32S5cr k
  | 5, .ndtr => .dmaRd32S5ndtr k
  | 5, .par => .dmaRd32S5par k
  | 5, .m0ar => .dmaRd32S5m0ar k
  | 5, .m1ar => .dmaRd32S5m1ar k
  | 5, .fcr => .dmaRd32S5fcr k
  | 6, .cr => .dmaRd32S6cr k
  | 6, .ndtr => .dmaRd32S6ndtr k
  | 6, .par => .dmaRd32S6par k
  | 6, .m0ar => .dmaRd32S6m0ar k
  | 6, .m1ar => .dmaRd32S6m1ar k
  | 6, .fcr => .dmaRd32S6fcr k
  | 7, .cr => .dmaRd32S7cr k
  | 7, .ndtr => .dmaRd32S7ndtr k
  | 7, .par => .dmaRd32S7par k
  | 7, .m0ar => .dmaRd32S7m0ar k
  | 7, .m1ar => .dmaRd32S7m1ar k
  | 7, .fcr => .dmaRd32S7fcr k

/-- The 32-bit write of a stream register as an operation: the rows `DMA_WR32_S<x><reg>`. -/
def Instr.wrStream (k : Nat) (x : StreamId) (r : StreamReg) (d : Word) : Instr :=
  match x, r with
  | 0, .cr => .dmaWr32S0cr k d
  | 0, .ndtr => .dmaWr32S0ndtr k d
  | 0, .par => .dmaWr32S0par k d
  | 0, .m0ar => .dmaWr32S0m0ar k d
  | 0, .m1ar => .dmaWr32S0m1ar k d
  | 0, .fcr => .dmaWr32S0fcr k d
  | 1, .cr => .dmaWr32S1cr k d
  | 1, .ndtr => .dmaWr32S1ndtr k d
  | 1, .par => .dmaWr32S1par k d
  | 1, .m0ar => .dmaWr32S1m0ar k d
  | 1, .m1ar => .dmaWr32S1m1ar k d
  | 1, .fcr => .dmaWr32S1fcr k d
  | 2, .cr => .dmaWr32S2cr k d
  | 2, .ndtr => .dmaWr32S2ndtr k d
  | 2, .par => .dmaWr32S2par k d
  | 2, .m0ar => .dmaWr32S2m0ar k d
  | 2, .m1ar => .dmaWr32S2m1ar k d
  | 2, .fcr => .dmaWr32S2fcr k d
  | 3, .cr => .dmaWr32S3cr k d
  | 3, .ndtr => .dmaWr32S3ndtr k d
  | 3, .par => .dmaWr32S3par k d
  | 3, .m0ar => .dmaWr32S3m0ar k d
  | 3, .m1ar => .dmaWr32S3m1ar k d
  | 3, .fcr => .dmaWr32S3fcr k d
  | 4, .cr => .dmaWr32S4cr k d
  | 4, .ndtr => .dmaWr32S4ndtr k d
  | 4, .par => .dmaWr32S4par k d
  | 4, .m0ar => .dmaWr32S4m0ar k d
  | 4, .m1ar => .dmaWr32S4m1ar k d
  | 4, .fcr => .dmaWr32S4fcr k d
  | 5, .cr => .dmaWr32S5cr k d
  | 5, .ndtr => .dmaWr32S5ndtr k d
  | 5, .par => .dmaWr32S5par k d
  | 5, .m0ar => .dmaWr32S5m0ar k d
  | 5, .m1ar => .dmaWr32S5m1ar k d
  | 5, .fcr => .dmaWr32S5fcr k d
  | 6, .cr => .dmaWr32S6cr k d
  | 6, .ndtr => .dmaWr32S6ndtr k d
  | 6, .par => .dmaWr32S6par k d
  | 6, .m0ar => .dmaWr32S6m0ar k d
  | 6, .m1ar => .dmaWr32S6m1ar k d
  | 6, .fcr => .dmaWr32S6fcr k d
  | 7, .cr => .dmaWr32S7cr k d
  | 7, .ndtr => .dmaWr32S7ndtr k d
  | 7, .par => .dmaWr32S7par k d
  | 7, .m0ar => .dmaWr32S7m0ar k d
  | 7, .m1ar => .dmaWr32S7m1ar k d
  | 7, .fcr => .dmaWr32S7fcr k d

/-- The 32-bit read of a register of the DMA window as an operation (R145). -/
def Instr.dmaRd32 (k : Nat) (o : Offset) : DmaReg → Instr
  | .lisr => .dmaRd32Lisr k
  | .hisr => .dmaRd32Hisr k
  | .lifcr => .dmaRd32Lifcr k
  | .hifcr => .dmaRd32Hifcr k
  | .stream x r => Instr.rdStream k x r
  | .unmapped => .dmaRd32Unmapped k o

/-- The 32-bit write of a register of the DMA window as an operation (R145). -/
def Instr.dmaWr32 (k : Nat) (o : Offset) (d : Word) : DmaReg → Instr
  | .lisr => .dmaWr32Lisr k d
  | .hisr => .dmaWr32Hisr k d
  | .lifcr => .dmaWr32Lifcr k d
  | .hifcr => .dmaWr32Hifcr k d
  | .stream x r => Instr.wrStream k x r d
  | .unmapped => .dmaWr32Unmapped k o d

/-- The 32-bit read of a register of the I²C window as an operation (R146). -/
def Instr.i2cRd32 (j : Nat) (o : Offset) : I2cReg → Instr
  | .cr1 => .i2cRd32Cr1 j
  | .cr2 => .i2cRd32Cr2 j
  | .dr => .i2cRd32Dr j
  | .sr1 => .i2cRd32Sr1 j
  | .sr2 => .i2cRd32Sr2 j
  | .unmapped => .i2cRd32Unmapped j o

/-- The 32-bit write of a register of the I²C window as an operation (R146). -/
def Instr.i2cWr32 (j : Nat) (o : Offset) (d : Word) : I2cReg → Instr
  | .cr1 => .i2cWr32Cr1 j d
  | .cr2 => .i2cWr32Cr2 j d
  | .dr => .i2cWr32Dr j d
  | .sr1 => .i2cWr32Sr1 j d
  | .sr2 => .i2cWr32Sr2 j d
  | .unmapped => .i2cWr32Unmapped j o d

/-- Field BLK, bits 14–13: DMA, I²C, or reserved (R140). -/
def blockField (t : Word) : Option Block :=
  if t.extractLsb' 13 2 = 0#2 then some .dma
  else if t.extractLsb' 13 2 = 1#2 then some .i2c
  else none

/-- Field SZ, bits 12–11: a transaction width, or none for an event (R140). -/
def sizeField (t : Word) : Option Width :=
  if t.extractLsb' 11 2 = 0#2 then some .byte
  else if t.extractLsb' 11 2 = 1#2 then some .half
  else if t.extractLsb' 11 2 = 2#2 then some .word
  else none

/-- Field W, bit 10: 1 is a write (R140). -/
def writeField (t : Word) : Bool := t.getLsbD 10

/-- Field OFF, bits 9–0 (R140). -/
def offsetField (t : Word) : Offset := t.extractLsb' 0 10

/-- A read transaction on the DMA window (R144, R145). -/
def decodeDmaRead (k : Nat) (n : Width) (o : Offset) : Instr :=
  match n with
  | .byte => .dmaRd8 k o
  | .half => if Offset.isOdd o then .dmaRd16Misaligned k o else .dmaRd16 k o
  | .word =>
    if Offset.isOdd o then .dmaRd32MisalignedOdd k o
    else if Offset.isTwo o then .dmaRd32Misaligned2 k o
    else Instr.dmaRd32 k o (DmaReg.ofOffset o)

/-- A write transaction on the DMA window (R144, R145). -/
def decodeDmaWrite (k : Nat) (n : Width) (o : Offset) (d : Word) : Instr :=
  match n with
  | .byte => .dmaWr8 k o d
  | .half => if Offset.isOdd o then .dmaWr16Misaligned k o d else .dmaWr16 k o d
  | .word =>
    if Offset.isOdd o then .dmaWr32MisalignedOdd k o d
    else if Offset.isTwo o then .dmaWr32Misaligned2 k o d
    else Instr.dmaWr32 k o d (DmaReg.ofOffset o)

/-- A read transaction on the I²C window (R144, R146). -/
def decodeI2cRead (j : Nat) (n : Width) (o : Offset) : Instr :=
  match n with
  | .byte => .i2cRd8 j o
  | .half => if Offset.isOdd o then .i2cRd16Misaligned j o else .i2cRd16 j o
  | .word =>
    if Offset.isOdd o then .i2cRd32MisalignedOdd j o
    else if Offset.isTwo o then .i2cRd32Misaligned2 j o
    else Instr.i2cRd32 j o (I2cReg.ofOffset o)

/-- A write transaction on the I²C window: the narrow writes are split by offset (R108, R109, R144). -/
def decodeI2cWrite (j : Nat) (n : Width) (o : Offset) (d : Word) : Instr :=
  match n with
  | .byte => if Offset.isWord o then .i2cWr8Aligned j o d else .i2cWr8Unaligned j o d
  | .half =>
    if Offset.isOdd o then .i2cWr16Misaligned j o d
    else if Offset.isTwo o then .i2cWr16Unaligned j o d
    else .i2cWr16Aligned j o d
  | .word =>
    if Offset.isOdd o then .i2cWr32MisalignedOdd j o d
    else if Offset.isTwo o then .i2cWr32Misaligned2 j o d
    else Instr.i2cWr32 j o d (I2cReg.ofOffset o)

/-- The level LVL of an event, `OFF[3]` (R143). -/
def eventLevel (o : Offset) : Bool := o.getLsbD 3

/-- The line LINE of an event, `OFF[2:0]` (R143). -/
def eventLine (o : Offset) : StreamId := ⟨(o.extractLsb' 0 3).toNat, (o.extractLsb' 0 3).isLt⟩

/-- An event of a block: kind `OFF[9:4]`; level and line must be 0 but for a request event (R143). -/
def decodeEvent (k : Nat) (b : Block) (o : Offset) : Except DecodeError Instr :=
  match b with
  | .dma =>
    if o.extractLsb' 4 6 = 0#6 then .ok (.dmaReq k (eventLine o) (eventLevel o))
    else if o = 0x10#10 then .ok (.dmaSync k)
    else if o = 0x20#10 then .ok (.dmaReset k)
    else .error .reservedDescriptor
  | .i2c =>
    if o = 0x10#10 then .ok (.i2cSync k)
    else if o = 0x20#10 then .ok (.i2cReset k)
    else .error .reservedDescriptor

/-- The operation that the fields of a descriptor name (R140, R142–R146). -/
def decodeFields (k : Nat) (b : Option Block) (n : Option Width) (w : Bool) (o : Offset) (d : Word) :
    Except DecodeError Instr :=
  match b, n, w with
  | none, _, _ => .error .reservedDescriptor
  | some b, none, false => decodeEvent k b o
  | some _, none, true => .error .reservedDescriptor
  | some .dma, some n, false => .ok (decodeDmaRead k n o)
  | some .dma, some n, true => .ok (decodeDmaWrite k n o d)
  | some .i2c, some n, false => .ok (decodeI2cRead k n o)
  | some .i2c, some n, true => .ok (decodeI2cWrite k n o d)

/-- The decoder: bits 31–15 must be 0, and the other fields name the operation (R140, R142, R144). -/
def decode (p : Operation) : Except DecodeError Instr :=
  if p.desc.extractLsb' 15 17 = 0#17 then
    decodeFields p.inst (blockField p.desc) (sizeField p.desc) (writeField p.desc) (offsetField p.desc) p.data
  else .error .reservedDescriptor

/-- The descriptor of a wildcard row with its offset filled in. -/
def withOffset (m : Word) (o : Offset) : Word := m ||| o.setWidth 32

/-- The descriptor of a request event, `0x00001800 | (v << 3) | s` (R260). -/
def reqDescriptor (x : StreamId) (v : Bool) : Word :=
  0x00001800#32 ||| ((BitVec.ofBool v).setWidth 32 <<< 3) ||| BitVec.ofNat 32 x.val

/-- The encoder: the descriptor and the data operand of an operation (R140, R141). A row without an offset operand has
its `match` value; an operation without data has data operand 0. -/
def encode : Instr → Operation
  | .dmaRd32Lisr k => ⟨k, 0x00001000#32, 0⟩
  | .dmaWr32Lisr k d => ⟨k, 0x00001400#32, d⟩
  | .dmaRd32Hisr k => ⟨k, 0x00001004#32, 0⟩
  | .dmaWr32Hisr k d => ⟨k, 0x00001404#32, d⟩
  | .dmaRd32Lifcr k => ⟨k, 0x00001008#32, 0⟩
  | .dmaWr32Lifcr k d => ⟨k, 0x00001408#32, d⟩
  | .dmaRd32Hifcr k => ⟨k, 0x0000100C#32, 0⟩
  | .dmaWr32Hifcr k d => ⟨k, 0x0000140C#32, d⟩
  | .dmaRd32S0cr k => ⟨k, 0x00001010#32, 0⟩
  | .dmaWr32S0cr k d => ⟨k, 0x00001410#32, d⟩
  | .dmaRd32S0ndtr k => ⟨k, 0x00001014#32, 0⟩
  | .dmaWr32S0ndtr k d => ⟨k, 0x00001414#32, d⟩
  | .dmaRd32S0par k => ⟨k, 0x00001018#32, 0⟩
  | .dmaWr32S0par k d => ⟨k, 0x00001418#32, d⟩
  | .dmaRd32S0m0ar k => ⟨k, 0x0000101C#32, 0⟩
  | .dmaWr32S0m0ar k d => ⟨k, 0x0000141C#32, d⟩
  | .dmaRd32S0m1ar k => ⟨k, 0x00001020#32, 0⟩
  | .dmaWr32S0m1ar k d => ⟨k, 0x00001420#32, d⟩
  | .dmaRd32S0fcr k => ⟨k, 0x00001024#32, 0⟩
  | .dmaWr32S0fcr k d => ⟨k, 0x00001424#32, d⟩
  | .dmaRd32S1cr k => ⟨k, 0x00001028#32, 0⟩
  | .dmaWr32S1cr k d => ⟨k, 0x00001428#32, d⟩
  | .dmaRd32S1ndtr k => ⟨k, 0x0000102C#32, 0⟩
  | .dmaWr32S1ndtr k d => ⟨k, 0x0000142C#32, d⟩
  | .dmaRd32S1par k => ⟨k, 0x00001030#32, 0⟩
  | .dmaWr32S1par k d => ⟨k, 0x00001430#32, d⟩
  | .dmaRd32S1m0ar k => ⟨k, 0x00001034#32, 0⟩
  | .dmaWr32S1m0ar k d => ⟨k, 0x00001434#32, d⟩
  | .dmaRd32S1m1ar k => ⟨k, 0x00001038#32, 0⟩
  | .dmaWr32S1m1ar k d => ⟨k, 0x00001438#32, d⟩
  | .dmaRd32S1fcr k => ⟨k, 0x0000103C#32, 0⟩
  | .dmaWr32S1fcr k d => ⟨k, 0x0000143C#32, d⟩
  | .dmaRd32S2cr k => ⟨k, 0x00001040#32, 0⟩
  | .dmaWr32S2cr k d => ⟨k, 0x00001440#32, d⟩
  | .dmaRd32S2ndtr k => ⟨k, 0x00001044#32, 0⟩
  | .dmaWr32S2ndtr k d => ⟨k, 0x00001444#32, d⟩
  | .dmaRd32S2par k => ⟨k, 0x00001048#32, 0⟩
  | .dmaWr32S2par k d => ⟨k, 0x00001448#32, d⟩
  | .dmaRd32S2m0ar k => ⟨k, 0x0000104C#32, 0⟩
  | .dmaWr32S2m0ar k d => ⟨k, 0x0000144C#32, d⟩
  | .dmaRd32S2m1ar k => ⟨k, 0x00001050#32, 0⟩
  | .dmaWr32S2m1ar k d => ⟨k, 0x00001450#32, d⟩
  | .dmaRd32S2fcr k => ⟨k, 0x00001054#32, 0⟩
  | .dmaWr32S2fcr k d => ⟨k, 0x00001454#32, d⟩
  | .dmaRd32S3cr k => ⟨k, 0x00001058#32, 0⟩
  | .dmaWr32S3cr k d => ⟨k, 0x00001458#32, d⟩
  | .dmaRd32S3ndtr k => ⟨k, 0x0000105C#32, 0⟩
  | .dmaWr32S3ndtr k d => ⟨k, 0x0000145C#32, d⟩
  | .dmaRd32S3par k => ⟨k, 0x00001060#32, 0⟩
  | .dmaWr32S3par k d => ⟨k, 0x00001460#32, d⟩
  | .dmaRd32S3m0ar k => ⟨k, 0x00001064#32, 0⟩
  | .dmaWr32S3m0ar k d => ⟨k, 0x00001464#32, d⟩
  | .dmaRd32S3m1ar k => ⟨k, 0x00001068#32, 0⟩
  | .dmaWr32S3m1ar k d => ⟨k, 0x00001468#32, d⟩
  | .dmaRd32S3fcr k => ⟨k, 0x0000106C#32, 0⟩
  | .dmaWr32S3fcr k d => ⟨k, 0x0000146C#32, d⟩
  | .dmaRd32S4cr k => ⟨k, 0x00001070#32, 0⟩
  | .dmaWr32S4cr k d => ⟨k, 0x00001470#32, d⟩
  | .dmaRd32S4ndtr k => ⟨k, 0x00001074#32, 0⟩
  | .dmaWr32S4ndtr k d => ⟨k, 0x00001474#32, d⟩
  | .dmaRd32S4par k => ⟨k, 0x00001078#32, 0⟩
  | .dmaWr32S4par k d => ⟨k, 0x00001478#32, d⟩
  | .dmaRd32S4m0ar k => ⟨k, 0x0000107C#32, 0⟩
  | .dmaWr32S4m0ar k d => ⟨k, 0x0000147C#32, d⟩
  | .dmaRd32S4m1ar k => ⟨k, 0x00001080#32, 0⟩
  | .dmaWr32S4m1ar k d => ⟨k, 0x00001480#32, d⟩
  | .dmaRd32S4fcr k => ⟨k, 0x00001084#32, 0⟩
  | .dmaWr32S4fcr k d => ⟨k, 0x00001484#32, d⟩
  | .dmaRd32S5cr k => ⟨k, 0x00001088#32, 0⟩
  | .dmaWr32S5cr k d => ⟨k, 0x00001488#32, d⟩
  | .dmaRd32S5ndtr k => ⟨k, 0x0000108C#32, 0⟩
  | .dmaWr32S5ndtr k d => ⟨k, 0x0000148C#32, d⟩
  | .dmaRd32S5par k => ⟨k, 0x00001090#32, 0⟩
  | .dmaWr32S5par k d => ⟨k, 0x00001490#32, d⟩
  | .dmaRd32S5m0ar k => ⟨k, 0x00001094#32, 0⟩
  | .dmaWr32S5m0ar k d => ⟨k, 0x00001494#32, d⟩
  | .dmaRd32S5m1ar k => ⟨k, 0x00001098#32, 0⟩
  | .dmaWr32S5m1ar k d => ⟨k, 0x00001498#32, d⟩
  | .dmaRd32S5fcr k => ⟨k, 0x0000109C#32, 0⟩
  | .dmaWr32S5fcr k d => ⟨k, 0x0000149C#32, d⟩
  | .dmaRd32S6cr k => ⟨k, 0x000010A0#32, 0⟩
  | .dmaWr32S6cr k d => ⟨k, 0x000014A0#32, d⟩
  | .dmaRd32S6ndtr k => ⟨k, 0x000010A4#32, 0⟩
  | .dmaWr32S6ndtr k d => ⟨k, 0x000014A4#32, d⟩
  | .dmaRd32S6par k => ⟨k, 0x000010A8#32, 0⟩
  | .dmaWr32S6par k d => ⟨k, 0x000014A8#32, d⟩
  | .dmaRd32S6m0ar k => ⟨k, 0x000010AC#32, 0⟩
  | .dmaWr32S6m0ar k d => ⟨k, 0x000014AC#32, d⟩
  | .dmaRd32S6m1ar k => ⟨k, 0x000010B0#32, 0⟩
  | .dmaWr32S6m1ar k d => ⟨k, 0x000014B0#32, d⟩
  | .dmaRd32S6fcr k => ⟨k, 0x000010B4#32, 0⟩
  | .dmaWr32S6fcr k d => ⟨k, 0x000014B4#32, d⟩
  | .dmaRd32S7cr k => ⟨k, 0x000010B8#32, 0⟩
  | .dmaWr32S7cr k d => ⟨k, 0x000014B8#32, d⟩
  | .dmaRd32S7ndtr k => ⟨k, 0x000010BC#32, 0⟩
  | .dmaWr32S7ndtr k d => ⟨k, 0x000014BC#32, d⟩
  | .dmaRd32S7par k => ⟨k, 0x000010C0#32, 0⟩
  | .dmaWr32S7par k d => ⟨k, 0x000014C0#32, d⟩
  | .dmaRd32S7m0ar k => ⟨k, 0x000010C4#32, 0⟩
  | .dmaWr32S7m0ar k d => ⟨k, 0x000014C4#32, d⟩
  | .dmaRd32S7m1ar k => ⟨k, 0x000010C8#32, 0⟩
  | .dmaWr32S7m1ar k d => ⟨k, 0x000014C8#32, d⟩
  | .dmaRd32S7fcr k => ⟨k, 0x000010CC#32, 0⟩
  | .dmaWr32S7fcr k d => ⟨k, 0x000014CC#32, d⟩
  | .dmaRd32Unmapped k o => ⟨k, withOffset 0x00001000#32 o, 0⟩
  | .dmaWr32Unmapped k o d => ⟨k, withOffset 0x00001400#32 o, d⟩
  | .dmaRd8 k o => ⟨k, withOffset 0x00000000#32 o, 0⟩
  | .dmaWr8 k o d => ⟨k, withOffset 0x00000400#32 o, d⟩
  | .dmaRd16 k o => ⟨k, withOffset 0x00000800#32 o, 0⟩
  | .dmaWr16 k o d => ⟨k, withOffset 0x00000C00#32 o, d⟩
  | .dmaRd32MisalignedOdd k o => ⟨k, withOffset 0x00001000#32 o, 0⟩
  | .dmaRd32Misaligned2 k o => ⟨k, withOffset 0x00001000#32 o, 0⟩
  | .dmaRd16Misaligned k o => ⟨k, withOffset 0x00000800#32 o, 0⟩
  | .dmaWr32MisalignedOdd k o d => ⟨k, withOffset 0x00001400#32 o, d⟩
  | .dmaWr32Misaligned2 k o d => ⟨k, withOffset 0x00001400#32 o, d⟩
  | .dmaWr16Misaligned k o d => ⟨k, withOffset 0x00000C00#32 o, d⟩
  | .dmaReq k x v => ⟨k, reqDescriptor x v, 0⟩
  | .dmaSync k => ⟨k, 0x00001810#32, 0⟩
  | .dmaReset k => ⟨k, 0x00001820#32, 0⟩
  | .i2cRd32Cr1 j => ⟨j, 0x00003000#32, 0⟩
  | .i2cWr32Cr1 j d => ⟨j, 0x00003400#32, d⟩
  | .i2cRd32Cr2 j => ⟨j, 0x00003004#32, 0⟩
  | .i2cWr32Cr2 j d => ⟨j, 0x00003404#32, d⟩
  | .i2cRd32Dr j => ⟨j, 0x00003010#32, 0⟩
  | .i2cWr32Dr j d => ⟨j, 0x00003410#32, d⟩
  | .i2cRd32Sr1 j => ⟨j, 0x00003014#32, 0⟩
  | .i2cWr32Sr1 j d => ⟨j, 0x00003414#32, d⟩
  | .i2cRd32Sr2 j => ⟨j, 0x00003018#32, 0⟩
  | .i2cWr32Sr2 j d => ⟨j, 0x00003418#32, d⟩
  | .i2cRd32Unmapped j o => ⟨j, withOffset 0x00003000#32 o, 0⟩
  | .i2cWr32Unmapped j o d => ⟨j, withOffset 0x00003400#32 o, d⟩
  | .i2cRd8 j o => ⟨j, withOffset 0x00002000#32 o, 0⟩
  | .i2cRd16 j o => ⟨j, withOffset 0x00002800#32 o, 0⟩
  | .i2cWr8Aligned j o d => ⟨j, withOffset 0x00002400#32 o, d⟩
  | .i2cWr8Unaligned j o d => ⟨j, withOffset 0x00002400#32 o, d⟩
  | .i2cWr16Aligned j o d => ⟨j, withOffset 0x00002C00#32 o, d⟩
  | .i2cWr16Unaligned j o d => ⟨j, withOffset 0x00002C00#32 o, d⟩
  | .i2cRd32MisalignedOdd j o => ⟨j, withOffset 0x00003000#32 o, 0⟩
  | .i2cRd32Misaligned2 j o => ⟨j, withOffset 0x00003000#32 o, 0⟩
  | .i2cRd16Misaligned j o => ⟨j, withOffset 0x00002800#32 o, 0⟩
  | .i2cWr32MisalignedOdd j o d => ⟨j, withOffset 0x00003400#32 o, d⟩
  | .i2cWr32Misaligned2 j o d => ⟨j, withOffset 0x00003400#32 o, d⟩
  | .i2cWr16Misaligned j o d => ⟨j, withOffset 0x00002C00#32 o, d⟩
  | .i2cSync j => ⟨j, 0x00003810#32, 0⟩
  | .i2cReset j => ⟨j, 0x00003820#32, 0⟩

/-- The operation of instance 0 whose bits are `w`: the descriptor is bits 31..0, the data operand the next word
(R140, R141); bits from `nbits` on are 0. -/
def tableOperation (nbits w : Nat) : Operation :=
  let v := w % 2 ^ nbits
  ⟨0, BitVec.ofNat 32 v, BitVec.ofNat 32 (v >>> 32)⟩

/-- What the decoder reads from the bits `w` of an operation, numbered as the opcode table numbers them. -/
def decodeTableWord (nbits w : Nat) : Option Instr :=
  match decode (tableOperation nbits w) with
  | .ok i => some i
  | .error _ => none

end Sys2Proof
end

