-- ==== Sys2Proof/Machine/State.lean ====
section
/-! DEFINITION. The whole state of the hardware (R30–R68), its reset values (R50, R66, R442), and the reasons a step
can stop. One `State` holds every instance of both blocks, the observations of R388, the two oracles' fixed answers,
and the operations the environment has yet to present. -/

namespace Sys2Proof.Machine

/-- No fault exists: "register-plane operations never throw" (R400), and neither block has a trap (R406). The type has
no constructor, so no step can end in a fault. -/
inductive Fault where
deriving DecidableEq, Repr

/-- Why the model gives a step no meaning (R12, R403). Every refusal is safe: it errs toward unprovable. -/
inductive Refusal where
  /-- Raised by an arm of `exec` for an instruction that has no meaning yet. Safe. -/
  | notModelled (mnemonic : String)
  /-- Raised by `step` for a reserved descriptor (R142) and by `DMA_REQ` for a wired input (R383). Safe. -/
  | reservedDescriptor
  /-- Raised by misaligned transactions (R104) and by DMA items that straddle into a window (R380). Safe. -/
  | misalignedAccess
  /-- Raised by a transfer dispatched with `DIR = 3` (R270). Safe. -/
  | reservedDirection
  /-- Raised by a DMA access into a DMA window (R384). Safe. -/
  | dmaSelfAccess
  /-- Raised by a step that would deliver more than `CASCADE_LIMIT` line events (R382). Safe. -/
  | cascadeLimit
  /-- Raised by an operation, or a wired line, that names an instance the platform does not have (log entry 6). Safe. -/
  | noSuchInstance
deriving DecidableEq, Repr

/-! ### DMA controller -/

/-- One DMA stream: the fields of SxCR, NDTR, PAR, M0AR, M1AR, FCR (R31, R44–R49) and the hidden `LATCH` (R32) and
`REQ` (R33). -/
structure Stream where
  en : Bool
  tcie : Bool
  dir : BitVec 2
  circ : Bool
  pinc : Bool
  minc : Bool
  psize : BitVec 2
  msize : BitVec 2
  ndt : BitVec 16
  par : Word
  m0ar : Word
  m1ar : Word
  fcr : Word
  latch : BitVec 16
  req : Bool
deriving DecidableEq, Repr

/-- The reset values of a stream (R50): all 0 but `FCR = 0x21`. -/
def Stream.reset : Stream where
  en := false
  tcie := false
  dir := 0
  circ := false
  pinc := false
  minc := false
  psize := 0
  msize := 0
  ndt := 0
  par := 0
  m0ar := 0
  m1ar := 0
  fcr := 0x00000021
  latch := 0
  req := false

/-- One DMA controller instance (R31, R34–R36, R68). -/
structure Dma where
  /-- Construction parameters; no step writes them (R443). -/
  site : DmaSite
  streams : Vector Stream 8
  /-- The finished bits `FIN[0..7]` (R34). -/
  fin : Vector Bool 8
  /-- The output levels `IRQ[0..7]` (R35). -/
  irq : Vector Bool 8
  /-- `DQ_DMA`: the streams whose `IrqSet` waits for the sync agent, oldest first (R36). -/
  dq : List StreamId
deriving DecidableEq, Repr

/-- A DMA controller after reset (R50, R440). -/
def Dma.reset (site : DmaSite) : Dma where
  site := site
  streams := Vector.replicate 8 Stream.reset
  fin := Vector.replicate 8 false
  irq := Vector.replicate 8 false
  dq := []

/-! ### I²C controller -/

/-- The six states of the I²C machine (R51, R300). -/
inductive I2cState where
  | idle
  | awaitingAddress
  | awaitingSr1Read
  | awaitingSr2Read
  | awaitingData
  | receivingData
deriving DecidableEq, Repr

/-- The deferred actions of the I²C controller (R59). -/
inductive I2cAction where
  | pull
  | flush
deriving DecidableEq, Repr

/-- One I²C controller instance (R51–R59, R68). -/
structure I2c where
  /-- Construction parameters; no step writes them (R305, R443). -/
  site : I2cSite
  /-- `ST` (R51). -/
  st : I2cState
  /-- `SEL`: the selected child (R52). -/
  sel : Option ChildAddr
  /-- `RW`: 1 reads from the child (R53). -/
  rw : Bool
  /-- `TXQ`, oldest first (R54). -/
  txq : List Byte
  /-- `RXQ`, oldest first (R54). -/
  rxq : List Byte
  /-- `AF` (R55). -/
  af : Bool
  ack : Bool
  itevten : Bool
  itbufen : Bool
  iterren : Bool
  dmaen : Bool
  last : Bool
  /-- `DQ_I2C`, oldest first (R59). -/
  dq : List I2cAction
deriving DecidableEq, Repr

/-- An I²C controller after reset (R66, R441). -/
def I2c.reset (site : I2cSite) : I2c where
  site := site
  st := .idle
  sel := none
  rw := false
  txq := []
  rxq := []
  af := false
  ack := false
  itevten := false
  itbufen := false
  iterren := false
  dmaen := false
  last := false
  dq := []

/-! ### What the environment sees and answers -/

/-- The result of one read transaction: its width and its value, zero above the width (R141, R388). -/
structure ReadResult where
  width : Width
  value : Word
deriving DecidableEq, Repr

/-- One bus access of a DMA controller, in any window or outside (R112, R388): the instance, the address, the width, and
the value read or written, zero above the width (log entry 13). -/
inductive BusAccess where
  | read (dma : Nat) (addr : Word) (width : Width) (value : Word)
  | write (dma : Nat) (addr : Word) (width : Width) (value : Word)
deriving DecidableEq, Repr

/-- The three methods of a child (R304). -/
inductive ChildOp where
  | write (bytes : List Byte)
  | read
  | finish
deriving DecidableEq, Repr

/-- One entry of the child-call history (R304, R388). The answer is `none` for `fail`, `some` of the batch for a
`Read`, and `some []` for the `ok` of a `Write` or `FinishTransmission`. -/
structure ChildCall where
  i2c : Nat
  child : ChildAddr
  op : ChildOp
  answer : Option (List Byte)
deriving DecidableEq, Repr

/-- The system bus as the DMA sees it (R112). `answers` are reads the oracle has already fixed, next first; when there
are none, the answer is the free value `Config.busAnswer` of `draws` (log entry 4). -/
structure Bus where
  answers : List Word
  draws : Nat
  log : List BusAccess
deriving DecidableEq, Repr

/-- The child devices as the I²C controllers see them (R304), with `answers` and `draws` as in `Bus` (log entry 5). -/
structure Children where
  answers : List (Option (List Byte))
  draws : Nat
  calls : List ChildCall
deriving DecidableEq, Repr

/-- The state of the whole machine. -/
structure State where
  /-- The DMA controller instances; their number is `N_DMA` (R9, R68). -/
  dmas : List Dma
  /-- The I²C controller instances (R9, R68). -/
  i2cs : List I2c
  /-- `CASCADE_LIMIT` (R9, R382); no step writes it. -/
  cascadeLimit : Nat
  /-- The operations the environment has yet to present, next first (the model's own; log entry 1). -/
  ops : List Operation
  /-- The results of the bus master's reads, oldest first (R388). -/
  results : List ReadResult
  bus : Bus
  child : Children
deriving DecidableEq, Repr

/-- The power-on state (R442): every instance reset (R50, R66), nothing observed, nothing presented. The construction
parameters are the opaque constants of Config (log entry 3). -/
def State.reset : State where
  dmas := Dma.reset (Config.dmaSite 0) ::
    (List.range Config.moreDmas).map (fun k => Dma.reset (Config.dmaSite (k + 1)))
  i2cs := I2c.reset (Config.i2cSite 0) ::
    (List.range Config.moreI2cs).map (fun j => I2c.reset (Config.i2cSite (j + 1)))
  cascadeLimit := Config.cascadeLimitPred + 1
  ops := []
  results := []
  bus := ⟨[], 0, []⟩
  child := ⟨[], 0, []⟩

end Sys2Proof.Machine
end

