-- ==== Sys2Proof/Machine/Operands.lean ====
section
/-! DEFINITION. Operand forms: transaction widths and alignment (R103, R104), byte lanes (R102, R105, R106), item sizes
(R37), directions (R38), window addresses (R101, R380) and the item addresses of a transfer (R262). -/

namespace Sys2Proof.Machine

/-- Bytes of a transaction or item (R103, R37). -/
def widthBytes : Width → Nat
  | .byte => 1
  | .half => 2
  | .word => 4

/-- The lanes of a width, before shifting: `0xFF`, `0xFFFF`, or the whole word (R106). -/
def widthMask : Width → Word
  | .byte => 0x000000FF#32
  | .half => 0x0000FFFF#32
  | .word => 0xFFFFFFFF#32

/-- The low bytes of a value that a width carries, zero-extended (R141, R108). -/
def clip (n : Width) (v : Word) : Word := v &&& widthMask n

/-- A 32-bit access needs `offset mod 4 = 0`, a 16-bit access `offset mod 2 = 0` (R104). -/
def aligned (n : Width) (o : Offset) : Bool := o.toNat % widthBytes n == 0

/-- The offset of the 32-bit register that holds a byte: `o' = o − (o mod 4)` (R105). -/
def registerOffset (o : Offset) : Offset := o &&& 0x3FC#10

/-- How far the lane of an access is shifted: `8k` with `k = o mod 4` (R102). -/
def laneShift (o : Offset) : Nat := 8 * (o.toNat % 4)

/-- What a narrow read returns of the 32-bit value `r`: bits `[8k + 8n − 1 : 8k]` (R105, R107). -/
def readLane (n : Width) (o : Offset) (r : Word) : Word := clip n (r >>> laneShift o)

/-- What a narrow DMA write writes: the value in its lane, the other lanes of `r` kept (R106). -/
def mergeLane (n : Width) (o : Offset) (r v : Word) : Word :=
  (r &&& ~~~(widthMask n <<< laneShift o)) ||| (clip n v <<< laneShift o)

/-- The item size of a PSIZE or MSIZE code; code 3 is used as 1 byte (R37). -/
def itemWidth (code : BitVec 2) : Width :=
  if code = 1#2 then .half else if code = 2#2 then .word else .byte

/-- A single bit of a register value (R10). -/
def bitAt (b : Bool) (p : Nat) : Word := if b then 1#32 <<< p else 0#32

/-- The positions `P` of the four streams in a status or clear register (R40). -/
def finPosition (x : StreamId) : Nat :=
  match x.val % 4 with
  | 0 => 5
  | 1 => 11
  | 2 => 21
  | _ => 27

/-- The base address of a window from its page number (R380). -/
def baseOf (page : BitVec 22) : Word := page ++ 0#10

/-- `B ≤ A < B + 0x400`, as naturals (R101). -/
def inWindow (page : BitVec 22) (a : Word) : Bool :=
  decide ((baseOf page).toNat ≤ a.toNat) && decide (a.toNat < (baseOf page).toNat + 0x400)

/-- `A − B` as an offset of the window (R101). -/
def offsetIn (page : BitVec 22) (a : Word) : Offset := (a - baseOf page).setWidth 10

/-- One side of a transfer: base register, increment flag, stride (R262). -/
structure Side where
  base : Word
  inc : Bool
  size : Width
deriving DecidableEq, Repr

/-- The peripheral side: PAR, PINC, PSIZE (R262). -/
def peripheralSide (m : Stream) : Side := ⟨m.par, m.pinc, itemWidth m.psize⟩

/-- The memory side: M0AR, MINC, MSIZE (R262). -/
def memorySide (m : Stream) : Side := ⟨m.m0ar, m.minc, itemWidth m.msize⟩

/-- The source side: the memory side for M→P, the peripheral side for P→M and M→M (R262). -/
def sourceSide (m : Stream) : Side := if m.dir = 1#2 then memorySide m else peripheralSide m

/-- The destination side: the peripheral side for M→P, the memory side for P→M and M→M (R262). -/
def destSide (m : Stream) : Side := if m.dir = 1#2 then peripheralSide m else memorySide m

/-- `base + (inc ? n · size : 0)` modulo 2^32 (R262, R113). -/
def sideAddr (q : Side) (n : Nat) : Word :=
  if q.inc then q.base + BitVec.ofNat 32 (n * widthBytes q.size) else q.base

/-- `done = LATCH − NDT` on naturals (R262, R113; log entry 10). -/
def itemsDone (m : Stream) : Nat := m.latch.toNat - m.ndt.toNat

/-- `src(i)` (R262). -/
def srcAddr (m : Stream) (i : Nat) : Word := sideAddr (sourceSide m) (itemsDone m + i)

/-- `dst(i)` (R262). -/
def dstAddr (m : Stream) (i : Nat) : Word := sideAddr (destSide m) (itemsDone m + i)

/-- The width of an item copy: `psz` on both sides (R266). -/
def copyWidth (m : Stream) : Width := itemWidth m.psize

end Sys2Proof.Machine
end

