-- ==== Sys2Proof/Machine/Flags.lean ====
section
/-! DEFINITION. Flags, lines and register values that are functions of the state: the DMA status registers (R40, R41),
SxCR (R44), the I²C flags (R301), lines (R302) and registers (R61–R65), and the levels at the interrupt controller
(R387). -/

namespace Sys2Proof.Machine

/-! ### DMA -/

/-- `reg(LISR) = OR_{k=0..3} (FIN[k] << P[k])` (R40, R200). -/
def Dma.lisrValue (d : Dma) : Word :=
  bitAt d.fin[0] 5 ||| bitAt d.fin[1] 11 ||| bitAt d.fin[2] 21 ||| bitAt d.fin[3] 27

/-- `reg(HISR) = OR_{k=0..3} (FIN[4+k] << P[k])` (R41, R201). -/
def Dma.hisrValue (d : Dma) : Word :=
  bitAt d.fin[4] 5 ||| bitAt d.fin[5] 11 ||| bitAt d.fin[6] 21 ||| bitAt d.fin[7] 27

/-- `reg(SxCR) = zext_32(MSIZE ‖ PSIZE ‖ MINC ‖ PINC ‖ CIRC ‖ DIR ‖ 0 ‖ TCIE ‖ 000 ‖ EN)` (R44, R220). -/
def Stream.crValue (m : Stream) : Word :=
  0#17 ++ m.msize ++ m.psize ++ BitVec.ofBool m.minc ++ BitVec.ofBool m.pinc ++ BitVec.ofBool m.circ ++ m.dir ++
    0#1 ++ BitVec.ofBool m.tcie ++ 0#3 ++ BitVec.ofBool m.en

/-! ### I²C flags (R301) -/

/-- `Sr`: `ST ∈ {AwaitingSr1Read, AwaitingSr2Read}`. -/
def I2c.inSr (c : I2c) : Bool := c.st == .awaitingSr1Read || c.st == .awaitingSr2Read

/-- `SB = (ST = AwaitingAddress)`. -/
def I2c.sb (c : I2c) : Bool := c.st == .awaitingAddress

/-- `ADDR = Sr`. -/
def I2c.addr (c : I2c) : Bool := c.inSr

/-- `RxNE = (ST = ReceivingData) ∧ (RXQ ≠ [])`. -/
def I2c.rxne (c : I2c) : Bool := c.st == .receivingData && !c.rxq.isEmpty

/-- `TxE = ((ST = AwaitingData) ∧ (TXQ = [])) ∨ ((RW = 0) ∧ Sr)`. -/
def I2c.txe (c : I2c) : Bool := (c.st == .awaitingData && c.txq.isEmpty) || (!c.rw && c.inSr)

/-- `BTF = (ST ∈ {AwaitingData, ReceivingData}) ∧ (RW = 1 ? RxNE : TxE)`. -/
def I2c.btf (c : I2c) : Bool :=
  (c.st == .awaitingData || c.st == .receivingData) && (if c.rw then c.rxne else c.txe)

/-- `MSL = (ST ≠ Idle)`. -/
def I2c.msl (c : I2c) : Bool := c.st != .idle

/-- `BUSY = (ST ≠ Idle)`. -/
def I2c.busy (c : I2c) : Bool := c.st != .idle

/-- `TRA = (RW = 0) ∧ (ST ∈ {AwaitingSr1Read, AwaitingSr2Read, AwaitingData})`. -/
def I2c.tra (c : I2c) : Bool := !c.rw && (c.inSr || c.st == .awaitingData)

/-! ### I²C lines (R302) -/

/-- `EV_IRQ = ITEVTEN ∧ (SB ∨ ADDR ∨ BTF ∨ (ITBUFEN ∧ (TxE ∨ RxNE)))`. -/
def I2c.evIrq (c : I2c) : Bool :=
  c.itevten && (c.sb || c.addr || c.btf || (c.itbufen && (c.txe || c.rxne)))

/-- `ER_IRQ = ITERREN ∧ AF`. -/
def I2c.erIrq (c : I2c) : Bool := c.iterren && c.af

/-- `DMA_RX = DMAEN ∧ RxNE ∧ (ST = ReceivingData)`. -/
def I2c.dmaRx (c : I2c) : Bool := c.dmaen && c.rxne && c.st == .receivingData

/-- `DMA_TX = DMAEN ∧ TxE ∧ (ST = AwaitingData)`. -/
def I2c.dmaTx (c : I2c) : Bool := c.dmaen && c.txe && c.st == .awaitingData

/-! ### I²C register values (R61–R65) -/

/-- `reg(CR1) = zext_32(ACK << 10)` (R61, R340). -/
def I2c.cr1Value (c : I2c) : Word := bitAt c.ack 10

/-- `reg(CR2)` (R62, R342). -/
def I2c.cr2Value (c : I2c) : Word :=
  bitAt c.last 12 ||| bitAt c.dmaen 11 ||| bitAt c.itbufen 10 ||| bitAt c.itevten 9 ||| bitAt c.iterren 8

/-- `reg(SR1)` (R64, R346). -/
def I2c.sr1Value (c : I2c) : Word :=
  bitAt c.af 10 ||| bitAt c.txe 7 ||| bitAt c.rxne 6 ||| bitAt c.btf 2 ||| bitAt c.addr 1 ||| bitAt c.sb 0

/-- `reg(SR2)` (R65, R348). -/
def I2c.sr2Value (c : I2c) : Word := bitAt c.tra 2 ||| bitAt c.busy 1 ||| bitAt c.msl 0

/-! ### Outputs (R387) -/

/-- The interrupt-controller input and the level of every IRQ output of a DMA controller (R387, R404). -/
def Dma.interruptInputs (d : Dma) : List (Nat × Bool) := d.site.irqInput.toList.zip d.irq.toList

/-- The interrupt-controller input and the level of `EV_IRQ` and `ER_IRQ` (R387, R404). -/
def I2c.interruptInputs (c : I2c) : List (Nat × Bool) := [(c.site.evInput, c.evIrq), (c.site.erInput, c.erIrq)]

/-- Every interrupt output of the machine, as the interrupt controller sees it (R387). -/
def State.interruptInputs (s : State) : List (Nat × Bool) :=
  (s.dmas.map Dma.interruptInputs).flatten ++ (s.i2cs.map I2c.interruptInputs).flatten

end Sys2Proof.Machine
end

