-- ==== Sys2Proof/Machine/Ops.lean ====
section
/-! DEFINITION. The named operations that the meanings share: updates of an instance, child calls (R304), the I²C actions
(R306–R317), register accesses (R105–R109, R340–R351), routing of DMA accesses (R380), the transfer engine
(R260–R267), the cascade of line events (R382), and the frames of an operation.
Taking an exception is not among them: neither block has one (R400, R406, R407). -/

namespace Sys2Proof.Machine

/-- A pending request-line event: DMA instance, stream, new level (R382). -/
structure ReqEvent where
  dma : Nat
  stream : StreamId
  level : Bool
deriving DecidableEq, Repr

/-- A composite step under way: the state so far, and the worklist `W` of line events not yet delivered (R382). -/
structure Work where
  st : State
  pending : List ReqEvent
deriving DecidableEq, Repr

/-! ### Updates -/

/-- Changes DMA instance `k`. -/
def State.modDma (k : Nat) (f : Dma → Dma) (s : State) : State := { s with dmas := s.dmas.modify k f }

/-- Changes I²C instance `j`. -/
def State.modI2c (j : Nat) (f : I2c → I2c) (s : State) : State := { s with i2cs := s.i2cs.modify j f }

/-- Records the result of a read transaction (R388). -/
def State.addResult (n : Width) (v : Word) (s : State) : State := { s with results := s.results ++ [⟨n, v⟩] }

/-- Changes DMA instance `k` of a step under way. -/
def Work.modDma (k : Nat) (f : Dma → Dma) (w : Work) : Work := { w with st := w.st.modDma k f }

/-- Changes stream `x`. -/
def Dma.modStream (x : StreamId) (f : Stream → Stream) (d : Dma) : Dma :=
  { d with streams := d.streams.set x (f d.streams[x]) }

/-! ### Child calls (R304) -/

/-- The next answer of the child oracle: a fixed one if there is one, else a free value (log entry 5). -/
def Children.draw (e : Children) : Option (List Byte) × Children :=
  match e.answers with
  | a :: rest => (a, { e with answers := rest })
  | [] => (Config.childAnswer e.draws, { e with draws := e.draws + 1 })

/-- What the history records of an answer: a batch only for `Read` (R304). -/
def answerOf (op : ChildOp) (a : Option (List Byte)) : Option (List Byte) :=
  match op with
  | .read => a
  | .write _ => a.map fun _ => []
  | .finish => a.map fun _ => []

/-- One call of child `a` of I²C instance `j`, recorded in the history (R304). -/
def childCall (j : Nat) (a : ChildAddr) (op : ChildOp) (e : Children) : Option (List Byte) × Children :=
  (answerOf op e.draw.1, { e.draw.2 with calls := e.draw.2.calls ++ [⟨j, a, op, answerOf op e.draw.1⟩] })

/-! ### I²C actions (R306–R317). Each takes the controller and the children, and gives them back. -/

/-- Abort (R316). -/
def I2c.abort (c : I2c) : I2c := { c with st := .idle, af := true, txq := [], rxq := [], sel := none }

/-- `ChildWrite(c, TXQ)` with its outcome: a failure aborts, success empties `TXQ` (R315, R317). -/
def deliverTx (j : Nat) (a : ChildAddr) (c : I2c) (e : Children) : Bool × I2c × Children :=
  match (childCall j a (.write c.txq) e).1 with
  | some _ => (true, { c with txq := [] }, (childCall j a (.write c.txq) e).2)
  | none => (false, c.abort, (childCall j a (.write c.txq) e).2)

/-- `ChildFinish(c)` with its outcome: a failure aborts (R317). -/
def deliverFinish (j : Nat) (a : ChildAddr) (c : I2c) (e : Children) : Bool × I2c × Children :=
  match (childCall j a .finish e).1 with
  | some _ => (true, c, (childCall j a .finish e).2)
  | none => (false, c.abort, (childCall j a .finish e).2)

/-- EndTransaction (R317): bytes still in `TXQ` go to the child, then `FinishTransmission`; `true` is `ok`, `false`
is `aborted`. With no child selected, which no run reaches, there is nothing to end (log entry 11). -/
def endTransaction (j : Nat) (c : I2c) (e : Children) : Bool × I2c × Children :=
  match c.sel with
  | none => (true, c, e)
  | some a =>
    if c.txq = [] then deliverFinish j a c e
    else
      match deliverTx j a c e with
      | (true, c', e') => deliverFinish j a c' e'
      | (false, c', e') => (false, c', e')

/-- The repeated START: commit, then a new address phase; after a failed commit the START is not performed (R306). -/
def repeatedStart (j : Nat) (c : I2c) (e : Children) : I2c × Children :=
  match endTransaction j c e with
  | (true, c', e') => ({ c' with rxq := [], sel := none, st := .awaitingAddress }, e')
  | (false, c', e') => (c', e')

/-- StartCondition (R306). -/
def startCondition (j : Nat) (c : I2c) (e : Children) : I2c × Children :=
  match c.st with
  | .idle => ({ c with st := .awaitingAddress }, e)
  | .awaitingAddress => (c, e)
  | .awaitingSr1Read => repeatedStart j c e
  | .awaitingSr2Read => repeatedStart j c e
  | .awaitingData => repeatedStart j c e
  | .receivingData => repeatedStart j c e

/-- The state that STOP leaves (R307). -/
def I2c.stopped (c : I2c) : I2c := { c with st := .idle, txq := [], rxq := [], sel := none }

/-- StopCondition (R307). -/
def stopCondition (j : Nat) (c : I2c) (e : Children) : I2c × Children :=
  match c.sel with
  | none => (c.stopped, e)
  | some _ =>
    match endTransaction j c e with
    | (true, c', e') => (c'.stopped, e')
    | (false, c', e') => (c', e')

/-- SoftReset: every field but `DQ_I2C` takes its reset value; no child is called (R308). -/
def I2c.softReset (c : I2c) : I2c := { I2c.reset c.site with dq := c.dq }

/-- The CR1 actions in ascending bit order: START, STOP, SWRST (R341, R14). -/
def cr1Actions (j : Nat) (v : Word) (c : I2c) (e : Children) : I2c × Children :=
  let p := if v.getLsbD 8 then startCondition j c e else (c, e)
  let q := if v.getLsbD 9 then stopCondition j p.1 p.2 else p
  if v.getLsbD 15 then (q.1.softReset, q.2) else q

/-- The write of CR2: five control bits (R343). -/
def I2c.writeCr2 (v : Word) (c : I2c) : I2c :=
  { c with
    iterren := v.getLsbD 8
    itevten := v.getLsbD 9
    itbufen := v.getLsbD 10
    dmaen := v.getLsbD 11
    last := v.getLsbD 12 }

/-- AddressWrite: `byte = (addr << 1) | RW` (R309, R147). -/
def I2c.addressWrite (v : Word) (c : I2c) : I2c :=
  if v.extractLsb' 1 7 ∈ c.site.children then
    { c with rw := v.getLsbD 0, sel := some (v.extractLsb' 1 7), st := .awaitingSr1Read }
  else { c with rw := v.getLsbD 0, st := .idle, af := true, sel := none }

/-- DataWrite: one byte is queued and a flush is deferred (R312). -/
def I2c.dataWrite (v : Word) (c : I2c) : I2c :=
  { c with txq := c.txq ++ [v.setWidth 8], dq := c.dq ++ [.flush] }

/-- The write of DR, by state; in the four other states it is dropped (R345, D63). -/
def I2c.writeDr (v : Word) (c : I2c) : I2c :=
  match c.st with
  | .awaitingAddress => c.addressWrite v
  | .awaitingData => c.dataWrite v
  | .idle => c
  | .awaitingSr1Read => c
  | .awaitingSr2Read => c
  | .receivingData => c

/-- The write of SR1: W0C on AF (R347). -/
def I2c.writeSr1 (v : Word) (c : I2c) : I2c := if v.getLsbD 10 then c else { c with af := false }

/-- DataRead: one byte is dequeued, or 0 is read; when the queue has drained, a pull is deferred (R313). -/
def I2c.dataRead (c : I2c) : Word × I2c :=
  match c.rxq with
  | [] => (0, { c with dq := c.dq ++ [.pull] })
  | [b] => (b.setWidth 32, { c with rxq := [], dq := c.dq ++ [.pull] })
  | b :: b' :: rest => (b.setWidth 32, { c with rxq := b' :: rest })

/-- The read of DR: 0 outside `ReceivingData` (R344). -/
def I2c.readDr (c : I2c) : Word × I2c := if c.st = .receivingData then c.dataRead else (0, c)

/-- Sr1ReadStep (R310). -/
def I2c.sr1ReadStep (c : I2c) : I2c := if c.st = .awaitingSr1Read then { c with st := .awaitingSr2Read } else c

/-- The read of SR1: the value first, then AF is cleared and the machine stepped (R346, D46). -/
def I2c.readSr1 (c : I2c) : Word × I2c := (c.sr1Value, I2c.sr1ReadStep { c with af := false })

/-- Sr2ReadStep (R311). -/
def I2c.sr2ReadStep (c : I2c) : I2c :=
  if c.st = .awaitingSr2Read then
    if c.rw then { c with st := .receivingData, dq := c.dq ++ [.pull] } else { c with st := .awaitingData }
  else c

/-- The read of SR2: the value first, then the machine is stepped (R348, D46). -/
def I2c.readSr2 (c : I2c) : Word × I2c := (c.sr2Value, c.sr2ReadStep)

/-- A 32-bit read of an I²C register with its side effects (R340, R342, R344, R346, R348, R350). -/
def I2c.readReg (r : I2cReg) (c : I2c) : Word × I2c :=
  match r with
  | .cr1 => (c.cr1Value, c)
  | .cr2 => (c.cr2Value, c)
  | .dr => c.readDr
  | .sr1 => c.readSr1
  | .sr2 => c.readSr2
  | .unmapped => (0, c)

/-- A 32-bit write of an I²C register with its actions (R341, R343, R345, R347, R349, R351). -/
def i2cWriteReg (j : Nat) (r : I2cReg) (v : Word) (c : I2c) (e : Children) : I2c × Children :=
  match r with
  | .cr1 => cr1Actions j v { c with ack := v.getLsbD 10 } e
  | .cr2 => (c.writeCr2 v, e)
  | .dr => (c.writeDr v, e)
  | .sr1 => (c.writeSr1 v, e)
  | .sr2 => (c, e)
  | .unmapped => (c, e)

/-- An aligned read of the I²C window at any width: the full read, then the projection (R107). -/
def I2c.readAt (n : Width) (o : Offset) (c : I2c) : Word × I2c :=
  (readLane n o (c.readReg (I2cReg.ofOffset (registerOffset o))).1, (c.readReg (I2cReg.ofOffset (registerOffset o))).2)

/-- An aligned write of the I²C window at any width: at a word offset a 32-bit write of the zero-extended value
(R108), elsewhere ignored (R109). -/
def i2cWriteAt (j : Nat) (n : Width) (o : Offset) (v : Word) (c : I2c) (e : Children) : I2c × Children :=
  if o.toNat % 4 = 0 then i2cWriteReg j (I2cReg.ofOffset o) (clip n v) c e else (c, e)

/-- Pull (R314). -/
def pullAction (j : Nat) (c : I2c) (e : Children) : I2c × Children :=
  match c.st, c.sel with
  | .receivingData, some a =>
    match (childCall j a .read e).1 with
    | some bytes => ({ c with rxq := c.rxq ++ bytes }, (childCall j a .read e).2)
    | none => (c.abort, (childCall j a .read e).2)
  | _, _ => (c, e)

/-- Flush (R315). -/
def flushAction (j : Nat) (c : I2c) (e : Children) : I2c × Children :=
  match c.txq, c.sel with
  | _ :: _, some a => (deliverTx j a c e).2
  | _, _ => (c, e)

/-- I2C_SYNC: the head of `DQ_I2C` is performed (R352). -/
def i2cSyncAction (j : Nat) (c : I2c) (e : Children) : I2c × Children :=
  match c.dq with
  | [] => (c, e)
  | .pull :: rest => pullAction j { c with dq := rest } e
  | .flush :: rest => flushAction j { c with dq := rest } e

/-! ### Line events (R382, R383) -/

/-- The event of one line that went from `old` to `new`, if it changed and is wired (R382, R383). -/
def lineEvent (wire : Option (Nat × StreamId)) (old new : Bool) : List ReqEvent :=
  if old = new then []
  else
    match wire with
    | some (k, x) => [⟨k, x, new⟩]
    | none => []

/-- The events of one I²C action: `DMA_TX` before `DMA_RX` (R382, R405). -/
def lineEvents (c c' : I2c) : List ReqEvent :=
  lineEvent c.site.txReq c.dmaTx c'.dmaTx ++ lineEvent c.site.rxReq c.dmaRx c'.dmaRx

/-- An I²C action of instance `j` that turned `c` into `c'` and the children into `e'`: both are stored, and the line
changes join the worklist (R382). -/
def Work.commitI2c (j : Nat) (c c' : I2c) (e' : Children) (w : Work) : Work where
  st := { w.st with i2cs := w.st.i2cs.set j c', child := e' }
  pending := w.pending ++ lineEvents c c'

/-- Whether a request input is driven by an I²C line (R383). -/
def State.wired (s : State) (k : Nat) (x : StreamId) : Bool :=
  s.i2cs.any fun c => c.site.txReq == some (k, x) || c.site.rxReq == some (k, x)

/-! ### The DMA's bus accesses (R112, R380) -/

/-- Where an access of the DMA goes (R380). -/
inductive Route where
  | i2c (j : Nat) (c : I2c)
  | dmaWindow
  | straddle
  | bus
deriving DecidableEq, Repr

/-- The first I²C instance, counting from `j`, whose window holds the address. -/
def findI2c (a : Word) : Nat → List I2c → Option (Nat × I2c)
  | _, [] => none
  | j, c :: rest => if inWindow c.site.page a then some (j, c) else findI2c a (j + 1) rest

/-- Whether the address lies in a window of any DMA instance (R384). -/
def State.inDmaWindow (s : State) (a : Word) : Bool := s.dmas.any fun d => inWindow d.site.page a

/-- Whether the address lies in any window. -/
def State.inSomeWindow (s : State) (a : Word) : Bool :=
  (s.i2cs.any fun c => inWindow c.site.page a) || s.inDmaWindow a

/-- `A mod n ≠ 0` and a later byte of the access lies in a window (R380); byte addresses wrap (R10, log entry 8). -/
def State.straddles (s : State) (a : Word) (n : Width) : Bool :=
  a.toNat % widthBytes n != 0 &&
    (List.range (widthBytes n)).any fun i => s.inSomeWindow (a + BitVec.ofNat 32 i)

/-- Routing of a DMA access by its address (R380). -/
def State.route (s : State) (a : Word) (n : Width) : Route :=
  match findI2c a 0 s.i2cs with
  | some (j, c) => .i2c j c
  | none =>
    if s.inDmaWindow a then .dmaWindow
    else if s.straddles a n then .straddle
    else .bus

/-- The next answer of the system-bus oracle (R112; log entry 4). -/
def Bus.draw (b : Bus) : Word × Bus :=
  match b.answers with
  | v :: rest => (v, { b with answers := rest })
  | [] => (Config.busAnswer b.draws, { b with draws := b.draws + 1 })

/-- Records an access of a DMA controller (R388). -/
def Work.logBus (x : BusAccess) (w : Work) : Work :=
  { w with st := { w.st with bus := { w.st.bus with log := w.st.bus.log ++ [x] } } }

/-- `MemRead(A, n)` of DMA instance `k` (R112, R380, R384, R385). -/
def memRead (k : Nat) (a : Word) (n : Width) (w : Work) : Except Refusal (Word × Work) :=
  match w.st.route a n with
  | .i2c j c =>
    if aligned n (offsetIn c.site.page a) then
      .ok ((c.readAt n (offsetIn c.site.page a)).1,
        (w.logBus (.read k a n (c.readAt n (offsetIn c.site.page a)).1)).commitI2c j c
          (c.readAt n (offsetIn c.site.page a)).2 w.st.child)
    else .error .misalignedAccess
  | .dmaWindow => .error .dmaSelfAccess
  | .straddle => .error .misalignedAccess
  | .bus =>
    .ok (clip n w.st.bus.draw.1,
      Work.logBus (.read k a n (clip n w.st.bus.draw.1)) { w with st := { w.st with bus := w.st.bus.draw.2 } })

/-- `MemWrite(A, n, v)` of DMA instance `k` (R112, R380, R384, R385). -/
def memWrite (k : Nat) (a : Word) (n : Width) (v : Word) (w : Work) : Except Refusal Work :=
  match w.st.route a n with
  | .i2c j c =>
    if aligned n (offsetIn c.site.page a) then
      .ok ((w.logBus (.write k a n v)).commitI2c j c
        (i2cWriteAt j n (offsetIn c.site.page a) v c w.st.child).1
        (i2cWriteAt j n (offsetIn c.site.page a) v c w.st.child).2)
    else .error .misalignedAccess
  | .dmaWindow => .error .dmaSelfAccess
  | .straddle => .error .misalignedAccess
  | .bus => .ok (w.logBus (.write k a n v))

/-- CopyItem: the read, then the write, `n` bytes each (R266). -/
def copyItem (k : Nat) (a b : Word) (n : Width) (w : Work) : Except Refusal Work :=
  match memRead k a n w with
  | .ok (v, w') => memWrite k b n v w'
  | .error r => .error r

/-- `count` items from item `i` on, in increasing order (R264). `m` is the stream as it stood at dispatch. -/
def copyItems (k : Nat) (m : Stream) : (count i : Nat) → Work → Except Refusal Work
  | 0, _, w => .ok w
  | count + 1, i, w =>
    match copyItem k (srcAddr m i) (dstAddr m i) (copyWidth m) w with
    | .ok w' => copyItems k m count (i + 1) w'
    | .error r => .error r

/-! ### The transfer engine (R260–R267) -/

/-- Complete: `FIN[x] <- 1`, and an `IrqSet` is deferred if `TCIE` (R267). -/
def Dma.complete (x : StreamId) (d : Dma) : Dma :=
  { d with
    fin := d.fin.set x true
    dq := if d.streams[x].tcie then d.dq ++ [x] else d.dq }

/-- The CreateRequest failure: the stream is disabled (R263). -/
def Dma.createRequestFailure (x : StreamId) (d : Dma) : Dma := d.modStream x fun m => { m with en := false }

/-- What a finished burst leaves: `NDT` reloaded, or 0 with `EN = 0`; then the completion (R264). -/
def Dma.finishBurst (x : StreamId) (d : Dma) : Dma :=
  Dma.complete x (d.modStream x fun m =>
    if m.circ then { m with ndt := m.latch } else { m with ndt := 0, en := false })

/-- What a copied item leaves: `NDT` decremented; at 0, the reload or `EN = 0`, and the completion (R265). -/
def Dma.finishItem (x : StreamId) (d : Dma) : Dma :=
  if d.streams[x].ndt - 1 ≠ 0 then d.modStream x fun m => { m with ndt := m.ndt - 1 }
  else
    Dma.complete x (d.modStream x fun m =>
      if m.circ then { m with ndt := m.latch } else { m with ndt := 0, en := false })

/-- DoMemoryTransfer: the whole burst (R264). -/
def doMemoryTransfer (k : Nat) (x : StreamId) (m : Stream) (w : Work) : Except Refusal Work :=
  if m.ndt = 0 then .ok (w.modDma k (Dma.createRequestFailure x))
  else
    match copyItems k m m.ndt.toNat 0 w with
    | .ok w' => .ok (w'.modDma k (Dma.finishBurst x))
    | .error r => .error r

/-- DoPeripheralTransfer: one item (R265). -/
def doPeripheralTransfer (k : Nat) (x : StreamId) (m : Stream) (w : Work) : Except Refusal Work :=
  if m.ndt = 0 then .ok (w.modDma k (Dma.createRequestFailure x))
  else
    match copyItem k (srcAddr m 0) (dstAddr m 0) (copyWidth m) w with
    | .ok w' => .ok (w'.modDma k (Dma.finishItem x))
    | .error r => .error r

/-- SelectTransfer of stream `x`, whose fields at dispatch are `m` (R261, R270). -/
def selectTransfer (k : Nat) (x : StreamId) (m : Stream) (w : Work) : Except Refusal Work :=
  if m.dir = 3#2 then .error .reservedDirection
  else if m.dir = 2#2 then doMemoryTransfer k x m w
  else doPeripheralTransfer k x m w

/-- DMA_REQ: the latch takes the level, and a rising edge of an enabled stream dispatches (R260). -/
def dmaReq (k : Nat) (x : StreamId) (v : Bool) (w : Work) : Except Refusal Work :=
  match w.st.dmas[k]? with
  | none => .error .noSuchInstance
  | some d =>
    let w' := w.modDma k fun d => d.modStream x fun m => { m with req := v }
    if !d.streams[x].req && v && d.streams[x].en then selectTransfer k x { d.streams[x] with req := v } w'
    else .ok w'

/-- The fields that a write of SxCR stores (R221, R44). -/
def Stream.storeCr (v : Word) (m : Stream) : Stream :=
  { m with
    en := v.getLsbD 0
    tcie := v.getLsbD 4
    dir := v.extractLsb' 6 2
    circ := v.getLsbD 8
    pinc := v.getLsbD 9
    minc := v.getLsbD 10
    psize := v.extractLsb' 11 2
    msize := v.extractLsb' 13 2 }

/-- The latch of the enable edge, `LATCH <- NDT` (R222). -/
def Stream.latchNdt (m : Stream) : Stream := { m with latch := m.ndt }

/-- The write of SxCR: all fields are stored; a 0→1 edge of EN latches NDT and dispatches an M→M stream whose request is
high (R221, R222); a 1→0 edge does nothing more (R223). -/
def writeStreamCr (k : Nat) (x : StreamId) (v : Word) (w : Work) : Except Refusal Work :=
  match w.st.dmas[k]? with
  | none => .error .noSuchInstance
  | some d =>
    let m := d.streams[x].storeCr v
    if !d.streams[x].en && v.getLsbD 0 then
      let m' := m.latchNdt
      let w' := w.modDma k fun d => d.modStream x fun _ => m'
      if m'.dir = 2#2 ∧ m'.req = true then selectTransfer k x m' w' else .ok w'
    else .ok (w.modDma k fun d => d.modStream x fun _ => m)

/-! ### DMA register accesses -/

/-- The value of a stream register (R220, R224, R226, R228, R230, R232). -/
def Stream.readReg (r : StreamReg) (m : Stream) : Word :=
  match r with
  | .cr => m.crValue
  | .ndtr => m.ndt.setWidth 32
  | .par => m.par
  | .m0ar => m.m0ar
  | .m1ar => m.m1ar
  | .fcr => m.fcr

/-- A write of a stream register other than CR: NDTR, PAR, M0AR and M1AR are ignored while enabled (R225, R227, R229,
R231); FCR is always stored (R233). CR is written by `writeStreamCr`. -/
def Stream.writeReg (r : StreamReg) (v : Word) (m : Stream) : Stream :=
  match r with
  | .cr => m
  | .ndtr => if m.en then m else { m with ndt := v.setWidth 16 }
  | .par => if m.en then m else { m with par := v }
  | .m0ar => if m.en then m else { m with m0ar := v }
  | .m1ar => if m.en then m else { m with m1ar := v }
  | .fcr => { m with fcr := v }

/-- The value of a register of the DMA window; no read has a side effect (R200, R201, R204, R205, R209, R110). -/
def Dma.readReg (r : DmaReg) (d : Dma) : Word :=
  match r with
  | .lisr => d.lisrValue
  | .hisr => d.hisrValue
  | .lifcr => 0
  | .hifcr => 0
  | .stream x r => d.streams[x].readReg r
  | .unmapped => 0

/-- ClearFinished (R208). -/
def Dma.clearFinished (x : StreamId) (d : Dma) : Dma :=
  { d with fin := d.fin.set x false, irq := d.irq.set x false }

/-- ClearFinished of a stream whose position in the written word is 1 (R202, R203). -/
def Dma.clearIf (v : Word) (x : StreamId) (d : Dma) : Dma :=
  if v.getLsbD (finPosition x) then d.clearFinished x else d

/-- The write of LIFCR: streams 0 to 3 in increasing order (R202). -/
def Dma.writeLifcr (v : Word) (d : Dma) : Dma :=
  (((d.clearIf v 0).clearIf v 1).clearIf v 2).clearIf v 3

/-- The write of HIFCR: streams 4 to 7 in increasing order (R203). -/
def Dma.writeHifcr (v : Word) (d : Dma) : Dma :=
  (((d.clearIf v 4).clearIf v 5).clearIf v 6).clearIf v 7

/-- A 32-bit write of a register of the DMA window (R202, R203, R206, R207, R210, R221–R233). -/
def dmaWriteReg (k : Nat) (r : DmaReg) (v : Word) (w : Work) : Except Refusal Work :=
  match r with
  | .lisr => .ok w
  | .hisr => .ok w
  | .lifcr => .ok (w.modDma k (Dma.writeLifcr v))
  | .hifcr => .ok (w.modDma k (Dma.writeHifcr v))
  | .stream x .cr => writeStreamCr k x v w
  | .stream x .ndtr => .ok (w.modDma k fun d => d.modStream x (Stream.writeReg .ndtr v))
  | .stream x .par => .ok (w.modDma k fun d => d.modStream x (Stream.writeReg .par v))
  | .stream x .m0ar => .ok (w.modDma k fun d => d.modStream x (Stream.writeReg .m0ar v))
  | .stream x .m1ar => .ok (w.modDma k fun d => d.modStream x (Stream.writeReg .m1ar v))
  | .stream x .fcr => .ok (w.modDma k fun d => d.modStream x (Stream.writeReg .fcr v))
  | .unmapped => .ok w

/-! ### One composite step (R382) -/

/-- The worklist loop: the head event is delivered, its own events join the tail; at most `limit` events (R382). -/
def deliver : (limit : Nat) → Work → Except Refusal State
  | _, ⟨s, []⟩ => .ok s
  | 0, ⟨_, _ :: _⟩ => .error .cascadeLimit
  | limit + 1, ⟨s, v :: rest⟩ =>
    match dmaReq v.dma v.stream v.level ⟨s, rest⟩ with
    | .ok w => deliver limit w
    | .error r => .error r

/-- The end of an operation: its line events are delivered, and the step is whole or refused (R382, R12). -/
def settle (p : Except Refusal Work) : Host.Outcome State Fault Refusal :=
  match p with
  | .error r => .refused r
  | .ok w =>
    match deliver w.st.cascadeLimit w with
    | .ok s => .next s
    | .error r => .refused r

/-- An operation on an instance of the DMA controller that the platform has (log entry 6). -/
def onDma (k : Nat) (s : State) (f : Dma → Host.Outcome State Fault Refusal) : Host.Outcome State Fault Refusal :=
  match s.dmas[k]? with
  | some d => f d
  | none => .refused .noSuchInstance

/-- An operation on an instance of the I²C controller that the platform has (log entry 6). -/
def onI2c (j : Nat) (s : State) (f : I2c → Host.Outcome State Fault Refusal) : Host.Outcome State Fault Refusal :=
  match s.i2cs[j]? with
  | some c => f c
  | none => .refused .noSuchInstance

/-- A 32-bit read transaction on the DMA window. -/
def dmaRead32 (k : Nat) (r : DmaReg) (s : State) : Host.Outcome State Fault Refusal :=
  onDma k s fun d => .next (s.addResult .word (d.readReg r))

/-- A 32-bit write transaction on the DMA window. -/
def dmaWrite32 (k : Nat) (r : DmaReg) (v : Word) (s : State) : Host.Outcome State Fault Refusal :=
  onDma k s fun _ => settle (dmaWriteReg k r v ⟨s, []⟩)

/-- A read transaction on the DMA window at any width: misaligned ones are refused (R104), narrow ones project
(R105). -/
def dmaReadAt (k : Nat) (n : Width) (o : Offset) (s : State) : Host.Outcome State Fault Refusal :=
  if aligned n o then
    onDma k s fun d => .next (s.addResult n (readLane n o (d.readReg (DmaReg.ofOffset (registerOffset o)))))
  else .refused .misalignedAccess

/-- A write transaction on the DMA window at any width: misaligned ones are refused (R104), narrow ones merge into the
register's value (R106). -/
def dmaWriteAt (k : Nat) (n : Width) (o : Offset) (v : Word) (s : State) : Host.Outcome State Fault Refusal :=
  if aligned n o then
    onDma k s fun d =>
      settle (dmaWriteReg k (DmaReg.ofOffset (registerOffset o))
        (mergeLane n o (d.readReg (DmaReg.ofOffset (registerOffset o))) v) ⟨s, []⟩)
  else .refused .misalignedAccess

/-- An I²C action at the top of a step: stored, its lines compared, its events delivered (R382). -/
def i2cStep (j : Nat) (c c' : I2c) (e' : Children) (s : State) : Host.Outcome State Fault Refusal :=
  settle (.ok (Work.commitI2c j c c' e' ⟨s, []⟩))

/-- A 32-bit read transaction on the I²C window. -/
def i2cRead32 (j : Nat) (r : I2cReg) (s : State) : Host.Outcome State Fault Refusal :=
  onI2c j s fun c => i2cStep j c (c.readReg r).2 s.child (s.addResult .word (c.readReg r).1)

/-- A 32-bit write transaction on the I²C window. -/
def i2cWrite32 (j : Nat) (r : I2cReg) (v : Word) (s : State) : Host.Outcome State Fault Refusal :=
  onI2c j s fun c => i2cStep j c (i2cWriteReg j r v c s.child).1 (i2cWriteReg j r v c s.child).2 s

/-- A read transaction on the I²C window at any width (R104, R107). -/
def i2cReadAt (j : Nat) (n : Width) (o : Offset) (s : State) : Host.Outcome State Fault Refusal :=
  if aligned n o then
    onI2c j s fun c => i2cStep j c (c.readAt n o).2 s.child (s.addResult n (c.readAt n o).1)
  else .refused .misalignedAccess

/-- A write transaction on the I²C window at any width (R104, R108, R109). -/
def i2cWriteBus (j : Nat) (n : Width) (o : Offset) (v : Word) (s : State) : Host.Outcome State Fault Refusal :=
  if aligned n o then
    onI2c j s fun c => i2cStep j c (i2cWriteAt j n o v c s.child).1 (i2cWriteAt j n o v c s.child).2 s
  else .refused .misalignedAccess

/-- A misaligned transaction is refused before any state is read (R104, R405). -/
def misaligned (_ : State) : Host.Outcome State Fault Refusal := .refused .misalignedAccess

/-- The request event of the environment: refused for a wired input (R383), else DMA_REQ (R260). -/
def dmaRequest (k : Nat) (x : StreamId) (v : Bool) (s : State) : Host.Outcome State Fault Refusal :=
  if s.wired k x then .refused .reservedDescriptor else onDma k s fun _ => settle (dmaReq k x v ⟨s, []⟩)

/-- DMA_SYNC: the head of `DQ_DMA` is performed, `IRQ[x] <- 1` (R268). -/
def Dma.sync (d : Dma) : Dma :=
  match d.dq with
  | [] => d
  | x :: rest => { d with dq := rest, irq := d.irq.set x true }

end Sys2Proof.Machine
end

