-- ==== Sys2Proof/Machine/DmaEvents.lean ====
section
/-! DEFINITION. Meanings: the request event, the sync step and the reset of the DMA controller (R260, R268, R440). -/

namespace Sys2Proof.Machine

/-- DMA_REQ (R260): the request input `x` changes to level `v`. -/
def execDmaReq (k : Nat) (x : StreamId) (v : Bool) (s : State) : Host.Outcome State Fault Refusal :=
  dmaRequest k x v s

/-- DMA_SYNC (R268): the head of `DQ_DMA` is performed. -/
def execDmaSync (k : Nat) (s : State) : Host.Outcome State Fault Refusal :=
  onDma k s fun _ => .next (s.modDma k Dma.sync)

/-- DMA_RESET (R440): every field but the construction parameters takes its reset value; no line event. -/
def execDmaReset (k : Nat) (s : State) : Host.Outcome State Fault Refusal :=
  onDma k s fun _ => .next (s.modDma k fun d => Dma.reset d.site)

end Sys2Proof.Machine
end

