-- ==== Sys2Proof/Machine/DmaInterrupt.lean ====
section
/-! DEFINITION. Meanings: the DMA interrupt status and clear registers (R200–R207) and the unmapped offsets of the DMA
window (R209, R210). -/

namespace Sys2Proof.Machine

/-- DMA_RD32_LISR (R200). -/
def execDmaRd32Lisr (k : Nat) (s : State) : Host.Outcome State Fault Refusal :=
  dmaRead32 k .lisr s

/-- DMA_WR32_LISR (R206): no state changes. -/
def execDmaWr32Lisr (k : Nat) (d : Word) (s : State) : Host.Outcome State Fault Refusal :=
  dmaWrite32 k .lisr d s

/-- DMA_RD32_HISR (R201). -/
def execDmaRd32Hisr (k : Nat) (s : State) : Host.Outcome State Fault Refusal :=
  dmaRead32 k .hisr s

/-- DMA_WR32_HISR (R207): no state changes. -/
def execDmaWr32Hisr (k : Nat) (d : Word) (s : State) : Host.Outcome State Fault Refusal :=
  dmaWrite32 k .hisr d s

/-- DMA_RD32_LIFCR (R204). -/
def execDmaRd32Lifcr (k : Nat) (s : State) : Host.Outcome State Fault Refusal :=
  dmaRead32 k .lifcr s

/-- DMA_WR32_LIFCR (R202). -/
def execDmaWr32Lifcr (k : Nat) (d : Word) (s : State) : Host.Outcome State Fault Refusal :=
  dmaWrite32 k .lifcr d s

/-- DMA_RD32_HIFCR (R205). -/
def execDmaRd32Hifcr (k : Nat) (s : State) : Host.Outcome State Fault Refusal :=
  dmaRead32 k .hifcr s

/-- DMA_WR32_HIFCR (R203). -/
def execDmaWr32Hifcr (k : Nat) (d : Word) (s : State) : Host.Outcome State Fault Refusal :=
  dmaWrite32 k .hifcr d s

/-- DMA_RD32_UNMAPPED (R209): reads 0. -/
def execDmaRd32Unmapped (k : Nat) (_o : Offset) (s : State) : Host.Outcome State Fault Refusal :=
  dmaRead32 k .unmapped s

/-- DMA_WR32_UNMAPPED (R210): no state changes. -/
def execDmaWr32Unmapped (k : Nat) (_o : Offset) (d : Word) (s : State) : Host.Outcome State Fault Refusal :=
  dmaWrite32 k .unmapped d s

end Sys2Proof.Machine
end

