-- ==== Sys2Proof/Machine/DmaNarrow.lean ====
section
/-! DEFINITION. Meanings: the 8- and 16-bit transactions on the DMA window (R105, R106) and the misaligned ones (R104). -/

namespace Sys2Proof.Machine

/-- DMA_RD8 (R105). -/
def execDmaRd8 (k : Nat) (o : Offset) (s : State) : Host.Outcome State Fault Refusal :=
  dmaReadAt k .byte o s

/-- DMA_WR8 (R106). -/
def execDmaWr8 (k : Nat) (o : Offset) (d : Word) (s : State) : Host.Outcome State Fault Refusal :=
  dmaWriteAt k .byte o d s

/-- DMA_RD16 (R105). -/
def execDmaRd16 (k : Nat) (o : Offset) (s : State) : Host.Outcome State Fault Refusal :=
  dmaReadAt k .half o s

/-- DMA_WR16 (R106). -/
def execDmaWr16 (k : Nat) (o : Offset) (d : Word) (s : State) : Host.Outcome State Fault Refusal :=
  dmaWriteAt k .half o d s

/-- DMA_RD32_MISALIGNED_ODD (R104): refused. -/
def execDmaRd32MisalignedOdd (_k : Nat) (_o : Offset) (s : State) : Host.Outcome State Fault Refusal :=
  misaligned s

/-- DMA_RD32_MISALIGNED_2 (R104): refused. -/
def execDmaRd32Misaligned2 (_k : Nat) (_o : Offset) (s : State) : Host.Outcome State Fault Refusal :=
  misaligned s

/-- DMA_RD16_MISALIGNED (R104): refused. -/
def execDmaRd16Misaligned (_k : Nat) (_o : Offset) (s : State) : Host.Outcome State Fault Refusal :=
  misaligned s

/-- DMA_WR32_MISALIGNED_ODD (R104): refused. -/
def execDmaWr32MisalignedOdd (_k : Nat) (_o : Offset) (_d : Word) (s : State) : Host.Outcome State Fault Refusal :=
  misaligned s

/-- DMA_WR32_MISALIGNED_2 (R104): refused. -/
def execDmaWr32Misaligned2 (_k : Nat) (_o : Offset) (_d : Word) (s : State) : Host.Outcome State Fault Refusal :=
  misaligned s

/-- DMA_WR16_MISALIGNED (R104): refused. -/
def execDmaWr16Misaligned (_k : Nat) (_o : Offset) (_d : Word) (s : State) : Host.Outcome State Fault Refusal :=
  misaligned s

end Sys2Proof.Machine
end

