-- ==== Sys2Proof/Machine/DmaStream.lean ====
section
/-! DEFINITION. Meanings: the DMA stream registers (R220–R233), one definition per stream and register. -/

namespace Sys2Proof.Machine

/-- DMA_RD32_S0CR (R220). -/
def execDmaRd32S0cr (k : Nat) (s : State) : Host.Outcome State Fault Refusal :=
  dmaRead32 k (.stream 0 .cr) s

/-- DMA_WR32_S0CR (R221). -/
def execDmaWr32S0cr (k : Nat) (d : Word) (s : State) : Host.Outcome State Fault Refusal :=
  dmaWrite32 k (.stream 0 .cr) d s

/-- DMA_RD32_S0NDTR (R224). -/
def execDmaRd32S0ndtr (k : Nat) (s : State) : Host.Outcome State Fault Refusal :=
  dmaRead32 k (.stream 0 .ndtr) s

/-- DMA_WR32_S0NDTR (R225). -/
def execDmaWr32S0ndtr (k : Nat) (d : Word) (s : State) : Host.Outcome State Fault Refusal :=
  dmaWrite32 k (.stream 0 .ndtr) d s

/-- DMA_RD32_S0PAR (R226). -/
def execDmaRd32S0par (k : Nat) (s : State) : Host.Outcome State Fault Refusal :=
  dmaRead32 k (.stream 0 .par) s

/-- DMA_WR32_S0PAR (R227). -/
def execDmaWr32S0par (k : Nat) (d : Word) (s : State) : Host.Outcome State Fault Refusal :=
  dmaWrite32 k (.stream 0 .par) d s

/-- DMA_RD32_S0M0AR (R228). -/
def execDmaRd32S0m0ar (k : Nat) (s : State) : Host.Outcome State Fault Refusal :=
  dmaRead32 k (.stream 0 .m0ar) s

/-- DMA_WR32_S0M0AR (R229). -/
def execDmaWr32S0m0ar (k : Nat) (d : Word) (s : State) : Host.Outcome State Fault Refusal :=
  dmaWrite32 k (.stream 0 .m0ar) d s

/-- DMA_RD32_S0M1AR (R230). -/
def execDmaRd32S0m1ar (k : Nat) (s : State) : Host.Outcome State Fault Refusal :=
  dmaRead32 k (.stream 0 .m1ar) s

/-- DMA_WR32_S0M1AR (R231). -/
def execDmaWr32S0m1ar (k : Nat) (d : Word) (s : State) : Host.Outcome State Fault Refusal :=
  dmaWrite32 k (.stream 0 .m1ar) d s

/-- DMA_RD32_S0FCR (R232). -/
def execDmaRd32S0fcr (k : Nat) (s : State) : Host.Outcome State Fault Refusal :=
  dmaRead32 k (.stream 0 .fcr) s

/-- DMA_WR32_S0FCR (R233). -/
def execDmaWr32S0fcr (k : Nat) (d : Word) (s : State) : Host.Outcome State Fault Refusal :=
  dmaWrite32 k (.stream 0 .fcr) d s

/-- DMA_RD32_S1CR (R220). -/
def execDmaRd32S1cr (k : Nat) (s : State) : Host.Outcome State Fault Refusal :=
  dmaRead32 k (.stream 1 .cr) s

/-- DMA_WR32_S1CR (R221). -/
def execDmaWr32S1cr (k : Nat) (d : Word) (s : State) : Host.Outcome State Fault Refusal :=
  dmaWrite32 k (.stream 1 .cr) d s

/-- DMA_RD32_S1NDTR (R224). -/
def execDmaRd32S1ndtr (k : Nat) (s : State) : Host.Outcome State Fault Refusal :=
  dmaRead32 k (.stream 1 .ndtr) s

/-- DMA_WR32_S1NDTR (R225). -/
def execDmaWr32S1ndtr (k : Nat) (d : Word) (s : State) : Host.Outcome State Fault Refusal :=
  dmaWrite32 k (.stream 1 .ndtr) d s

/-- DMA_RD32_S1PAR (R226). -/
def execDmaRd32S1par (k : Nat) (s : State) : Host.Outcome State Fault Refusal :=
  dmaRead32 k (.stream 1 .par) s

/-- DMA_WR32_S1PAR (R227). -/
def execDmaWr32S1par (k : Nat) (d : Word) (s : State) : Host.Outcome State Fault Refusal :=
  dmaWrite32 k (.stream 1 .par) d s

/-- DMA_RD32_S1M0AR (R228). -/
def execDmaRd32S1m0ar (k : Nat) (s : State) : Host.Outcome State Fault Refusal :=
  dmaRead32 k (.stream 1 .m0ar) s

/-- DMA_WR32_S1M0AR (R229). -/
def execDmaWr32S1m0ar (k : Nat) (d : Word) (s : State) : Host.Outcome State Fault Refusal :=
  dmaWrite32 k (.stream 1 .m0ar) d s

/-- DMA_RD32_S1M1AR (R230). -/
def execDmaRd32S1m1ar (k : Nat) (s : State) : Host.Outcome State Fault Refusal :=
  dmaRead32 k (.stream 1 .m1ar) s

/-- DMA_WR32_S1M1AR (R231). -/
def execDmaWr32S1m1ar (k : Nat) (d : Word) (s : State) : Host.Outcome State Fault Refusal :=
  dmaWrite32 k (.stream 1 .m1ar) d s

/-- DMA_RD32_S1FCR (R232). -/
def execDmaRd32S1fcr (k : Nat) (s : State) : Host.Outcome State Fault Refusal :=
  dmaRead32 k (.stream 1 .fcr) s

/-- DMA_WR32_S1FCR (R233). -/
def execDmaWr32S1fcr (k : Nat) (d : Word) (s : State) : Host.Outcome State Fault Refusal :=
  dmaWrite32 k (.stream 1 .fcr) d s

/-- DMA_RD32_S2CR (R220). -/
def execDmaRd32S2cr (k : Nat) (s : State) : Host.Outcome State Fault Refusal :=
  dmaRead32 k (.stream 2 .cr) s

/-- DMA_WR32_S2CR (R221). -/
def execDmaWr32S2cr (k : Nat) (d : Word) (s : State) : Host.Outcome State Fault Refusal :=
  dmaWrite32 k (.stream 2 .cr) d s

/-- DMA_RD32_S2NDTR (R224). -/
def execDmaRd32S2ndtr (k : Nat) (s : State) : Host.Outcome State Fault Refusal :=
  dmaRead32 k (.stream 2 .ndtr) s

/-- DMA_WR32_S2NDTR (R225). -/
def execDmaWr32S2ndtr (k : Nat) (d : Word) (s : State) : Host.Outcome State Fault Refusal :=
  dmaWrite32 k (.stream 2 .ndtr) d s

/-- DMA_RD32_S2PAR (R226). -/
def execDmaRd32S2par (k : Nat) (s : State) : Host.Outcome State Fault Refusal :=
  dmaRead32 k (.stream 2 .par) s

/-- DMA_WR32_S2PAR (R227). -/
def execDmaWr32S2par (k : Nat) (d : Word) (s : State) : Host.Outcome State Fault Refusal :=
  dmaWrite32 k (.stream 2 .par) d s

/-- DMA_RD32_S2M0AR (R228). -/
def execDmaRd32S2m0ar (k : Nat) (s : State) : Host.Outcome State Fault Refusal :=
  dmaRead32 k (.stream 2 .m0ar) s

/-- DMA_WR32_S2M0AR (R229). -/
def execDmaWr32S2m0ar (k : Nat) (d : Word) (s : State) : Host.Outcome State Fault Refusal :=
  dmaWrite32 k (.stream 2 .m0ar) d s

/-- DMA_RD32_S2M1AR (R230). -/
def execDmaRd32S2m1ar (k : Nat) (s : State) : Host.Outcome State Fault Refusal :=
  dmaRead32 k (.stream 2 .m1ar) s

/-- DMA_WR32_S2M1AR (R231). -/
def execDmaWr32S2m1ar (k : Nat) (d : Word) (s : State) : Host.Outcome State Fault Refusal :=
  dmaWrite32 k (.stream 2 .m1ar) d s

/-- DMA_RD32_S2FCR (R232). -/
def execDmaRd32S2fcr (k : Nat) (s : State) : Host.Outcome State Fault Refusal :=
  dmaRead32 k (.stream 2 .fcr) s

/-- DMA_WR32_S2FCR (R233). -/
def execDmaWr32S2fcr (k : Nat) (d : Word) (s : State) : Host.Outcome State Fault Refusal :=
  dmaWrite32 k (.stream 2 .fcr) d s

/-- DMA_RD32_S3CR (R220). -/
def execDmaRd32S3cr (k : Nat) (s : State) : Host.Outcome State Fault Refusal :=
  dmaRead32 k (.stream 3 .cr) s

/-- DMA_WR32_S3CR (R221). -/
def execDmaWr32S3cr (k : Nat) (d : Word) (s : State) : Host.Outcome State Fault Refusal :=
  dmaWrite32 k (.stream 3 .cr) d s

/-- DMA_RD32_S3NDTR (R224). -/
def execDmaRd32S3ndtr (k : Nat) (s : State) : Host.Outcome State Fault Refusal :=
  dmaRead32 k (.stream 3 .ndtr) s

/-- DMA_WR32_S3NDTR (R225). -/
def execDmaWr32S3ndtr (k : Nat) (d : Word) (s : State) : Host.Outcome State Fault Refusal :=
  dmaWrite32 k (.stream 3 .ndtr) d s

/-- DMA_RD32_S3PAR (R226). -/
def execDmaRd32S3par (k : Nat) (s : State) : Host.Outcome State Fault Refusal :=
  dmaRead32 k (.stream 3 .par) s

/-- DMA_WR32_S3PAR (R227). -/
def execDmaWr32S3par (k : Nat) (d : Word) (s : State) : Host.Outcome State Fault Refusal :=
  dmaWrite32 k (.stream 3 .par) d s

/-- DMA_RD32_S3M0AR (R228). -/
def execDmaRd32S3m0ar (k : Nat) (s : State) : Host.Outcome State Fault Refusal :=
  dmaRead32 k (.stream 3 .m0ar) s

/-- DMA_WR32_S3M0AR (R229). -/
def execDmaWr32S3m0ar (k : Nat) (d : Word) (s : State) : Host.Outcome State Fault Refusal :=
  dmaWrite32 k (.stream 3 .m0ar) d s

/-- DMA_RD32_S3M1AR (R230). -/
def execDmaRd32S3m1ar (k : Nat) (s : State) : Host.Outcome State Fault Refusal :=
  dmaRead32 k (.stream 3 .m1ar) s

/-- DMA_WR32_S3M1AR (R231). -/
def execDmaWr32S3m1ar (k : Nat) (d : Word) (s : State) : Host.Outcome State Fault Refusal :=
  dmaWrite32 k (.stream 3 .m1ar) d s

/-- DMA_RD32_S3FCR (R232). -/
def execDmaRd32S3fcr (k : Nat) (s : State) : Host.Outcome State Fault Refusal :=
  dmaRead32 k (.stream 3 .fcr) s

/-- DMA_WR32_S3FCR (R233). -/
def execDmaWr32S3fcr (k : Nat) (d : Word) (s : State) : Host.Outcome State Fault Refusal :=
  dmaWrite32 k (.stream 3 .fcr) d s

/-- DMA_RD32_S4CR (R220). -/
def execDmaRd32S4cr (k : Nat) (s : State) : Host.Outcome State Fault Refusal :=
  dmaRead32 k (.stream 4 .cr) s

/-- DMA_WR32_S4CR (R221). -/
def execDmaWr32S4cr (k : Nat) (d : Word) (s : State) : Host.Outcome State Fault Refusal :=
  dmaWrite32 k (.stream 4 .cr) d s

/-- DMA_RD32_S4NDTR (R224). -/
def execDmaRd32S4ndtr (k : Nat) (s : State) : Host.Outcome State Fault Refusal :=
  dmaRead32 k (.stream 4 .ndtr) s

/-- DMA_WR32_S4NDTR (R225). -/
def execDmaWr32S4ndtr (k : Nat) (d : Word) (s : State) : Host.Outcome State Fault Refusal :=
  dmaWrite32 k (.stream 4 .ndtr) d s

/-- DMA_RD32_S4PAR (R226). -/
def execDmaRd32S4par (k : Nat) (s : State) : Host.Outcome State Fault Refusal :=
  dmaRead32 k (.stream 4 .par) s

/-- DMA_WR32_S4PAR (R227). -/
def execDmaWr32S4par (k : Nat) (d : Word) (s : State) : Host.Outcome State Fault Refusal :=
  dmaWrite32 k (.stream 4 .par) d s

/-- DMA_RD32_S4M0AR (R228). -/
def execDmaRd32S4m0ar (k : Nat) (s : State) : Host.Outcome State Fault Refusal :=
  dmaRead32 k (.stream 4 .m0ar) s

/-- DMA_WR32_S4M0AR (R229). -/
def execDmaWr32S4m0ar (k : Nat) (d : Word) (s : State) : Host.Outcome State Fault Refusal :=
  dmaWrite32 k (.stream 4 .m0ar) d s

/-- DMA_RD32_S4M1AR (R230). -/
def execDmaRd32S4m1ar (k : Nat) (s : State) : Host.Outcome State Fault Refusal :=
  dmaRead32 k (.stream 4 .m1ar) s

/-- DMA_WR32_S4M1AR (R231). -/
def execDmaWr32S4m1ar (k : Nat) (d : Word) (s : State) : Host.Outcome State Fault Refusal :=
  dmaWrite32 k (.stream 4 .m1ar) d s

/-- DMA_RD32_S4FCR (R232). -/
def execDmaRd32S4fcr (k : Nat) (s : State) : Host.Outcome State Fault Refusal :=
  dmaRead32 k (.stream 4 .fcr) s

/-- DMA_WR32_S4FCR (R233). -/
def execDmaWr32S4fcr (k : Nat) (d : Word) (s : State) : Host.Outcome State Fault Refusal :=
  dmaWrite32 k (.stream 4 .fcr) d s

/-- DMA_RD32_S5CR (R220). -/
def execDmaRd32S5cr (k : Nat) (s : State) : Host.Outcome State Fault Refusal :=
  dmaRead32 k (.stream 5 .cr) s

/-- DMA_WR32_S5CR (R221). -/
def execDmaWr32S5cr (k : Nat) (d : Word) (s : State) : Host.Outcome State Fault Refusal :=
  dmaWrite32 k (.stream 5 .cr) d s

/-- DMA_RD32_S5NDTR (R224). -/
def execDmaRd32S5ndtr (k : Nat) (s : State) : Host.Outcome State Fault Refusal :=
  dmaRead32 k (.stream 5 .ndtr) s

/-- DMA_WR32_S5NDTR (R225). -/
def execDmaWr32S5ndtr (k : Nat) (d : Word) (s : State) : Host.Outcome State Fault Refusal :=
  dmaWrite32 k (.stream 5 .ndtr) d s

/-- DMA_RD32_S5PAR (R226). -/
def execDmaRd32S5par (k : Nat) (s : State) : Host.Outcome State Fault Refusal :=
  dmaRead32 k (.stream 5 .par) s

/-- DMA_WR32_S5PAR (R227). -/
def execDmaWr32S5par (k : Nat) (d : Word) (s : State) : Host.Outcome State Fault Refusal :=
  dmaWrite32 k (.stream 5 .par) d s

/-- DMA_RD32_S5M0AR (R228). -/
def execDmaRd32S5m0ar (k : Nat) (s : State) : Host.Outcome State Fault Refusal :=
  dmaRead32 k (.stream 5 .m0ar) s

/-- DMA_WR32_S5M0AR (R229). -/
def execDmaWr32S5m0ar (k : Nat) (d : Word) (s : State) : Host.Outcome State Fault Refusal :=
  dmaWrite32 k (.stream 5 .m0ar) d s

/-- DMA_RD32_S5M1AR (R230). -/
def execDmaRd32S5m1ar (k : Nat) (s : State) : Host.Outcome State Fault Refusal :=
  dmaRead32 k (.stream 5 .m1ar) s

/-- DMA_WR32_S5M1AR (R231). -/
def execDmaWr32S5m1ar (k : Nat) (d : Word) (s : State) : Host.Outcome State Fault Refusal :=
  dmaWrite32 k (.stream 5 .m1ar) d s

/-- DMA_RD32_S5FCR (R232). -/
def execDmaRd32S5fcr (k : Nat) (s : State) : Host.Outcome State Fault Refusal :=
  dmaRead32 k (.stream 5 .fcr) s

/-- DMA_WR32_S5FCR (R233). -/
def execDmaWr32S5fcr (k : Nat) (d : Word) (s : State) : Host.Outcome State Fault Refusal :=
  dmaWrite32 k (.stream 5 .fcr) d s

/-- DMA_RD32_S6CR (R220). -/
def execDmaRd32S6cr (k : Nat) (s : State) : Host.Outcome State Fault Refusal :=
  dmaRead32 k (.stream 6 .cr) s

/-- DMA_WR32_S6CR (R221). -/
def execDmaWr32S6cr (k : Nat) (d : Word) (s : State) : Host.Outcome State Fault Refusal :=
  dmaWrite32 k (.stream 6 .cr) d s

/-- DMA_RD32_S6NDTR (R224). -/
def execDmaRd32S6ndtr (k : Nat) (s : State) : Host.Outcome State Fault Refusal :=
  dmaRead32 k (.stream 6 .ndtr) s

/-- DMA_WR32_S6NDTR (R225). -/
def execDmaWr32S6ndtr (k : Nat) (d : Word) (s : State) : Host.Outcome State Fault Refusal :=
  dmaWrite32 k (.stream 6 .ndtr) d s

/-- DMA_RD32_S6PAR (R226). -/
def execDmaRd32S6par (k : Nat) (s : State) : Host.Outcome State Fault Refusal :=
  dmaRead32 k (.stream 6 .par) s

/-- DMA_WR32_S6PAR (R227). -/
def execDmaWr32S6par (k : Nat) (d : Word) (s : State) : Host.Outcome State Fault Refusal :=
  dmaWrite32 k (.stream 6 .par) d s

/-- DMA_RD32_S6M0AR (R228). -/
def execDmaRd32S6m0ar (k : Nat) (s : State) : Host.Outcome State Fault Refusal :=
  dmaRead32 k (.stream 6 .m0ar) s

/-- DMA_WR32_S6M0AR (R229). -/
def execDmaWr32S6m0ar (k : Nat) (d : Word) (s : State) : Host.Outcome State Fault Refusal :=
  dmaWrite32 k (.stream 6 .m0ar) d s

/-- DMA_RD32_S6M1AR (R230). -/
def execDmaRd32S6m1ar (k : Nat) (s : State) : Host.Outcome State Fault Refusal :=
  dmaRead32 k (.stream 6 .m1ar) s

/-- DMA_WR32_S6M1AR (R231). -/
def execDmaWr32S6m1ar (k : Nat) (d : Word) (s : State) : Host.Outcome State Fault Refusal :=
  dmaWrite32 k (.stream 6 .m1ar) d s

/-- DMA_RD32_S6FCR (R232). -/
def execDmaRd32S6fcr (k : Nat) (s : State) : Host.Outcome State Fault Refusal :=
  dmaRead32 k (.stream 6 .fcr) s

/-- DMA_WR32_S6FCR (R233). -/
def execDmaWr32S6fcr (k : Nat) (d : Word) (s : State) : Host.Outcome State Fault Refusal :=
  dmaWrite32 k (.stream 6 .fcr) d s

/-- DMA_RD32_S7CR (R220). -/
def execDmaRd32S7cr (k : Nat) (s : State) : Host.Outcome State Fault Refusal :=
  dmaRead32 k (.stream 7 .cr) s

/-- DMA_WR32_S7CR (R221). -/
def execDmaWr32S7cr (k : Nat) (d : Word) (s : State) : Host.Outcome State Fault Refusal :=
  dmaWrite32 k (.stream 7 .cr) d s

/-- DMA_RD32_S7NDTR (R224). -/
def execDmaRd32S7ndtr (k : Nat) (s : State) : Host.Outcome State Fault Refusal :=
  dmaRead32 k (.stream 7 .ndtr) s

/-- DMA_WR32_S7NDTR (R225). -/
def execDmaWr32S7ndtr (k : Nat) (d : Word) (s : State) : Host.Outcome State Fault Refusal :=
  dmaWrite32 k (.stream 7 .ndtr) d s

/-- DMA_RD32_S7PAR (R226). -/
def execDmaRd32S7par (k : Nat) (s : State) : Host.Outcome State Fault Refusal :=
  dmaRead32 k (.stream 7 .par) s

/-- DMA_WR32_S7PAR (R227). -/
def execDmaWr32S7par (k : Nat) (d : Word) (s : State) : Host.Outcome State Fault Refusal :=
  dmaWrite32 k (.stream 7 .par) d s

/-- DMA_RD32_S7M0AR (R228). -/
def execDmaRd32S7m0ar (k : Nat) (s : State) : Host.Outcome State Fault Refusal :=
  dmaRead32 k (.stream 7 .m0ar) s

/-- DMA_WR32_S7M0AR (R229). -/
def execDmaWr32S7m0ar (k : Nat) (d : Word) (s : State) : Host.Outcome State Fault Refusal :=
  dmaWrite32 k (.stream 7 .m0ar) d s

/-- DMA_RD32_S7M1AR (R230). -/
def execDmaRd32S7m1ar (k : Nat) (s : State) : Host.Outcome State Fault Refusal :=
  dmaRead32 k (.stream 7 .m1ar) s

/-- DMA_WR32_S7M1AR (R231). -/
def execDmaWr32S7m1ar (k : Nat) (d : Word) (s : State) : Host.Outcome State Fault Refusal :=
  dmaWrite32 k (.stream 7 .m1ar) d s

/-- DMA_RD32_S7FCR (R232). -/
def execDmaRd32S7fcr (k : Nat) (s : State) : Host.Outcome State Fault Refusal :=
  dmaRead32 k (.stream 7 .fcr) s

/-- DMA_WR32_S7FCR (R233). -/
def execDmaWr32S7fcr (k : Nat) (d : Word) (s : State) : Host.Outcome State Fault Refusal :=
  dmaWrite32 k (.stream 7 .fcr) d s

end Sys2Proof.Machine
end

