-- ==== Sys2Proof/Machine/I2cEvents.lean ====
section
/-! DEFINITION. Meanings: the sync step and the reset of the I²C controller (R352, R441). -/

namespace Sys2Proof.Machine

/-- I2C_SYNC (R352): the head of `DQ_I2C` is performed. -/
def execI2cSync (j : Nat) (s : State) : Host.Outcome State Fault Refusal :=
  onI2c j s fun c => i2cStep j c (i2cSyncAction j c s.child).1 (i2cSyncAction j c s.child).2 s

/-- I2C_RESET (R441): every field but the construction parameters takes its reset value; the lines fall. -/
def execI2cReset (j : Nat) (s : State) : Host.Outcome State Fault Refusal :=
  onI2c j s fun c => i2cStep j c (I2c.reset c.site) s.child s

end Sys2Proof.Machine
end

