-- ==== Sys2Proof/Machine/I2cNarrow.lean ====
section
/-! DEFINITION. Meanings: the 8- and 16-bit transactions on the I²C window (R107–R109) and the misaligned ones (R104). -/

namespace Sys2Proof.Machine

/-- I2C_RD8 (R107). -/
def execI2cRd8 (j : Nat) (o : Offset) (s : State) : Host.Outcome State Fault Refusal :=
  i2cReadAt j .byte o s

/-- I2C_RD16 (R107). -/
def execI2cRd16 (j : Nat) (o : Offset) (s : State) : Host.Outcome State Fault Refusal :=
  i2cReadAt j .half o s

/-- I2C_WR8_ALIGNED (R108). -/
def execI2cWr8Aligned (j : Nat) (o : Offset) (d : Word) (s : State) : Host.Outcome State Fault Refusal :=
  i2cWriteBus j .byte o d s

/-- I2C_WR8_UNALIGNED (R109): ignored. -/
def execI2cWr8Unaligned (j : Nat) (o : Offset) (d : Word) (s : State) : Host.Outcome State Fault Refusal :=
  i2cWriteBus j .byte o d s

/-- I2C_WR16_ALIGNED (R108). -/
def execI2cWr16Aligned (j : Nat) (o : Offset) (d : Word) (s : State) : Host.Outcome State Fault Refusal :=
  i2cWriteBus j .half o d s

/-- I2C_WR16_UNALIGNED (R109): ignored. -/
def execI2cWr16Unaligned (j : Nat) (o : Offset) (d : Word) (s : State) : Host.Outcome State Fault Refusal :=
  i2cWriteBus j .half o d s

/-- I2C_RD32_MISALIGNED_ODD (R104): refused. -/
def execI2cRd32MisalignedOdd (_j : Nat) (_o : Offset) (s : State) : Host.Outcome State Fault Refusal :=
  misaligned s

/-- I2C_RD32_MISALIGNED_2 (R104): refused. -/
def execI2cRd32Misaligned2 (_j : Nat) (_o : Offset) (s : State) : Host.Outcome State Fault Refusal :=
  misaligned s

/-- I2C_RD16_MISALIGNED (R104): refused. -/
def execI2cRd16Misaligned (_j : Nat) (_o : Offset) (s : State) : Host.Outcome State Fault Refusal :=
  misaligned s

/-- I2C_WR32_MISALIGNED_ODD (R104): refused. -/
def execI2cWr32MisalignedOdd (_j : Nat) (_o : Offset) (_d : Word) (s : State) : Host.Outcome State Fault Refusal :=
  misaligned s

/-- I2C_WR32_MISALIGNED_2 (R104): refused. -/
def execI2cWr32Misaligned2 (_j : Nat) (_o : Offset) (_d : Word) (s : State) : Host.Outcome State Fault Refusal :=
  misaligned s

/-- I2C_WR16_MISALIGNED (R104): refused. -/
def execI2cWr16Misaligned (_j : Nat) (_o : Offset) (_d : Word) (s : State) : Host.Outcome State Fault Refusal :=
  misaligned s

end Sys2Proof.Machine
end

