-- ==== Sys2Proof/Machine/I2cRegisters.lean ====
section
/-! DEFINITION. Meanings: the I²C registers (R340–R349) and the unmapped offsets of the I²C window (R350, R351). -/

namespace Sys2Proof.Machine

/-- I2C_RD32_CR1 (R340). -/
def execI2cRd32Cr1 (j : Nat) (s : State) : Host.Outcome State Fault Refusal :=
  i2cRead32 j .cr1 s

/-- I2C_WR32_CR1 (R341). -/
def execI2cWr32Cr1 (j : Nat) (d : Word) (s : State) : Host.Outcome State Fault Refusal :=
  i2cWrite32 j .cr1 d s

/-- I2C_RD32_CR2 (R342). -/
def execI2cRd32Cr2 (j : Nat) (s : State) : Host.Outcome State Fault Refusal :=
  i2cRead32 j .cr2 s

/-- I2C_WR32_CR2 (R343). -/
def execI2cWr32Cr2 (j : Nat) (d : Word) (s : State) : Host.Outcome State Fault Refusal :=
  i2cWrite32 j .cr2 d s

/-- I2C_RD32_DR (R344). -/
def execI2cRd32Dr (j : Nat) (s : State) : Host.Outcome State Fault Refusal :=
  i2cRead32 j .dr s

/-- I2C_WR32_DR (R345). -/
def execI2cWr32Dr (j : Nat) (d : Word) (s : State) : Host.Outcome State Fault Refusal :=
  i2cWrite32 j .dr d s

/-- I2C_RD32_SR1 (R346). -/
def execI2cRd32Sr1 (j : Nat) (s : State) : Host.Outcome State Fault Refusal :=
  i2cRead32 j .sr1 s

/-- I2C_WR32_SR1 (R347). -/
def execI2cWr32Sr1 (j : Nat) (d : Word) (s : State) : Host.Outcome State Fault Refusal :=
  i2cWrite32 j .sr1 d s

/-- I2C_RD32_SR2 (R348). -/
def execI2cRd32Sr2 (j : Nat) (s : State) : Host.Outcome State Fault Refusal :=
  i2cRead32 j .sr2 s

/-- I2C_WR32_SR2 (R349): no state changes. -/
def execI2cWr32Sr2 (j : Nat) (d : Word) (s : State) : Host.Outcome State Fault Refusal :=
  i2cWrite32 j .sr2 d s

/-- I2C_RD32_UNMAPPED (R350): reads 0. -/
def execI2cRd32Unmapped (j : Nat) (_o : Offset) (s : State) : Host.Outcome State Fault Refusal :=
  i2cRead32 j .unmapped s

/-- I2C_WR32_UNMAPPED (R351): no state changes. -/
def execI2cWr32Unmapped (j : Nat) (_o : Offset) (d : Word) (s : State) : Host.Outcome State Fault Refusal :=
  i2cWrite32 j .unmapped d s

end Sys2Proof.Machine
end

