-- ==== Sys2Proof/Machine/Dispatch.lean ====
section
/-! DEFINITION. One arm per operation: each row of spec/opcode_table.json runs its own meaning. -/

namespace Sys2Proof.Machine

def exec (i : Instr) (s : State) : Host.Outcome State Fault Refusal :=
  match i with
  -- DMA interrupt status and clear registers (R200–R207)
  | .dmaRd32Lisr k => Sys2Proof.Machine.execDmaRd32Lisr k s
  | .dmaWr32Lisr k d => Sys2Proof.Machine.execDmaWr32Lisr k d s
  | .dmaRd32Hisr k => Sys2Proof.Machine.execDmaRd32Hisr k s
  | .dmaWr32Hisr k d => Sys2Proof.Machine.execDmaWr32Hisr k d s
  | .dmaRd32Lifcr k => Sys2Proof.Machine.execDmaRd32Lifcr k s
  | .dmaWr32Lifcr k d => Sys2Proof.Machine.execDmaWr32Lifcr k d s
  | .dmaRd32Hifcr k => Sys2Proof.Machine.execDmaRd32Hifcr k s
  | .dmaWr32Hifcr k d => Sys2Proof.Machine.execDmaWr32Hifcr k d s
  -- DMA stream registers (R220–R233)
  | .dmaRd32S0cr k => Sys2Proof.Machine.execDmaRd32S0cr k s
  | .dmaWr32S0cr k d => Sys2Proof.Machine.execDmaWr32S0cr k d s
  | .dmaRd32S0ndtr k => Sys2Proof.Machine.execDmaRd32S0ndtr k s
  | .dmaWr32S0ndtr k d => Sys2Proof.Machine.execDmaWr32S0ndtr k d s
  | .dmaRd32S0par k => Sys2Proof.Machine.execDmaRd32S0par k s
  | .dmaWr32S0par k d => Sys2Proof.Machine.execDmaWr32S0par k d s
  | .dmaRd32S0m0ar k => Sys2Proof.Machine.execDmaRd32S0m0ar k s
  | .dmaWr32S0m0ar k d => Sys2Proof.Machine.execDmaWr32S0m0ar k d s
  | .dmaRd32S0m1ar k => Sys2Proof.Machine.execDmaRd32S0m1ar k s
  | .dmaWr32S0m1ar k d => Sys2Proof.Machine.execDmaWr32S0m1ar k d s
  | .dmaRd32S0fcr k => Sys2Proof.Machine.execDmaRd32S0fcr k s
  | .dmaWr32S0fcr k d => Sys2Proof.Machine.execDmaWr32S0fcr k d s
  | .dmaRd32S1cr k => Sys2Proof.Machine.execDmaRd32S1cr k s
  | .dmaWr32S1cr k d => Sys2Proof.Machine.execDmaWr32S1cr k d s
  | .dmaRd32S1ndtr k => Sys2Proof.Machine.execDmaRd32S1ndtr k s
  | .dmaWr32S1ndtr k d => Sys2Proof.Machine.execDmaWr32S1ndtr k d s
  | .dmaRd32S1par k => Sys2Proof.Machine.execDmaRd32S1par k s
  | .dmaWr32S1par k d => Sys2Proof.Machine.execDmaWr32S1par k d s
  | .dmaRd32S1m0ar k => Sys2Proof.Machine.execDmaRd32S1m0ar k s
  | .dmaWr32S1m0ar k d => Sys2Proof.Machine.execDmaWr32S1m0ar k d s
  | .dmaRd32S1m1ar k => Sys2Proof.Machine.execDmaRd32S1m1ar k s
  | .dmaWr32S1m1ar k d => Sys2Proof.Machine.execDmaWr32S1m1ar k d s
  | .dmaRd32S1fcr k => Sys2Proof.Machine.execDmaRd32S1fcr k s
  | .dmaWr32S1fcr k d => Sys2Proof.Machine.execDmaWr32S1fcr k d s
  | .dmaRd32S2cr k => Sys2Proof.Machine.execDmaRd32S2cr k s
  | .dmaWr32S2cr k d => Sys2Proof.Machine.execDmaWr32S2cr k d s
  | .dmaRd32S2ndtr k => Sys2Proof.Machine.execDmaRd32S2ndtr k s
  | .dmaWr32S2ndtr k d => Sys2Proof.Machine.execDmaWr32S2ndtr k d s
  | .dmaRd32S2par k => Sys2Proof.Machine.execDmaRd32S2par k s
  | .dmaWr32S2par k d => Sys2Proof.Machine.execDmaWr32S2par k d s
  | .dmaRd32S2m0ar k => Sys2Proof.Machine.execDmaRd32S2m0ar k s
  | .dmaWr32S2m0ar k d => Sys2Proof.Machine.execDmaWr32S2m0ar k d s
  | .dmaRd32S2m1ar k => Sys2Proof.Machine.execDmaRd32S2m1ar k s
  | .dmaWr32S2m1ar k d => Sys2Proof.Machine.execDmaWr32S2m1ar k d s
  | .dmaRd32S2fcr k => Sys2Proof.Machine.execDmaRd32S2fcr k s
  | .dmaWr32S2fcr k d => Sys2Proof.Machine.execDmaWr32S2fcr k d s
  | .dmaRd32S3cr k => Sys2Proof.Machine.execDmaRd32S3cr k s
  | .dmaWr32S3cr k d => Sys2Proof.Machine.execDmaWr32S3cr k d s
  | .dmaRd32S3ndtr k => Sys2Proof.Machine.execDmaRd32S3ndtr k s
  | .dmaWr32S3ndtr k d => Sys2Proof.Machine.execDmaWr32S3ndtr k d s
  | .dmaRd32S3par k => Sys2Proof.Machine.execDmaRd32S3par k s
  | .dmaWr32S3par k d => Sys2Proof.Machine.execDmaWr32S3par k d s
  | .dmaRd32S3m0ar k => Sys2Proof.Machine.execDmaRd32S3m0ar k s
  | .dmaWr32S3m0ar k d => Sys2Proof.Machine.execDmaWr32S3m0ar k d s
  | .dmaRd32S3m1ar k => Sys2Proof.Machine.execDmaRd32S3m1ar k s
  | .dmaWr32S3m1ar k d => Sys2Proof.Machine.execDmaWr32S3m1ar k d s
  | .dmaRd32S3fcr k => Sys2Proof.Machine.execDmaRd32S3fcr k s
  | .dmaWr32S3fcr k d => Sys2Proof.Machine.execDmaWr32S3fcr k d s
  | .dmaRd32S4cr k => Sys2Proof.Machine.execDmaRd32S4cr k s
  | .dmaWr32S4cr k d => Sys2Proof.Machine.execDmaWr32S4cr k d s
  | .dmaRd32S4ndtr k => Sys2Proof.Machine.execDmaRd32S4ndtr k s
  | .dmaWr32S4ndtr k d => Sys2Proof.Machine.execDmaWr32S4ndtr k d s
  | .dmaRd32S4par k => Sys2Proof.Machine.execDmaRd32S4par k s
  | .dmaWr32S4par k d => Sys2Proof.Machine.execDmaWr32S4par k d s
  | .dmaRd32S4m0ar k => Sys2Proof.Machine.execDmaRd32S4m0ar k s
  | .dmaWr32S4m0ar k d => Sys2Proof.Machine.execDmaWr32S4m0ar k d s
  | .dmaRd32S4m1ar k => Sys2Proof.Machine.execDmaRd32S4m1ar k s
  | .dmaWr32S4m1ar k d => Sys2Proof.Machine.execDmaWr32S4m1ar k d s
  | .dmaRd32S4fcr k => Sys2Proof.Machine.execDmaRd32S4fcr k s
  | .dmaWr32S4fcr k d => Sys2Proof.Machine.execDmaWr32S4fcr k d s
  | .dmaRd32S5cr k => Sys2Proof.Machine.execDmaRd32S5cr k s
  | .dmaWr32S5cr k d => Sys2Proof.Machine.execDmaWr32S5cr k d s
  | .dmaRd32S5ndtr k => Sys2Proof.Machine.execDmaRd32S5ndtr k s
  | .dmaWr32S5ndtr k d => Sys2Proof.Machine.execDmaWr32S5ndtr k d s
  | .dmaRd32S5par k => Sys2Proof.Machine.execDmaRd32S5par k s
  | .dmaWr32S5par k d => Sys2Proof.Machine.execDmaWr32S5par k d s
  | .dmaRd32S5m0ar k => Sys2Proof.Machine.execDmaRd32S5m0ar k s
  | .dmaWr32S5m0ar k d => Sys2Proof.Machine.execDmaWr32S5m0ar k d s
  | .dmaRd32S5m1ar k => Sys2Proof.Machine.execDmaRd32S5m1ar k s
  | .dmaWr32S5m1ar k d => Sys2Proof.Machine.execDmaWr32S5m1ar k d s
  | .dmaRd32S5fcr k => Sys2Proof.Machine.execDmaRd32S5fcr k s
  | .dmaWr32S5fcr k d => Sys2Proof.Machine.execDmaWr32S5fcr k d s
  | .dmaRd32S6cr k => Sys2Proof.Machine.execDmaRd32S6cr k s
  | .dmaWr32S6cr k d => Sys2Proof.Machine.execDmaWr32S6cr k d s
  | .dmaRd32S6ndtr k => Sys2Proof.Machine.execDmaRd32S6ndtr k s
  | .dmaWr32S6ndtr k d => Sys2Proof.Machine.execDmaWr32S6ndtr k d s
  | .dmaRd32S6par k => Sys2Proof.Machine.execDmaRd32S6par k s
  | .dmaWr32S6par k d => Sys2Proof.Machine.execDmaWr32S6par k d s
  | .dmaRd32S6m0ar k => Sys2Proof.Machine.execDmaRd32S6m0ar k s
  | .dmaWr32S6m0ar k d => Sys2Proof.Machine.execDmaWr32S6m0ar k d s
  | .dmaRd32S6m1ar k => Sys2Proof.Machine.execDmaRd32S6m1ar k s
  | .dmaWr32S6m1ar k d => Sys2Proof.Machine.execDmaWr32S6m1ar k d s
  | .dmaRd32S6fcr k => Sys2Proof.Machine.execDmaRd32S6fcr k s
  | .dmaWr32S6fcr k d => Sys2Proof.Machine.execDmaWr32S6fcr k d s
  | .dmaRd32S7cr k => Sys2Proof.Machine.execDmaRd32S7cr k s
  | .dmaWr32S7cr k d => Sys2Proof.Machine.execDmaWr32S7cr k d s
  | .dmaRd32S7ndtr k => Sys2Proof.Machine.execDmaRd32S7ndtr k s
  | .dmaWr32S7ndtr k d => Sys2Proof.Machine.execDmaWr32S7ndtr k d s
  | .dmaRd32S7par k => Sys2Proof.Machine.execDmaRd32S7par k s
  | .dmaWr32S7par k d => Sys2Proof.Machine.execDmaWr32S7par k d s
  | .dmaRd32S7m0ar k => Sys2Proof.Machine.execDmaRd32S7m0ar k s
  | .dmaWr32S7m0ar k d => Sys2Proof.Machine.execDmaWr32S7m0ar k d s
  | .dmaRd32S7m1ar k => Sys2Proof.Machine.execDmaRd32S7m1ar k s
  | .dmaWr32S7m1ar k d => Sys2Proof.Machine.execDmaWr32S7m1ar k d s
  | .dmaRd32S7fcr k => Sys2Proof.Machine.execDmaRd32S7fcr k s
  | .dmaWr32S7fcr k d => Sys2Proof.Machine.execDmaWr32S7fcr k d s
  -- DMA unmapped offsets (R209, R210)
  | .dmaRd32Unmapped k o => Sys2Proof.Machine.execDmaRd32Unmapped k o s
  | .dmaWr32Unmapped k o d => Sys2Proof.Machine.execDmaWr32Unmapped k o d s
  -- DMA narrow transactions (R105, R106)
  | .dmaRd8 k o => Sys2Proof.Machine.execDmaRd8 k o s
  | .dmaWr8 k o d => Sys2Proof.Machine.execDmaWr8 k o d s
  | .dmaRd16 k o => Sys2Proof.Machine.execDmaRd16 k o s
  | .dmaWr16 k o d => Sys2Proof.Machine.execDmaWr16 k o d s
  -- DMA misaligned transactions (R104)
  | .dmaRd32MisalignedOdd k o => Sys2Proof.Machine.execDmaRd32MisalignedOdd k o s
  | .dmaRd32Misaligned2 k o => Sys2Proof.Machine.execDmaRd32Misaligned2 k o s
  | .dmaRd16Misaligned k o => Sys2Proof.Machine.execDmaRd16Misaligned k o s
  | .dmaWr32MisalignedOdd k o d => Sys2Proof.Machine.execDmaWr32MisalignedOdd k o d s
  | .dmaWr32Misaligned2 k o d => Sys2Proof.Machine.execDmaWr32Misaligned2 k o d s
  | .dmaWr16Misaligned k o d => Sys2Proof.Machine.execDmaWr16Misaligned k o d s
  -- DMA events (R260, R268, R440)
  | .dmaReq k x v => Sys2Proof.Machine.execDmaReq k x v s
  | .dmaSync k => Sys2Proof.Machine.execDmaSync k s
  | .dmaReset k => Sys2Proof.Machine.execDmaReset k s
  -- I²C registers (R340–R349)
  | .i2cRd32Cr1 j => Sys2Proof.Machine.execI2cRd32Cr1 j s
  | .i2cWr32Cr1 j d => Sys2Proof.Machine.execI2cWr32Cr1 j d s
  | .i2cRd32Cr2 j => Sys2Proof.Machine.execI2cRd32Cr2 j s
  | .i2cWr32Cr2 j d => Sys2Proof.Machine.execI2cWr32Cr2 j d s
  | .i2cRd32Dr j => Sys2Proof.Machine.execI2cRd32Dr j s
  | .i2cWr32Dr j d => Sys2Proof.Machine.execI2cWr32Dr j d s
  | .i2cRd32Sr1 j => Sys2Proof.Machine.execI2cRd32Sr1 j s
  | .i2cWr32Sr1 j d => Sys2Proof.Machine.execI2cWr32Sr1 j d s
  | .i2cRd32Sr2 j => Sys2Proof.Machine.execI2cRd32Sr2 j s
  | .i2cWr32Sr2 j d => Sys2Proof.Machine.execI2cWr32Sr2 j d s
  -- I²C unmapped offsets (R350, R351)
  | .i2cRd32Unmapped j o => Sys2Proof.Machine.execI2cRd32Unmapped j o s
  | .i2cWr32Unmapped j o d => Sys2Proof.Machine.execI2cWr32Unmapped j o d s
  -- I²C narrow transactions (R107–R109)
  | .i2cRd8 j o => Sys2Proof.Machine.execI2cRd8 j o s
  | .i2cRd16 j o => Sys2Proof.Machine.execI2cRd16 j o s
  | .i2cWr8Aligned j o d => Sys2Proof.Machine.execI2cWr8Aligned j o d s
  | .i2cWr8Unaligned j o d => Sys2Proof.Machine.execI2cWr8Unaligned j o d s
  | .i2cWr16Aligned j o d => Sys2Proof.Machine.execI2cWr16Aligned j o d s
  | .i2cWr16Unaligned j o d => Sys2Proof.Machine.execI2cWr16Unaligned j o d s
  -- I²C misaligned transactions (R104)
  | .i2cRd32MisalignedOdd j o => Sys2Proof.Machine.execI2cRd32MisalignedOdd j o s
  | .i2cRd32Misaligned2 j o => Sys2Proof.Machine.execI2cRd32Misaligned2 j o s
  | .i2cRd16Misaligned j o => Sys2Proof.Machine.execI2cRd16Misaligned j o s
  | .i2cWr32MisalignedOdd j o d => Sys2Proof.Machine.execI2cWr32MisalignedOdd j o d s
  | .i2cWr32Misaligned2 j o d => Sys2Proof.Machine.execI2cWr32Misaligned2 j o d s
  | .i2cWr16Misaligned j o d => Sys2Proof.Machine.execI2cWr16Misaligned j o d s
  -- I²C events (R352, R441)
  | .i2cSync j => Sys2Proof.Machine.execI2cSync j s
  | .i2cReset j => Sys2Proof.Machine.execI2cReset j s

end Sys2Proof.Machine
end

