-- ==== Sys2Proof/Machine/Step.lean ====
section
/-! DEFINITION. One step of the machine: the next presented operation is decoded and performed (R7, R111, R142). -/

namespace Sys2Proof.Machine

/-- One step: the operation at the head of `ops` is taken from it, decoded and performed as one atomic composite step
(R111, R382); a reserved descriptor is refused (R142). With no operation presented nothing happens: a block takes no
step of its own (R7, R8; log entry 1). -/
def step (s : State) : Host.Outcome State Fault Refusal :=
  match s.ops with
  | [] => .next s
  | p :: rest =>
    match decode p with
    | .ok i => exec i { s with ops := rest }
    | .error .reservedDescriptor => .refused .reservedDescriptor

/-- Presents an operation as the next one (R8, R140). -/
def State.present (s : State) (p : Operation) : State := { s with ops := p :: s.ops }

/-- `s` with the operation whose bits are `w` presented next to instance 0 (R140, R141; log entry 1). -/
def State.withFetchWord (s : State) (nbits w : Nat) : State := s.present (tableOperation nbits w)

end Sys2Proof.Machine
end

