-- ==== Sys2Proof/Machine/BusMaster.lean ====
section
/-! DEFINITION. What the environment does with the operations: a bus master's access by address (R381), runs of presented
operations (R389), and the pseudo-operations of R151. -/

namespace Sys2Proof.Machine

/-- The descriptor of a register transaction: BLK, SZ, W and OFF in their places (R140). -/
def transactionDescriptor (b : Block) (n : Width) (write : Bool) (o : Offset) : Word :=
  0#17 ++ (match b with | .dma => 0#2 | .i2c => 1#2) ++ (match n with | .byte => 0#2 | .half => 1#2 | .word => 2#2) ++
    BitVec.ofBool write ++ o

/-- The first DMA instance, counting from `k`, whose window holds the address. -/
def findDma (a : Word) : Nat → List Dma → Option (Nat × Dma)
  | _, [] => none
  | k, d :: rest => if inWindow d.site.page a then some (k, d) else findDma a (k + 1) rest

/-- A bus-master transaction on address `a` as an operation: `OFF = A − base` in the window that holds `a`; none
outside every window, where it is no step of these blocks (R381, R140). -/
def State.busMasterOperation (s : State) (n : Width) (write : Bool) (a v : Word) : Option Operation :=
  match findI2c a 0 s.i2cs with
  | some (j, c) => some ⟨j, transactionDescriptor .i2c n write (offsetIn c.site.page a), v⟩
  | none =>
    match findDma a 0 s.dmas with
    | some (k, d) => some ⟨k, transactionDescriptor .dma n write (offsetIn d.site.page a), v⟩
    | none => none

/-- The operations in order, each one step, stopping at the first refusal (R389, R12). -/
def runOps : List Operation → State → Host.Outcome State Fault Refusal
  | [], s => .next s
  | p :: rest, s =>
    match step (s.present p) with
    | .next s' => runOps rest s'
    | .fault r => .fault r
    | .refused r => .refused r

/-- `pulse DMA.REQ[x]`: a request to 1, then to 0 (R151). -/
def pulse (k : Nat) (x : StreamId) : List Operation := [encode (.dmaReq k x true), encode (.dmaReq k x false)]

/-- `setbits` and `clrbits` (R151): a 32-bit read, then a 32-bit write of `f` of the value read; two operations. -/
def readModifyWrite (rd : Operation) (wr : Word → Operation) (f : Word → Word) (s : State) :
    Host.Outcome State Fault Refusal :=
  match step (s.present rd) with
  | .next s' =>
    match s'.results.getLast? with
    | some r => step (s'.present (wr (f r.value)))
    | none => .next s'
  | .fault r => .fault r
  | .refused r => .refused r

/-- `setbits <reg>, m` (R151). -/
def setbits (rd : Operation) (wr : Word → Operation) (m : Word) : State → Host.Outcome State Fault Refusal :=
  readModifyWrite rd wr fun r => r ||| m

/-- `clrbits <reg>, m` (R151). -/
def clrbits (rd : Operation) (wr : Word → Operation) (m : Word) : State → Host.Outcome State Fault Refusal :=
  readModifyWrite rd wr fun r => r &&& ~~~m

/-- `drain DMA`: `sync` until `DQ_DMA` is empty, at most `fuel` times (R151). DESIGN CHOICE (log entry 18): the bound, and
that with no DMA instance `k` there is no queue to empty and the state is answered unchanged; unsafe for that case. -/
def drainDma (k : Nat) : (fuel : Nat) → State → Host.Outcome State Fault Refusal
  | 0, s => .next s
  | fuel + 1, s =>
    match s.dmas[k]?.map Dma.dq with
    | some (_ :: _) =>
      match step (s.present (encode (.dmaSync k))) with
      | .next s' => drainDma k fuel s'
      | .fault r => .fault r
      | .refused r => .refused r
    | _ => .next s

/-- `drain I2C`: `sync` until `DQ_I2C` is empty, at most `fuel` times; a line event of a sync may defer more (R151). DESIGN
CHOICE (log entry 18): the bound, and that with no I²C instance `j` there is no queue to empty and the state is answered
unchanged; unsafe for that case. -/
def drainI2c (j : Nat) : (fuel : Nat) → State → Host.Outcome State Fault Refusal
  | 0, s => .next s
  | fuel + 1, s =>
    match s.i2cs[j]?.map I2c.dq with
    | some (_ :: _) =>
      match step (s.present (encode (.i2cSync j))) with
      | .next s' => drainI2c j fuel s'
      | .fault r => .fault r
      | .refused r => .refused r
    | _ => .next s

end Sys2Proof.Machine
end

