-- ==== Sys2Proof/Safety.lean ====
section
/-! DEFINITION. The terms in which claims speak of runs: quiescence (R389), the platform's assumptions (R101, R380, R383),
what no step may change (R443), how the observations grow (R388), and the invariants that the rules state of every
reachable state (R52, R113, R305). -/

namespace Sys2Proof.Machine

/-- Both deferred queues of every instance are empty (R389). -/
def State.quiescent (s : State) : Bool := s.dmas.all (fun d => d.dq.isEmpty) && s.i2cs.all (fun c => c.dq.isEmpty)

/-- The pages of all windows. -/
def State.pages (s : State) : List (BitVec 22) := s.i2cs.map (fun c => c.site.page) ++ s.dmas.map (fun d => d.site.page)

/-- The wired request inputs, one entry per wired I²C line (R383). -/
def State.wires (s : State) : List (Nat × StreamId) :=
  (s.i2cs.map fun c => c.site.txReq.toList ++ c.site.rxReq.toList).flatten

/-- The platform is one that the spec admits: disjoint windows (R101, R380), at most one line per request input (R383,
D62), each wired input a stream of an instance that exists, and a positive `CASCADE_LIMIT` (R9). -/
def State.PlatformOk (s : State) : Prop :=
  s.pages.Nodup ∧ s.wires.Nodup ∧ (∀ q ∈ s.wires, q.1 < s.dmas.length) ∧ 0 < s.cascadeLimit

/-- Two states of the same machine: the construction parameters agree (R9, R305, R443). -/
def SamePlatform (s t : State) : Prop :=
  t.dmas.map Dma.site = s.dmas.map Dma.site ∧ t.i2cs.map I2c.site = s.i2cs.map I2c.site ∧
    t.cascadeLimit = s.cascadeLimit

/-- Everything observed before is observed after, in the same order (R388). -/
def HistoriesGrow (s t : State) : Prop :=
  s.results <+: t.results ∧ s.bus.log <+: t.bus.log ∧ s.child.calls <+: t.child.calls

/-- While a stream is enabled, `NDT` is never larger than `LATCH` (R113). -/
def Stream.CountOk (m : Stream) : Prop := m.en = true → m.ndt.toNat ≤ m.latch.toNat

/-- `SEL` names an attached child or none (R52, R305); a child is selected exactly past the address phase; bytes wait in
`TXQ` only in `AwaitingData` and in `RXQ` only in `ReceivingData`; the direction flag fits the data state (R300). -/
def I2c.TransactionOk (c : I2c) : Prop :=
  (∀ a, c.sel = some a → a ∈ c.site.children) ∧
  (c.sel = none ↔ c.st = .idle ∨ c.st = .awaitingAddress) ∧
  (c.txq ≠ [] → c.st = .awaitingData) ∧
  (c.rxq ≠ [] → c.st = .receivingData) ∧
  (c.st = .awaitingData → c.rw = false) ∧
  (c.st = .receivingData → c.rw = true)

/-- The invariant of the machine: every stream's count and every I²C transaction is in order. -/
def State.Inv (s : State) : Prop :=
  (∀ d ∈ s.dmas, ∀ x : StreamId, d.streams[x].CountOk) ∧ ∀ c ∈ s.i2cs, c.TransactionOk

/-! ### Terms for single steps -/

/-- What line events that start no transfer leave: each only sets the latch `REQ` of its stream (R260). -/
def State.applyRequests (evs : List ReqEvent) (s : State) : State :=
  evs.foldl (fun s v => s.modDma v.dma fun d => d.modStream v.stream fun m => { m with req := v.level }) s

/-- No line event of the list starts a transfer (each is a fall, or a rise at a disabled stream), and each goes to an
instance that exists (R260). -/
def State.QuietEvents (s : State) (evs : List ReqEvent) : Prop :=
  ∀ v ∈ evs, ∃ d, s.dmas[v.dma]? = some d ∧ (v.level = true → d.streams[v.stream].en = false)

/-- The line events of the list start no transfer, and there are no more than `CASCADE_LIMIT` (R260, R382). -/
def State.NoDispatch (s : State) (evs : List ReqEvent) : Prop := s.QuietEvents evs ∧ evs.length ≤ s.cascadeLimit

/-- An access of the DMA is refused, and why: it goes to a DMA window, straddles into a window, or is misaligned inside an
I²C window (R104, R380, R384, R385). -/
def State.RefusesAccess (s : State) (a : Word) (n : Width) (r : Refusal) : Prop :=
  (s.route a n = .dmaWindow ∧ r = .dmaSelfAccess) ∨ (s.route a n = .straddle ∧ r = .misalignedAccess) ∨
    ((∃ j c, s.route a n = .i2c j c) ∧ a.toNat % widthBytes n ≠ 0 ∧ r = .misalignedAccess)

/-- An access of the DMA that is performed: at the system bus, or as an aligned transaction of an I²C window (R380). -/
def State.AllowsAccess (s : State) (a : Word) (n : Width) : Prop := ∀ r, ¬s.RefusesAccess a n r

/-- What the commit of a transaction with child `a` and the bytes `q` leaves of the children `e`, when the next two answers
are `a₁` and `a₂`: `FinishTransmission` alone with no bytes left, else one `Write` and, if it succeeds,
`FinishTransmission` (R317). -/
def Commits (j : Nat) (a : ChildAddr) (q : List Byte) (e : Children) (a₁ a₂ : Option (List Byte)) (e' : Children) : Prop :=
  ∃ e₁ e₂ : Children, e.draw = (a₁, e₁) ∧ e₁.draw = (a₂, e₂) ∧
    (q = [] ∧ e' = { e₁ with calls := e.calls ++ [⟨j, a, .finish, a₁.map fun _ => []⟩] } ∨
      q ≠ [] ∧ a₁ = none ∧ e' = { e₁ with calls := e.calls ++ [⟨j, a, .write q, none⟩] } ∨
      q ≠ [] ∧ a₁ ≠ none ∧ e' = { e₂ with
        calls := e.calls ++ [⟨j, a, .write q, some []⟩, ⟨j, a, .finish, a₂.map fun _ => []⟩] })

/-- The state after an I²C action of instance `j` whose line events start no transfer: the controller and the children as
given, and the latches that its line events set (R303, R383). -/
def State.afterI2c (s : State) (j : Nat) (c c' : I2c) (e' : Children) : State :=
  State.applyRequests (lineEvents c c') { s with i2cs := s.i2cs.set j c', child := e' }

/-- The first `n` answers of the system bus, and the bus after them (R112). -/
def Bus.drawMany : Nat → Bus → List Word × Bus
  | 0, b => ([], b)
  | n + 1, b => (b.draw.1 :: (Bus.drawMany n b.draw.2).1, (Bus.drawMany n b.draw.2).2)

/-- The bus accesses of the items that move the values `vals`, from item 0 on: each read, then each write (R262, R266). -/
def itemLog (k : Nat) (m : Stream) (vals : List Word) : List BusAccess :=
  (vals.mapIdx fun i v =>
    [.read k (srcAddr m i) (copyWidth m) (clip (copyWidth m) v),
      .write k (dstAddr m i) (copyWidth m) (clip (copyWidth m) v)]).flatten

/-- The system bus after the items of `m` that move the next `n` answers. -/
def Bus.afterItems (k : Nat) (m : Stream) (n : Nat) (b : Bus) : Bus :=
  { (b.drawMany n).2 with log := b.log ++ itemLog k m (b.drawMany n).1 }

end Sys2Proof.Machine
end

