-- ==== Sys2Proof/Certificates/Slice0/Obligations.lean ====
section
/-! DEFINITION. The statements about the machine, for the provers. `OBLIGATIONS.json` lists them with the rules they
formalise. A state `s` is any state, reachable or not; `d` is DMA instance `k`, `c` is I²C instance `j`. -/

open Sys2Proof Sys2Proof.Machine

/-! ### Encoding and decoding -/

/-- R140–R146, R152: every well-formed operation is read back from its descriptor and data operand. -/
def Obligations.DecodeOfEncodeIsIdentity : Prop :=
  ∀ i : Instr, WellFormed i → decode (encode i) = .ok i

/-- R140–R144: what the decoder reads is well formed and encodes to the very descriptor it was read from; a write keeps its
data operand, a read or event has none. -/
def Obligations.EncodeOfDecodeIsDescriptor : Prop :=
  ∀ (p : Operation) (i : Instr), decode p = .ok i →
    WellFormed i ∧ encode i = ⟨p.inst, p.desc, if p.desc.getLsbD 10 then p.data else 0⟩

/-- R142, R143: exactly the descriptors with a bit above 14, with a reserved block, or with `SZ = 11` that are none of the
five events are rejected. -/
def Obligations.RejectedDescriptorsAreTheReserved : Prop :=
  ∀ p : Operation,
    decode p = .error .reservedDescriptor ↔
      2 ^ 15 ≤ p.desc.toNat ∨ 2 ≤ p.desc.toNat / 2 ^ 13 % 4 ∨
        p.desc.toNat / 2 ^ 11 % 4 = 3 ∧ ¬(0x1800 ≤ p.desc.toNat ∧ p.desc.toNat ≤ 0x180F) ∧
          p.desc.toNat ∉ [0x1810, 0x1820, 0x3810, 0x3820]

/-- R152: the worked encodings, each word as the rule writes it. -/
def Obligations.WorkedEncodingsDecode : Prop :=
  ∀ v : Word,
    decode ⟨0, 0x00001010, v⟩ = .ok (.dmaRd32S0cr 0) ∧
    decode ⟨0, 0x00001410, v⟩ = .ok (.dmaWr32S0cr 0 v) ∧
    decode ⟨0, 0x00001408, v⟩ = .ok (.dmaWr32Lifcr 0 v) ∧
    decode ⟨0, 0x000010CC, v⟩ = .ok (.dmaRd32S7fcr 0) ∧
    decode ⟨0, 0x00003014, v⟩ = .ok (.i2cRd32Sr1 0) ∧
    decode ⟨0, 0x00003410, v⟩ = .ok (.i2cWr32Dr 0 v) ∧
    decode ⟨0, 0x00002410, v⟩ = .ok (.i2cWr8Aligned 0 0x10 v) ∧
    decode ⟨0, 0x0000180B, v⟩ = .ok (.dmaReq 0 3 true) ∧
    decode ⟨0, 0x00001803, v⟩ = .ok (.dmaReq 0 3 false) ∧
    decode ⟨0, 0x00001810, v⟩ = .ok (.dmaSync 0) ∧
    decode ⟨0, 0x00003810, v⟩ = .ok (.i2cSync 0) ∧
    decode ⟨0, 0x00001820, v⟩ = .ok (.dmaReset 0) ∧
    decode ⟨0, 0x00003820, v⟩ = .ok (.i2cReset 0)

/-- R111, R142, R382: the next presented operation is taken off and performed on the rest of the state; a reserved
descriptor is refused; with no operation presented nothing happens (the model's choice, log entry 1). -/
def Obligations.StepRunsTheDecodedOperation : Prop :=
  (∀ (s : State) (p : Operation) (rest : List Operation), s.ops = p :: rest →
    (∀ i, decode p = .ok i → step s = exec i { s with ops := rest }) ∧
    (decode p = .error .reservedDescriptor → step s = .refused .reservedDescriptor)) ∧
  ∀ s : State, s.ops = [] → step s = .next s

/-- R381, R101, R140: a bus master's access at an address of a window is presented to that instance, with `OFF = A − base`.
The spec's windows are disjoint (D66); that of overlapping ones the first I²C window, then the first DMA window is taken is
the model's choice (log entry 7). -/
def Obligations.BusMasterAccessReachesItsWindow : Prop :=
  ∀ (s : State) (n : Width) (a v : Word),
    (∀ j c, s.i2cs[j]? = some c → (∀ j' c', s.i2cs[j']? = some c' → j' < j → inWindow c'.site.page a = false) →
      c.site.page.toNat * 0x400 ≤ a.toNat → a.toNat < c.site.page.toNat * 0x400 + 0x400 →
      ∃ o : Offset, o.toNat = a.toNat - c.site.page.toNat * 0x400 ∧
        (s.busMasterOperation n false a v).map decode = some (.ok (decodeI2cRead j n o)) ∧
        (s.busMasterOperation n true a v).map decode = some (.ok (decodeI2cWrite j n o v))) ∧
    (∀ k d, s.dmas[k]? = some d → (∀ c ∈ s.i2cs, inWindow c.site.page a = false) →
      (∀ k' d', s.dmas[k']? = some d' → k' < k → inWindow d'.site.page a = false) →
      d.site.page.toNat * 0x400 ≤ a.toNat → a.toNat < d.site.page.toNat * 0x400 + 0x400 →
      ∃ o : Offset, o.toNat = a.toNat - d.site.page.toNat * 0x400 ∧
        (s.busMasterOperation n false a v).map decode = some (.ok (decodeDmaRead k n o)) ∧
        (s.busMasterOperation n true a v).map decode = some (.ok (decodeDmaWrite k n o v)))

/-! ### DMA interrupt block -/

/-- R200, R201: LISR and HISR show the finished bits at bits 5, 11, 21 and 27 and 0 elsewhere, and nothing else changes. -/
def Obligations.StatusRegistersShowFinishedBits : Prop :=
  ∀ (s : State) (k : Nat) (d : Dma) (v : Word), s.dmas[k]? = some d →
    decode ⟨k, 0x00001000, v⟩ = .ok (.dmaRd32Lisr k) ∧
    decode ⟨k, 0x00001004, v⟩ = .ok (.dmaRd32Hisr k) ∧
    ∃ lo hi : Word,
      exec (.dmaRd32Lisr k) s = .next { s with results := s.results ++ [⟨.word, lo⟩] } ∧
      exec (.dmaRd32Hisr k) s = .next { s with results := s.results ++ [⟨.word, hi⟩] } ∧
      ∀ p, p < 32 →
        lo.getLsbD p = ((p == 5 && d.fin[0]) || (p == 11 && d.fin[1]) || (p == 21 && d.fin[2]) || (p == 27 && d.fin[3])) ∧
        hi.getLsbD p = ((p == 5 && d.fin[4]) || (p == 11 && d.fin[5]) || (p == 21 && d.fin[6]) || (p == 27 && d.fin[7]))

/-- R202, R203: a 1 at a stream's position in LIFCR or HIFCR clears its finished bit and its IRQ; every other stream, the
streams' fields and the queue of deferred IRQ sets stay. -/
def Obligations.ClearRegistersClearFinishedAndIrq : Prop :=
  ∀ (s : State) (k : Nat) (d : Dma) (v : Word), s.dmas[k]? = some d →
    decode ⟨k, 0x00001408, v⟩ = .ok (.dmaWr32Lifcr k v) ∧
    decode ⟨k, 0x0000140C, v⟩ = .ok (.dmaWr32Hifcr k v) ∧
    ∃ lo hi : Dma,
      exec (.dmaWr32Lifcr k v) s = .next { s with dmas := s.dmas.set k lo } ∧
      exec (.dmaWr32Hifcr k v) s = .next { s with dmas := s.dmas.set k hi } ∧
      lo.site = d.site ∧ lo.streams = d.streams ∧ lo.dq = d.dq ∧
      hi.site = d.site ∧ hi.streams = d.streams ∧ hi.dq = d.dq ∧
      ∀ x : StreamId,
        lo.fin[x] = (d.fin[x] && !(decide (x.val < 4) && v.getLsbD ([5, 11, 21, 27].getD x.val 0))) ∧
        lo.irq[x] = (d.irq[x] && !(decide (x.val < 4) && v.getLsbD ([5, 11, 21, 27].getD x.val 0))) ∧
        hi.fin[x] = (d.fin[x] && !(decide (4 ≤ x.val) && v.getLsbD ([5, 11, 21, 27].getD (x.val - 4) 0))) ∧
        hi.irq[x] = (d.irq[x] && !(decide (4 ≤ x.val) && v.getLsbD ([5, 11, 21, 27].getD (x.val - 4) 0)))

/-- R204–R207, R209, R210, R230, R232: the clear registers and the unmapped offsets read 0, the status registers and the
unmapped offsets ignore writes, M1AR and FCR read what they hold (spec decisions D27, D8, D56 and D26). -/
def Obligations.AuxiliaryDmaRegistersHoldOrIgnore : Prop :=
  ∀ (s : State) (k : Nat) (d : Dma) (x : StreamId) (o : Offset) (v : Word), s.dmas[k]? = some d →
    (∀ r : StreamReg, r ∈ [.m1ar, .fcr] →
      decode ⟨k, BitVec.ofNat 32 (0x1000 + 0x10 + 0x18 * x.val + r.sub), v⟩ = .ok (Instr.rdStream k x r)) ∧
    exec (Instr.rdStream k x .m1ar) s = .next { s with results := s.results ++ [⟨.word, d.streams[x].m1ar⟩] } ∧
    exec (Instr.rdStream k x .fcr) s = .next { s with results := s.results ++ [⟨.word, d.streams[x].fcr⟩] } ∧
    exec (.dmaRd32Lifcr k) s = .next { s with results := s.results ++ [⟨.word, 0⟩] } ∧
    exec (.dmaRd32Hifcr k) s = .next { s with results := s.results ++ [⟨.word, 0⟩] } ∧
    exec (.dmaRd32Unmapped k o) s = .next { s with results := s.results ++ [⟨.word, 0⟩] } ∧
    exec (.dmaWr32Lisr k v) s = .next s ∧
    exec (.dmaWr32Hisr k v) s = .next s ∧
    exec (.dmaWr32Unmapped k o v) s = .next s

/-! ### DMA stream registers -/

/-- R220, R224, R226, R228: the 32 reads of CR, NDTR, PAR and M0AR; each answers the field or, for CR, the fields at their
bits, and changes nothing else. -/
def Obligations.StreamRegistersReadTheirFields : Prop :=
  ∀ (s : State) (k : Nat) (d : Dma) (x : StreamId) (w : Word), s.dmas[k]? = some d →
    (∀ r : StreamReg, r ∈ [.cr, .ndtr, .par, .m0ar] →
      decode ⟨k, BitVec.ofNat 32 (0x1000 + 0x10 + 0x18 * x.val + r.sub), w⟩ = .ok (Instr.rdStream k x r)) ∧
    (∃ v : Word,
      exec (Instr.rdStream k x .cr) s = .next { s with results := s.results ++ [⟨.word, v⟩] } ∧
      v.getLsbD 0 = d.streams[x].en ∧ v.getLsbD 4 = d.streams[x].tcie ∧ v.extractLsb' 6 2 = d.streams[x].dir ∧
      v.getLsbD 8 = d.streams[x].circ ∧ v.getLsbD 9 = d.streams[x].pinc ∧ v.getLsbD 10 = d.streams[x].minc ∧
      v.extractLsb' 11 2 = d.streams[x].psize ∧ v.extractLsb' 13 2 = d.streams[x].msize ∧
      ∀ p, p ∈ [1, 2, 3, 5] ∨ 15 ≤ p → v.getLsbD p = false) ∧
    exec (Instr.rdStream k x .ndtr) s =
      .next { s with results := s.results ++ [⟨.word, d.streams[x].ndt.setWidth 32⟩] } ∧
    exec (Instr.rdStream k x .par) s = .next { s with results := s.results ++ [⟨.word, d.streams[x].par⟩] } ∧
    exec (Instr.rdStream k x .m0ar) s = .next { s with results := s.results ++ [⟨.word, d.streams[x].m0ar⟩] }

/-- The 40 writes of NDTR, PAR, M0AR, M1AR and FCR: the first four are ignored while the stream is enabled (spec decision
D25), FCR is stored at any time (D26); only that field of that stream changes. -/
def Obligations.StreamRegisterWritesRespectEnable : Prop :=
  ∀ (s : State) (k : Nat) (d : Dma) (x : StreamId) (v : Word) (m : Stream),
    s.dmas[k]? = some d → d.streams[x] = m →
    (∀ r : StreamReg,
      decode ⟨k, BitVec.ofNat 32 (0x1400 + 0x10 + 0x18 * x.val + r.sub), v⟩ = .ok (Instr.wrStream k x r v)) ∧
    (m.en = true → ∀ r : StreamReg, r ∈ [.ndtr, .par, .m0ar, .m1ar] →
      exec (Instr.wrStream k x r v) s = .next s) ∧
    (m.en = false →
      exec (Instr.wrStream k x .ndtr v) s = .next { s with
        dmas := s.dmas.set k { d with streams := d.streams.set x { m with ndt := v.extractLsb' 0 16 } } } ∧
      exec (Instr.wrStream k x .par v) s = .next { s with
        dmas := s.dmas.set k { d with streams := d.streams.set x { m with par := v } } } ∧
      exec (Instr.wrStream k x .m0ar v) s = .next { s with
        dmas := s.dmas.set k { d with streams := d.streams.set x { m with m0ar := v } } } ∧
      exec (Instr.wrStream k x .m1ar v) s = .next { s with
        dmas := s.dmas.set k { d with streams := d.streams.set x { m with m1ar := v } } }) ∧
    exec (Instr.wrStream k x .fcr v) s = .next { s with
      dmas := s.dmas.set k { d with streams := d.streams.set x { m with fcr := v } } }

/-- R221–R223: a write of SxCR that starts no M→M burst stores every field, latches NDT on a 0→1 edge of EN only, and
changes nothing else. Storing the other fields while enabled, and before the edge acts, are the spec's decisions D23, D24. -/
def Obligations.CrWriteStoresFieldsAndLatchesAtEdge : Prop :=
  ∀ (s : State) (k : Nat) (d : Dma) (x : StreamId) (v : Word) (m : Stream),
    s.dmas[k]? = some d → d.streams[x] = m →
    ¬(m.en = false ∧ v.getLsbD 0 = true ∧ v.extractLsb' 6 2 = 2#2 ∧ m.req = true) →
    exec (Instr.wrStream k x .cr v) s = .next { s with
      dmas := s.dmas.set k { d with
        streams := d.streams.set x { m with
          en := v.getLsbD 0
          tcie := v.getLsbD 4
          dir := v.extractLsb' 6 2
          circ := v.getLsbD 8
          pinc := v.getLsbD 9
          minc := v.getLsbD 10
          psize := v.extractLsb' 11 2
          msize := v.extractLsb' 13 2
          latch := if m.en = false ∧ v.getLsbD 0 = true then m.ndt else m.latch } } }

/-! ### The transfer engine -/

/-- R262, R113: the source and destination address of item `i`, for each direction, computed on naturals modulo 2^32 (the
sides of M→M, the strides and the wrap are the spec's decisions D13, D14, D28). Where NDT exceeds LATCH, which no run
reaches, `LATCH − NDT` is 0 by the model's choice (log entry 10). -/
def Obligations.ItemAddressesFollowDirection : Prop :=
  ∀ (m : Stream) (i : Nat),
    let size : BitVec 2 → Nat := fun code => if code = 1#2 then 2 else if code = 2#2 then 4 else 1
    let done := m.latch.toNat - m.ndt.toNat
    let par := (m.par.toNat + if m.pinc then (done + i) * size m.psize else 0) % 2 ^ 32
    let mem := (m.m0ar.toNat + if m.minc then (done + i) * size m.msize else 0) % 2 ^ 32
    (m.dir = 0#2 → (srcAddr m i).toNat = par ∧ (dstAddr m i).toNat = mem) ∧
    (m.dir = 1#2 → (srcAddr m i).toNat = mem ∧ (dstAddr m i).toNat = par) ∧
    (m.dir = 2#2 → (srcAddr m i).toNat = par ∧ (dstAddr m i).toNat = mem) ∧
    widthBytes (copyWidth m) = size m.psize

/-- R380, R101, R384: where a DMA access goes, by its address as a natural number. That the bytes of an access in the
straddle and bus clauses are taken modulo 2^32 is the model's inference (log entry 8). -/
def Obligations.DmaAccessesAreRoutedByAddress : Prop :=
  ∀ (s : State) (a : Word) (n : Width),
    let inPage : BitVec 22 → Word → Prop := fun p b => p.toNat * 0x400 ≤ b.toNat ∧ b.toNat < p.toNat * 0x400 + 0x400
    let windowed : Word → Prop := fun b =>
      (∃ c ∈ s.i2cs, inPage c.site.page b) ∨ ∃ d ∈ s.dmas, inPage d.site.page b
    ((∃ j c, s.route a n = .i2c j c) ↔ ∃ c ∈ s.i2cs, inPage c.site.page a) ∧
    (∀ j c, s.route a n = .i2c j c → s.i2cs[j]? = some c ∧ inPage c.site.page a) ∧
    (s.route a n = .dmaWindow ↔
      (¬∃ c ∈ s.i2cs, inPage c.site.page a) ∧ ∃ d ∈ s.dmas, inPage d.site.page a) ∧
    (s.route a n = .straddle ↔
      ¬windowed a ∧ a.toNat % widthBytes n ≠ 0 ∧ ∃ i, i < widthBytes n ∧ windowed (a + BitVec.ofNat 32 i)) ∧
    (s.route a n = .bus ↔
      ¬windowed a ∧ (a.toNat % widthBytes n = 0 ∨ ∀ i, i < widthBytes n → ¬windowed (a + BitVec.ofNat 32 i)))

/-- R260, R262, R265–R267: a rising edge of an enabled P→M or M→P stream copies exactly one item, the read before the write
of the value read; NDT counts down; the last item sets FIN, defers the IRQ if TCIE, and reloads or disables. Nothing else
changes. The value read is the oracle's free answer (log entry 4). -/
def Obligations.RisingRequestMovesOneItem : Prop :=
  ∀ (s : State) (k : Nat) (d : Dma) (x : StreamId) (m : Stream),
    s.dmas[k]? = some d → d.streams[x] = m → s.wired k x = false →
    m.req = false → m.en = true → m.dir = 0#2 ∨ m.dir = 1#2 → m.ndt ≠ 0 →
    s.route (srcAddr m 0) (copyWidth m) = .bus → s.route (dstAddr m 0) (copyWidth m) = .bus →
    exec (.dmaReq k x true) s = .next { s with
      bus := s.bus.afterItems k m 1
      dmas := s.dmas.set k { d with
        streams := d.streams.set x { m with
          req := true
          ndt := if m.ndt = 1 then (if m.circ then m.latch else 0) else m.ndt - 1
          en := m.circ || m.ndt != 1 }
        fin := if m.ndt = 1 then d.fin.set x true else d.fin
        dq := if m.ndt = 1 ∧ m.tcie = true then d.dq ++ [x] else d.dq } }

/-- R271: an enabled P→M or M→P stream moves exactly one item at each pulse of its request input, to the addresses of R262,
and after `NDT` pulses it has completed. R271 is an inference the spec draws from R260, R263, R265 and R222. -/
def Obligations.PulsesMoveOneItemEach : Prop :=
  ∀ (s : State) (k : Nat) (d : Dma) (x : StreamId) (m : Stream) (n : Nat),
    s.dmas[k]? = some d → d.streams[x] = m → s.wired k x = false →
    m.req = false → m.en = true → m.dir = 0#2 ∨ m.dir = 1#2 →
    m.ndt.toNat ≤ m.latch.toNat → n ≤ m.ndt.toNat → m.ndt ≠ 0 →
    (∀ i, i < n → s.route (srcAddr m i) (copyWidth m) = .bus ∧ s.route (dstAddr m i) (copyWidth m) = .bus) →
    runOps (List.replicate n (pulse k x)).flatten s = .next { s with
      bus := s.bus.afterItems k m n
      dmas := s.dmas.set k { d with
        streams := d.streams.set x { m with
          ndt := if n = m.ndt.toNat then (if m.circ then m.latch else 0) else m.ndt - BitVec.ofNat 16 n
          en := m.circ || n != m.ndt.toNat }
        fin := if n = m.ndt.toNat then d.fin.set x true else d.fin
        dq := if n = m.ndt.toNat ∧ m.tcie = true then d.dq ++ [x] else d.dq } }

/-- R222, R264, R272: the write that enables an M→M stream whose request is high runs the whole burst inside the write: NDT
items in increasing order, then the completion. R264's item copies are the spec's decision D15, and R272 its inference. -/
def Obligations.EnableOfReadyMemoryStreamRunsBurst : Prop :=
  ∀ (s : State) (k : Nat) (d : Dma) (x : StreamId) (v : Word) (m m' : Stream),
    s.dmas[k]? = some d → d.streams[x] = m →
    m.en = false → m.req = true → v.getLsbD 0 = true → v.extractLsb' 6 2 = 2#2 → m.ndt ≠ 0 →
    m' = { m with
      en := true
      tcie := v.getLsbD 4
      dir := 2#2
      circ := v.getLsbD 8
      pinc := v.getLsbD 9
      minc := v.getLsbD 10
      psize := v.extractLsb' 11 2
      msize := v.extractLsb' 13 2
      latch := m.ndt } →
    (∀ i, i < m.ndt.toNat →
      s.route (srcAddr m' i) (copyWidth m') = .bus ∧ s.route (dstAddr m' i) (copyWidth m') = .bus) →
    exec (Instr.wrStream k x .cr v) s = .next { s with
      bus := s.bus.afterItems k m' m.ndt.toNat
      dmas := s.dmas.set k { d with
        streams := d.streams.set x { m' with
          ndt := if v.getLsbD 8 then m.ndt else 0
          en := v.getLsbD 8 }
        fin := d.fin.set x true
        dq := if v.getLsbD 4 then d.dq ++ [x] else d.dq } }

/-- R260, R261, R264: a rising edge of an enabled M→M stream runs the whole burst inside the event (the item copies are the
spec's decision D15). -/
def Obligations.RisingRequestRunsMemoryBurst : Prop :=
  ∀ (s : State) (k : Nat) (d : Dma) (x : StreamId) (m : Stream),
    s.dmas[k]? = some d → d.streams[x] = m → s.wired k x = false →
    m.req = false → m.en = true → m.dir = 2#2 → m.ndt ≠ 0 →
    (∀ i, i < m.ndt.toNat →
      s.route (srcAddr m i) (copyWidth m) = .bus ∧ s.route (dstAddr m i) (copyWidth m) = .bus) →
    exec (.dmaReq k x true) s = .next { s with
      bus := s.bus.afterItems k m m.ndt.toNat
      dmas := s.dmas.set k { d with
        streams := d.streams.set x { m with
          req := true
          ndt := if m.circ then m.latch else 0
          en := m.circ }
        fin := d.fin.set x true
        dq := if m.tcie then d.dq ++ [x] else d.dq } }

/-- R260: a request event that is no rising edge of an enabled stream only sets the latch (that the level of the latch
decides what is an edge is the spec's decision D17). -/
def Obligations.RequestWithoutEdgeOnlySetsLatch : Prop :=
  ∀ (s : State) (k : Nat) (d : Dma) (x : StreamId) (v : Bool) (m : Stream),
    s.dmas[k]? = some d → d.streams[x] = m → s.wired k x = false →
    ¬(m.req = false ∧ v = true ∧ m.en = true) →
    exec (.dmaReq k x v) s = .next { s with
      dmas := s.dmas.set k { d with streams := d.streams.set x { m with req := v } } }

/-- R263: a transfer dispatched with NDT = 0 copies nothing and disables the stream; FIN, NDT and the queue stay. Both ways
to dispatch: a rising request, and the enabling write of an M→M stream (spec decision D29). -/
def Obligations.EmptyStreamFailsItsTransfer : Prop :=
  ∀ (s : State) (k : Nat) (d : Dma) (x : StreamId) (v : Word) (m : Stream),
    s.dmas[k]? = some d → d.streams[x] = m → m.ndt = 0 →
    (s.wired k x = false → m.req = false → m.en = true → m.dir ≠ 3#2 →
      exec (.dmaReq k x true) s = .next { s with
        dmas := s.dmas.set k { d with streams := d.streams.set x { m with req := true, en := false } } }) ∧
    (m.en = false → m.req = true → v.getLsbD 0 = true → v.extractLsb' 6 2 = 2#2 →
      exec (Instr.wrStream k x .cr v) s = .next { s with
        dmas := s.dmas.set k { d with
          streams := d.streams.set x { m with
            en := false
            tcie := v.getLsbD 4
            dir := 2#2
            circ := v.getLsbD 8
            pinc := v.getLsbD 9
            minc := v.getLsbD 10
            psize := v.extractLsb' 11 2
            msize := v.extractLsb' 13 2
            latch := 0 } } })

/-- R270, R380, R382–R385: what a request event is refused for: an input that an I²C line drives; at a rising edge of an
enabled stream the reserved direction, or the first access of its items (one item, or the whole burst of M→M) that lies in
a DMA window, straddles into a window or is misaligned in an I²C window; a transfer whose line changes are more than
`CASCADE_LIMIT` (spec decisions D5, D12, D19, D62, D67). -/
def Obligations.RequestRefusals : Prop :=
  ∀ (s : State) (k : Nat) (d : Dma) (x : StreamId) (v : Bool) (m : Stream),
    s.dmas[k]? = some d → d.streams[x] = m →
    (s.wired k x = true → exec (.dmaReq k x v) s = .refused .reservedDescriptor) ∧
    (s.wired k x = false → m.req = false → m.en = true →
      (m.dir = 3#2 → exec (.dmaReq k x true) s = .refused .reservedDirection) ∧
      ∀ i, m.dir ≠ 3#2 → i < m.ndt.toNat → i = 0 ∨ m.dir = 2#2 →
        (∀ i', i' < i →
          s.AllowsAccess (srcAddr m i') (copyWidth m) ∧ s.AllowsAccess (dstAddr m i') (copyWidth m)) →
        (∀ r, s.RefusesAccess (srcAddr m i) (copyWidth m) r → exec (.dmaReq k x true) s = .refused r) ∧
        (s.AllowsAccess (srcAddr m i) (copyWidth m) →
          ∀ r, s.RefusesAccess (dstAddr m i) (copyWidth m) r → exec (.dmaReq k x true) s = .refused r)) ∧
    (s.wired k x = false → ∀ w : Work, dmaReq k x v ⟨s, []⟩ = .ok w → w.st.QuietEvents w.pending →
      s.cascadeLimit < w.pending.length → exec (.dmaReq k x v) s = .refused .cascadeLimit)

/-- R268: the DMA sync step performs the head of the queue, asserting that stream's IRQ whatever FIN and TCIE are, and does
nothing on an empty queue (the queue and its agent are the spec's decision D20). -/
def Obligations.DmaSyncAssertsTheHeadIrq : Prop :=
  ∀ (s : State) (k : Nat) (d : Dma), s.dmas[k]? = some d →
    (d.dq = [] → exec (.dmaSync k) s = .next s) ∧
    ∀ x rest, d.dq = x :: rest →
      exec (.dmaSync k) s = .next { s with dmas := s.dmas.set k { d with dq := rest, irq := d.irq.set x true } }

/-- R268, R386, R151: draining the DMA queue takes as many sync steps as it is long, ends with the queue empty, and asserts
exactly the IRQs of the queued streams, besides those already asserted. -/
def Obligations.DrainAssertsEveryQueuedIrq : Prop :=
  ∀ (s : State) (k : Nat) (d : Dma), s.dmas[k]? = some d →
    ∃ d' : Dma,
      drainDma k d.dq.length s = .next { s with dmas := s.dmas.set k d' } ∧
      d'.dq = [] ∧ d'.site = d.site ∧ d'.streams = d.streams ∧ d'.fin = d.fin ∧
      ∀ x : StreamId, d'.irq[x] = (d.irq[x] || decide (x ∈ d.dq))

/-- R440, R50: a DMA reset gives every field of the instance its reset value, empties the queue, and touches nothing else, the
I²C controllers included (LATCH, REQ and the queue are the spec's decision D54). -/
def Obligations.DmaResetRestoresTheResetValues : Prop :=
  ∀ (s : State) (k : Nat) (d : Dma), s.dmas[k]? = some d →
    ∃ d' : Dma,
      exec (.dmaReset k) s = .next { s with dmas := s.dmas.set k d' } ∧ d'.site = d.site ∧ d'.dq = [] ∧
      ∀ x : StreamId, d'.fin[x] = false ∧ d'.irq[x] = false ∧
        d'.streams[x] = ⟨false, false, 0, false, false, false, 0, 0, 0, 0, 0, 0, 0x00000021, 0, false⟩

/-! ### DMA narrow transactions -/

/-- R105, R102: an 8- or 16-bit read answers the lanes of what the 32-bit read of the register answers, and changes nothing
else (spec decisions D4, D6). -/
def Obligations.DmaNarrowReadsProject : Prop :=
  ∀ (s : State) (k : Nat) (d : Dma) (o : Offset), s.dmas[k]? = some d →
    ∃ r b : Word,
      exec (Instr.dmaRd32 k (o &&& 0x3FC#10) (DmaReg.ofOffset (o &&& 0x3FC#10))) s =
        .next { s with results := s.results ++ [⟨.word, r⟩] } ∧
      exec (.dmaRd8 k o) s = .next { s with results := s.results ++ [⟨.byte, b⟩] } ∧
      (∀ i, b.getLsbD i = (decide (i < 8) && r.getLsbD (8 * (o.toNat % 4) + i))) ∧
      (WellFormed (.dmaRd16 k o) → ∃ h : Word,
        exec (.dmaRd16 k o) s = .next { s with results := s.results ++ [⟨.half, h⟩] } ∧
        ∀ i, h.getLsbD i = (decide (i < 16) && r.getLsbD (8 * (o.toNat % 4) + i)))

/-- R106, R102: an 8- or 16-bit write is the 32-bit write of the register's value with the written lanes replaced, with all
that this write does (spec decisions D4, D6). -/
def Obligations.DmaNarrowWritesMerge : Prop :=
  ∀ (s : State) (k : Nat) (d : Dma) (o : Offset) (v : Word), s.dmas[k]? = some d →
    ∃ r b : Word,
      exec (Instr.dmaRd32 k (o &&& 0x3FC#10) (DmaReg.ofOffset (o &&& 0x3FC#10))) s =
        .next { s with results := s.results ++ [⟨.word, r⟩] } ∧
      exec (.dmaWr8 k o v) s =
        exec (Instr.dmaWr32 k (o &&& 0x3FC#10) b (DmaReg.ofOffset (o &&& 0x3FC#10))) s ∧
      (∀ i, i < 32 → b.getLsbD i =
        if 8 * (o.toNat % 4) ≤ i ∧ i < 8 * (o.toNat % 4) + 8 then v.getLsbD (i - 8 * (o.toNat % 4))
        else r.getLsbD i) ∧
      (WellFormed (.dmaWr16 k o v) → ∃ h : Word,
        exec (.dmaWr16 k o v) s =
          exec (Instr.dmaWr32 k (o &&& 0x3FC#10) h (DmaReg.ofOffset (o &&& 0x3FC#10))) s ∧
        ∀ i, i < 32 → h.getLsbD i =
          if 8 * (o.toNat % 4) ≤ i ∧ i < 8 * (o.toNat % 4) + 16 then v.getLsbD (i - 8 * (o.toNat % 4))
          else r.getLsbD i)

/-- R106, R405: an 8-bit write at any offset, and a 16-bit write at any even offset, answers a next state in which only the
addressed DMA instance can differ, and of it neither a latch nor a request latch nor the queue, unless the register is a
CR of a disabled stream (whose enabling may dispatch; spec decision D6). -/
def Obligations.DmaNarrowWritesComplete : Prop :=
  ∀ (s : State) (k : Nat) (d : Dma) (o : Offset) (v : Word), s.dmas[k]? = some d →
    (∀ x : StreamId, DmaReg.ofOffset (o &&& 0x3FC#10) = .stream x .cr → d.streams[x].en = true) →
    (∃ d' : Dma, exec (.dmaWr8 k o v) s = .next { s with dmas := s.dmas.set k d' } ∧ d'.site = d.site ∧
      d'.dq = d.dq ∧ ∀ x : StreamId, d'.streams[x].latch = d.streams[x].latch ∧ d'.streams[x].req = d.streams[x].req) ∧
    (WellFormed (.dmaWr16 k o v) →
      ∃ d' : Dma, exec (.dmaWr16 k o v) s = .next { s with dmas := s.dmas.set k d' } ∧ d'.site = d.site ∧
        d'.dq = d.dq ∧
        ∀ x : StreamId, d'.streams[x].latch = d.streams[x].latch ∧ d'.streams[x].req = d.streams[x].req)

/-- R104: the twelve misaligned operations are refused whatever their operands and the state (the spec's decision D5). -/
def Obligations.MisalignedTransactionsAreRefused : Prop :=
  ∀ (s : State) (n : Nat) (o : Offset) (v : Word) (i : Instr),
    i ∈ [.dmaRd32MisalignedOdd n o, .dmaRd32Misaligned2 n o, .dmaRd16Misaligned n o,
      .dmaWr32MisalignedOdd n o v, .dmaWr32Misaligned2 n o v, .dmaWr16Misaligned n o v,
      .i2cRd32MisalignedOdd n o, .i2cRd32Misaligned2 n o, .i2cRd16Misaligned n o,
      .i2cWr32MisalignedOdd n o v, .i2cWr32Misaligned2 n o v, .i2cWr16Misaligned n o v] →
    exec i s = .refused .misalignedAccess

/-- An operation on an instance that the platform does not have is refused (R140's pairing with an instance; the refusal is
the model's choice, log entry 6); a wired input is refused before that (log entry 9). The misaligned operations are
refused whatever the instance (R104). -/
def Obligations.AbsentInstancesAreRefused : Prop :=
  ∀ (s : State) (k : Nat) (o : Offset) (x : StreamId) (v : Word) (b : Bool),
    (s.dmas[k]? = none →
      (∀ r, exec (Instr.dmaRd32 k o r) s = .refused .noSuchInstance ∧
        exec (Instr.dmaWr32 k o v r) s = .refused .noSuchInstance) ∧
      (∀ i ∈ [Instr.dmaRd8 k o, .dmaWr8 k o v, .dmaRd16 k o, .dmaWr16 k o v, .dmaSync k, .dmaReset k],
        WellFormed i → exec i s = .refused .noSuchInstance) ∧
      exec (.dmaReq k x b) s = .refused (if s.wired k x then .reservedDescriptor else .noSuchInstance)) ∧
    (s.i2cs[k]? = none →
      (∀ r, exec (Instr.i2cRd32 k o r) s = .refused .noSuchInstance ∧
        exec (Instr.i2cWr32 k o v r) s = .refused .noSuchInstance) ∧
      ∀ i ∈ [Instr.i2cRd8 k o, .i2cRd16 k o, .i2cWr8Aligned k o v, .i2cWr8Unaligned k o v, .i2cWr16Aligned k o v,
          .i2cWr16Unaligned k o v, .i2cSync k, .i2cReset k],
        WellFormed i → exec i s = .refused .noSuchInstance)

/-! ### I²C flags, lines and status reads -/

/-- R302: the output lines as functions of the state, with SB, ADDR, BTF, TxE and RxNE written out by R301's formulas (SB is
the spec's decision D34). -/
def Obligations.LinesFollowTheState : Prop :=
  ∀ c : I2c,
    (c.dmaTx = true ↔ c.dmaen = true ∧ c.st = .awaitingData ∧ c.txq = []) ∧
    (c.dmaRx = true ↔ c.dmaen = true ∧ c.st = .receivingData ∧ c.rxq ≠ []) ∧
    (c.erIrq = true ↔ c.iterren = true ∧ c.af = true) ∧
    (c.evIrq = true ↔ c.itevten = true ∧
      (c.st = .awaitingAddress ∨ c.st = .awaitingSr1Read ∨ c.st = .awaitingSr2Read ∨
        (c.rw = true ∧ c.st = .receivingData ∧ c.rxq ≠ []) ∨ (c.rw = false ∧ c.st = .awaitingData ∧ c.txq = []) ∨
        (c.itbufen = true ∧
          ((c.st = .awaitingData ∧ c.txq = []) ∨ (c.st = .receivingData ∧ c.rxq ≠ [])))))

/-- R303, R382, R383: an I²C action whose line changes start no transfer stores the controller and the children and sets the
latches of the wired inputs whose line changed, and nothing else changes; if they are more than `CASCADE_LIMIT` the step is
refused. (Immediate delivery is the spec's decision D57, the limit D67.) -/
def Obligations.QuietLineChangesOnlySetLatches : Prop :=
  ∀ (s : State) (j : Nat) (c c' : I2c) (e' : Children), s.QuietEvents (lineEvents c c') →
    ((lineEvents c c').length ≤ s.cascadeLimit → i2cStep j c c' e' s = .next (s.afterI2c j c c' e')) ∧
    (s.cascadeLimit < (lineEvents c c').length → i2cStep j c c' e' s = .refused .cascadeLimit)

/-- R346, R310: a read of SR1 answers the flags as they were, then clears AF and steps AwaitingSr1Read to AwaitingSr2Read;
nothing else changes (spec decisions D45, D46). -/
def Obligations.Sr1ReadAnswersThenSteps : Prop :=
  ∀ (s : State) (j : Nat) (c : I2c), s.i2cs[j]? = some c →
    ∃ v : Word,
      exec (.i2cRd32Sr1 j) s = .next { s with
        results := s.results ++ [⟨.word, v⟩]
        i2cs := s.i2cs.set j { c with
          af := false
          st := if c.st = .awaitingSr1Read then .awaitingSr2Read else c.st } } ∧
      (v.getLsbD 0 = true ↔ c.st = .awaitingAddress) ∧
      (v.getLsbD 1 = true ↔ c.st = .awaitingSr1Read ∨ c.st = .awaitingSr2Read) ∧
      (v.getLsbD 2 = true ↔ (c.rw = true ∧ c.st = .receivingData ∧ c.rxq ≠ []) ∨
        (c.rw = false ∧ c.st = .awaitingData ∧ c.txq = [])) ∧
      (v.getLsbD 6 = true ↔ c.st = .receivingData ∧ c.rxq ≠ []) ∧
      (v.getLsbD 7 = true ↔ (c.st = .awaitingData ∧ c.txq = []) ∨
        (c.rw = false ∧ (c.st = .awaitingSr1Read ∨ c.st = .awaitingSr2Read))) ∧
      v.getLsbD 10 = c.af ∧
      ∀ p, p ∉ [0, 1, 2, 6, 7, 10] → v.getLsbD p = false

/-- R348, R311: a read of SR2 answers TRA, BUSY and MSL as they were, then leaves AwaitingSr2Read for AwaitingData or for
ReceivingData with a pull deferred (that the value precedes the step is the spec's decision D46; TRA is D35). -/
def Obligations.Sr2ReadAnswersThenSteps : Prop :=
  ∀ (s : State) (j : Nat) (c c' : I2c), s.i2cs[j]? = some c →
    c' = (if c.st = .awaitingSr2Read then
        (if c.rw then { c with st := .receivingData, dq := c.dq ++ [.pull] } else { c with st := .awaitingData })
      else c) →
    s.NoDispatch (lineEvents c c') →
    ∃ v : Word,
      exec (.i2cRd32Sr2 j) s =
        .next (State.afterI2c { s with results := s.results ++ [⟨.word, v⟩] } j c c' s.child) ∧
      (v.getLsbD 0 = true ↔ c.st ≠ .idle) ∧ (v.getLsbD 1 = true ↔ c.st ≠ .idle) ∧
      (v.getLsbD 2 = true ↔ c.rw = false ∧
        (c.st = .awaitingSr1Read ∨ c.st = .awaitingSr2Read ∨ c.st = .awaitingData)) ∧
      ∀ p, 3 ≤ p → v.getLsbD p = false

/-- R319: from the address phase of an attached child, every SR1 read shows ADDR = 1, however many there are, until SR2 is
read; the SR1 read after that shows ADDR = 0. R319 is an inference the spec draws from R301, R309–R311. -/
def Obligations.AddrReadsOneUntilSr2IsRead : Prop :=
  ∀ (s : State) (j : Nat) (c : I2c) (n : Nat), s.i2cs[j]? = some c → c.st = .awaitingSr1Read → c.dmaen = false →
    ∃ (t : State) (vs : List Word) (v₂ v₃ : Word),
      runOps (List.replicate (n + 1) (encode (.i2cRd32Sr1 j)) ++
        [encode (.i2cRd32Sr2 j), encode (.i2cRd32Sr1 j)]) s = .next t ∧
      vs.length = n + 1 ∧
      t.results = s.results ++ (vs ++ [v₂, v₃]).map (fun v => ⟨.word, v⟩) ∧
      (∀ v ∈ vs, v.getLsbD 1 = true) ∧ v₃.getLsbD 1 = false

/-- The reads of CR1, CR2 and of an unmapped I²C offset answer the stored bits and change nothing; the writes of SR2 and of
an unmapped offset change nothing (R340, R342, R349–R351; the positions and the ignored bits are the spec's decisions D9,
D10, D27, D38, D8). -/
def Obligations.I2cControlReadsAndIgnoredWrites : Prop :=
  ∀ (s : State) (j : Nat) (c : I2c) (o : Offset) (v : Word), s.i2cs[j]? = some c →
    (∃ r₁ r₂ : Word,
      exec (.i2cRd32Cr1 j) s = .next { s with results := s.results ++ [⟨.word, r₁⟩] } ∧
      exec (.i2cRd32Cr2 j) s = .next { s with results := s.results ++ [⟨.word, r₂⟩] } ∧
      (∀ p, r₁.getLsbD p = (p == 10 && c.ack)) ∧
      ∀ p, r₂.getLsbD p = ((p == 8 && c.iterren) || (p == 9 && c.itevten) || (p == 10 && c.itbufen) ||
        (p == 11 && c.dmaen) || (p == 12 && c.last))) ∧
    exec (.i2cRd32Unmapped j o) s = .next { s with results := s.results ++ [⟨.word, 0⟩] } ∧
    exec (.i2cWr32Sr2 j v) s = .next s ∧
    exec (.i2cWr32Unmapped j o v) s = .next s

/-! ### I²C control and data writes -/

/-- A write of SR1 clears AF exactly when bit 10 is 0 and changes nothing else (R347; the spec's decision D45). -/
def Obligations.Sr1WriteClearsAcknowledgeFailure : Prop :=
  ∀ (s : State) (j : Nat) (c : I2c) (v : Word), s.i2cs[j]? = some c →
    exec (.i2cWr32Sr1 j v) s = .next { s with i2cs := s.i2cs.set j { c with af := c.af && v.getLsbD 10 } }

/-- A write of CR2 stores the five control bits; the lines follow in the same write (R343; positions D9, immediacy D57). -/
def Obligations.Cr2WriteStoresControlBits : Prop :=
  ∀ (s : State) (j : Nat) (c c' : I2c) (v : Word), s.i2cs[j]? = some c →
    c' = { c with
      iterren := v.getLsbD 8
      itevten := v.getLsbD 9
      itbufen := v.getLsbD 10
      dmaen := v.getLsbD 11
      last := v.getLsbD 12 } →
    s.NoDispatch (lineEvents c c') →
    exec (.i2cWr32Cr2 j v) s = .next (s.afterI2c j c c' s.child)

/-- R306, R307, R341: a CR1 write with START alone takes Idle to AwaitingAddress and leaves AwaitingAddress, without a child
call; one with no action bit only stores ACK; one with STOP, with or without START, and no child selected ends Idle with
empty queues (STOP's position, the order of the two and the untouched AwaitingAddress are the spec's decisions D9, D37,
D36). -/
def Obligations.Cr1WriteWithoutCommit : Prop :=
  ∀ (s : State) (j : Nat) (c : I2c) (v : Word), s.i2cs[j]? = some c → v.getLsbD 15 = false →
    (v.getLsbD 8 = false → v.getLsbD 9 = false →
      exec (.i2cWr32Cr1 j v) s = .next { s with i2cs := s.i2cs.set j { c with ack := v.getLsbD 10 } }) ∧
    (v.getLsbD 8 = true → v.getLsbD 9 = false → c.st = .idle ∨ c.st = .awaitingAddress →
      exec (.i2cWr32Cr1 j v) s =
        .next { s with i2cs := s.i2cs.set j { c with ack := v.getLsbD 10, st := .awaitingAddress } }) ∧
    (v.getLsbD 9 = true → c.sel = none → c.st = .idle ∨ c.st = .awaitingAddress →
      exec (.i2cWr32Cr1 j v) s =
        .next { s with i2cs := s.i2cs.set j { c with ack := v.getLsbD 10, st := .idle, txq := [], rxq := [] } })

/-- R306, R307, R316, R317, R341: STOP, START past the address phase, or both, with a child selected commits the transaction
once: bytes still in TXQ go to the child in one Write, then FinishTransmission is called; if a call fails no further call
is made, AF is set and the machine is Idle; with STOP it ends Idle, with START alone in AwaitingAddress (spec decisions
D37, D39, D40, D41, D49, D61). The answers are the oracle's (log entry 5). -/
def Obligations.StopAndRepeatedStartCommit : Prop :=
  ∀ (s : State) (j : Nat) (c c' : I2c) (a : ChildAddr) (v : Word) (a₁ a₂ : Option (List Byte)) (e' : Children),
    s.i2cs[j]? = some c → c.sel = some a → c.st ≠ .idle → c.st ≠ .awaitingAddress →
    v.getLsbD 15 = false → v.getLsbD 8 = true ∨ v.getLsbD 9 = true → Commits j a c.txq s.child a₁ a₂ e' →
    c' = { c with
      ack := v.getLsbD 10
      txq := []
      rxq := []
      sel := none
      af := c.af || a₁.isNone || (!c.txq.isEmpty && a₂.isNone)
      st := if a₁.isNone || (!c.txq.isEmpty && a₂.isNone) || v.getLsbD 9 then .idle else .awaitingAddress } →
    s.NoDispatch (lineEvents c c') →
    exec (.i2cWr32Cr1 j v) s = .next (s.afterI2c j c c' e')

/-- R308, R341: a CR1 write with SWRST ends in the reset state whatever else is set, ACK included, but keeps the deferred
actions; the child calls are those of the START and STOP set beside it: none without a child selected or with no commit to
make, else those of one commit (spec decisions D37, D42). -/
def Obligations.SoftResetKeepsOnlyDeferredActions : Prop :=
  ∀ (s : State) (j : Nat) (c c' : I2c) (v : Word), s.i2cs[j]? = some c → v.getLsbD 15 = true →
    c' = { site := c.site, st := .idle, sel := none, rw := false, txq := [], rxq := [], af := false, ack := false,
           itevten := false, itbufen := false, iterren := false, dmaen := false, last := false, dq := c.dq } →
    s.NoDispatch (lineEvents c c') →
    (c.sel = none ∨ v.getLsbD 9 = false ∧ (v.getLsbD 8 = false ∨ c.st = .idle ∨ c.st = .awaitingAddress) →
      exec (.i2cWr32Cr1 j v) s = .next (s.afterI2c j c c' s.child)) ∧
    ∀ (a : ChildAddr) (a₁ a₂ : Option (List Byte)) (e' : Children), c.sel = some a →
      v.getLsbD 9 = true ∨ v.getLsbD 8 = true ∧ c.st ≠ .idle ∧ c.st ≠ .awaitingAddress →
      Commits j a c.txq s.child a₁ a₂ e' → exec (.i2cWr32Cr1 j v) s = .next (s.afterI2c j c c' e')

/-- R309: the address byte written in AwaitingAddress selects an attached child and its direction, or, with no child there,
ends Idle with AF set; no child is called and no line to the DMA changes. -/
def Obligations.AddressWriteSelectsOrFails : Prop :=
  ∀ (s : State) (j : Nat) (c : I2c) (v : Word), s.i2cs[j]? = some c → c.st = .awaitingAddress →
    (v.extractLsb' 1 7 ∈ c.site.children →
      exec (.i2cWr32Dr j v) s = .next { s with
        i2cs := s.i2cs.set j { c with
          rw := v.getLsbD 0, sel := some (v.extractLsb' 1 7), st := .awaitingSr1Read } }) ∧
    (v.extractLsb' 1 7 ∉ c.site.children →
      exec (.i2cWr32Dr j v) s = .next { s with
        i2cs := s.i2cs.set j { c with rw := v.getLsbD 0, sel := none, st := .idle, af := true } })

/-- R312, R345: in AwaitingData a DR write queues its low byte and defers a flush; in the four states that take no data it
changes nothing (the width and the dropped writes are the spec's decisions D47, D63). -/
def Obligations.DataWriteQueuesOneByte : Prop :=
  ∀ (s : State) (j : Nat) (c c' : I2c) (v : Word), s.i2cs[j]? = some c →
    (c.st = .awaitingData → c' = { c with txq := c.txq ++ [v.extractLsb' 0 8], dq := c.dq ++ [.flush] } →
      s.NoDispatch (lineEvents c c') → exec (.i2cWr32Dr j v) s = .next (s.afterI2c j c c' s.child)) ∧
    (c.st ≠ .awaitingData → c.st ≠ .awaitingAddress → exec (.i2cWr32Dr j v) s = .next s)

/-- R313, R344: in ReceivingData a DR read answers and dequeues the oldest byte, or answers 0 when there is none, and defers a
pull when the queue is then empty; in any other state it answers 0 and changes nothing (the empty read is the spec's
decision D44). -/
def Obligations.DataReadDequeuesOneByte : Prop :=
  ∀ (s : State) (j : Nat) (c c' : I2c), s.i2cs[j]? = some c →
    (c.st ≠ .receivingData →
      exec (.i2cRd32Dr j) s = .next { s with results := s.results ++ [⟨.word, 0⟩] }) ∧
    (c.st = .receivingData →
      c' = { c with rxq := c.rxq.tail, dq := if c.rxq.tail = [] then c.dq ++ [.pull] else c.dq } →
      s.NoDispatch (lineEvents c c') →
      exec (.i2cRd32Dr j) s = .next (State.afterI2c
        { s with results := s.results ++ [⟨.word, (c.rxq.headD 0).setWidth 32⟩] } j c c' s.child))

/-! ### I²C sync and reset -/

/-- R352, R314: the pull at the head of the queue reads one batch of the selected child into RXQ, aborts if the child fails,
and does nothing outside ReceivingData or with no child (R314's guards are the spec's decision D43). -/
def Obligations.SyncPullsABatch : Prop :=
  ∀ (s : State) (j : Nat) (c c' : I2c) (rest : List I2cAction), s.i2cs[j]? = some c → c.dq = .pull :: rest →
    (c.st ≠ .receivingData ∨ c.sel = none →
      exec (.i2cSync j) s = .next { s with i2cs := s.i2cs.set j { c with dq := rest } }) ∧
    ∀ (a : ChildAddr) (ans : Option (List Byte)) (e₁ : Children), c.st = .receivingData → c.sel = some a →
      s.child.draw = (ans, e₁) →
      c' = (match ans with
        | some bytes => { c with dq := rest, rxq := c.rxq ++ bytes }
        | none => { c with dq := rest, st := .idle, af := true, txq := [], rxq := [], sel := none }) →
      s.NoDispatch (lineEvents c c') →
      exec (.i2cSync j) s =
        .next (s.afterI2c j c c' { e₁ with calls := s.child.calls ++ [⟨j, a, .read, ans⟩] })

/-- R352, R315: the flush at the head of the queue hands the whole TXQ to the selected child in one Write and empties it,
aborts if the child fails, and does nothing with an empty TXQ or no child; an empty queue makes the step a no-op (D43). -/
def Obligations.SyncFlushesTheQueue : Prop :=
  ∀ (s : State) (j : Nat) (c c' : I2c), s.i2cs[j]? = some c →
    (c.dq = [] → exec (.i2cSync j) s = .next s) ∧
    ∀ rest, c.dq = .flush :: rest →
      (c.txq = [] ∨ c.sel = none →
        exec (.i2cSync j) s = .next { s with i2cs := s.i2cs.set j { c with dq := rest } }) ∧
      ∀ (a : ChildAddr) (ans : Option (List Byte)) (e₁ : Children), c.txq ≠ [] → c.sel = some a →
        s.child.draw = (ans, e₁) →
        c' = (match ans with
          | some _ => { c with dq := rest, txq := [] }
          | none => { c with dq := rest, st := .idle, af := true, txq := [], rxq := [], sel := none }) →
        s.NoDispatch (lineEvents c c') →
        exec (.i2cSync j) s = .next (s.afterI2c j c c'
          { e₁ with calls := s.child.calls ++ [⟨j, a, .write c.txq, ans.map fun _ => []⟩] })

/-- R441, R66: an I²C reset gives every field its reset value, the queue of deferred actions included, and calls no child; a
line that falls sets the latch of its input (the reset values are the spec's decisions D54, D55). -/
def Obligations.I2cResetRestoresTheResetValues : Prop :=
  ∀ (s : State) (j : Nat) (c c' : I2c), s.i2cs[j]? = some c →
    c' = { site := c.site, st := .idle, sel := none, rw := false, txq := [], rxq := [], af := false, ack := false,
           itevten := false, itbufen := false, iterren := false, dmaen := false, last := false, dq := [] } →
    s.NoDispatch (lineEvents c c') →
    exec (.i2cReset j) s = .next (s.afterI2c j c c' s.child)

/-! ### I²C narrow transactions -/

/-- R107, R102: an 8- or 16-bit read has every effect of the 32-bit read of its register, and answers that read's value
projected to its lanes (little-endian lanes are the spec's decision D4). -/
def Obligations.I2cNarrowReadsHaveTheFullEffect : Prop :=
  ∀ (s : State) (j : Nat) (c c' : I2c) (o : Offset) (r : Word), s.i2cs[j]? = some c →
    c.readReg (I2cReg.ofOffset (o &&& 0x3FC#10)) = (r, c') → s.NoDispatch (lineEvents c c') →
    exec (Instr.i2cRd32 j (o &&& 0x3FC#10) (I2cReg.ofOffset (o &&& 0x3FC#10))) s =
      .next (State.afterI2c { s with results := s.results ++ [⟨.word, r⟩] } j c c' s.child) ∧
    (∃ b : Word,
      exec (.i2cRd8 j o) s =
        .next (State.afterI2c { s with results := s.results ++ [⟨.byte, b⟩] } j c c' s.child) ∧
      ∀ i, b.getLsbD i = (decide (i < 8) && r.getLsbD (8 * (o.toNat % 4) + i))) ∧
    (WellFormed (.i2cRd16 j o) → ∃ h : Word,
      exec (.i2cRd16 j o) s =
        .next (State.afterI2c { s with results := s.results ++ [⟨.half, h⟩] } j c c' s.child) ∧
      ∀ i, h.getLsbD i = (decide (i < 16) && r.getLsbD (8 * (o.toNat % 4) + i)))

/-- R108, R109: an 8- or 16-bit write at a word offset is the 32-bit write of the zero-extended value, with no read first;
at another offset it is ignored (the spec's decision D7). -/
def Obligations.I2cNarrowWritesZeroExtendOrAreIgnored : Prop :=
  ∀ (s : State) (j : Nat) (c : I2c) (o : Offset) (v : Word), s.i2cs[j]? = some c →
    (WellFormed (.i2cWr8Aligned j o v) →
      exec (.i2cWr8Aligned j o v) s =
        exec (Instr.i2cWr32 j o ((v.extractLsb' 0 8).setWidth 32) (I2cReg.ofOffset o)) s) ∧
    (WellFormed (.i2cWr16Aligned j o v) →
      exec (.i2cWr16Aligned j o v) s =
        exec (Instr.i2cWr32 j o ((v.extractLsb' 0 16).setWidth 32) (I2cReg.ofOffset o)) s) ∧
    (WellFormed (.i2cWr8Unaligned j o v) → exec (.i2cWr8Unaligned j o v) s = .next s) ∧
    (WellFormed (.i2cWr16Unaligned j o v) → exec (.i2cWr16Unaligned j o v) s = .next s)

/-- R108: a narrow write at a word offset answers a next state: the one that the write of the zero-extended value leaves
(the spec's decision D7). -/
def Obligations.I2cAlignedNarrowWritesComplete : Prop :=
  ∀ (s : State) (j : Nat) (c c' : I2c) (o : Offset) (v : Word) (e' : Children), s.i2cs[j]? = some c →
    (WellFormed (.i2cWr8Aligned j o v) →
      i2cWriteReg j (I2cReg.ofOffset o) ((v.extractLsb' 0 8).setWidth 32) c s.child = (c', e') →
      s.NoDispatch (lineEvents c c') → exec (.i2cWr8Aligned j o v) s = .next (s.afterI2c j c c' e')) ∧
    (WellFormed (.i2cWr16Aligned j o v) →
      i2cWriteReg j (I2cReg.ofOffset o) ((v.extractLsb' 0 16).setWidth 32) c s.child = (c', e') →
      s.NoDispatch (lineEvents c c') → exec (.i2cWr16Aligned j o v) s = .next (s.afterI2c j c c' e'))

/-! ### The two blocks together -/

/-- R451, R382, R383, R385: with an enabled M→P stream wired to DMA_TX and aimed at DR, one sync step that flushes TXQ moves
exactly one item from the bus into TXQ: the flush raises the line, the stream copies the item into DR, and that lowers the
line again; a `CASCADE_LIMIT` too small for these two events refuses the step. R451 is an inference the spec draws from
R312, R315 and R382. -/
def Obligations.FlushMovesOneByteByDma : Prop :=
  ∀ (s : State) (j k : Nat) (x : StreamId) (c : I2c) (d : Dma) (m : Stream) (a : ChildAddr) (rest : List I2cAction)
    (ans : List Byte) (e₁ : Children),
    s.i2cs[j]? = some c → s.dmas[k]? = some d → d.streams[x] = m →
    c.st = .awaitingData → c.rw = false → c.sel = some a → c.txq ≠ [] → c.rxq = [] → c.dq = .flush :: rest →
    c.dmaen = true → c.site.txReq = some (k, x) →
    m.en = true → m.req = false → m.dir = 1#2 → m.ndt ≠ 0 → m.pinc = false →
    m.par = baseOf c.site.page + 0x10#32 → (∀ j' c', s.i2cs[j']? = some c' → j' < j → c'.site.page ≠ c.site.page) →
    s.route (srcAddr m 0) (copyWidth m) = .bus → s.child.draw = (some ans, e₁) →
    (2 ≤ s.cascadeLimit → exec (.i2cSync j) s = .next { s with
        child := { e₁ with calls := s.child.calls ++ [⟨j, a, .write c.txq, some []⟩] }
        i2cs := s.i2cs.set j { c with txq := [s.bus.draw.1.extractLsb' 0 8], dq := rest ++ [.flush] }
        bus := s.bus.afterItems k m 1
        dmas := s.dmas.set k { d with
          streams := d.streams.set x { m with
            req := false
            ndt := if m.ndt = 1 then (if m.circ then m.latch else 0) else m.ndt - 1
            en := m.circ || m.ndt != 1 }
          fin := if m.ndt = 1 then d.fin.set x true else d.fin
          dq := if m.ndt = 1 ∧ m.tcie = true then d.dq ++ [x] else d.dq } }) ∧
    (s.cascadeLimit < 2 → exec (.i2cSync j) s = .refused .cascadeLimit)

/-- R302, R382, R383, R385: with an enabled M→P stream wired to DMA_TX and aimed at DR, the SR2 read that enters AwaitingData,
and the CR2 write that sets DMAEN there, raise the line and move exactly one item from the bus into TXQ; a `CASCADE_LIMIT`
too small for the two line events refuses the step (immediate delivery is the spec's decision D57, the limit D67). -/
def Obligations.RaisingDmaTxMovesOneByte : Prop :=
  ∀ (s : State) (j k : Nat) (x : StreamId) (c : I2c) (d : Dma) (m : Stream),
    s.i2cs[j]? = some c → s.dmas[k]? = some d → d.streams[x] = m →
    c.rw = false → c.txq = [] → c.site.txReq = some (k, x) →
    m.en = true → m.req = false → m.dir = 1#2 → m.ndt ≠ 0 → m.pinc = false →
    m.par = baseOf c.site.page + 0x10#32 → (∀ j' c', s.i2cs[j']? = some c' → j' < j → c'.site.page ≠ c.site.page) →
    s.route (srcAddr m 0) (copyWidth m) = .bus →
    let d' : Dma := { d with
      streams := d.streams.set x { m with
        req := false
        ndt := if m.ndt = 1 then (if m.circ then m.latch else 0) else m.ndt - 1
        en := m.circ || m.ndt != 1 }
      fin := if m.ndt = 1 then d.fin.set x true else d.fin
      dq := if m.ndt = 1 ∧ m.tcie = true then d.dq ++ [x] else d.dq }
    (c.st = .awaitingSr2Read → c.dmaen = true →
      (2 ≤ s.cascadeLimit → exec (.i2cRd32Sr2 j) s = .next { s with
        results := s.results ++ [⟨.word, 0x00000007#32⟩]
        i2cs := s.i2cs.set j { c with
          st := .awaitingData
          txq := [s.bus.draw.1.extractLsb' 0 8]
          dq := c.dq ++ [.flush] }
        bus := s.bus.afterItems k m 1
        dmas := s.dmas.set k d' }) ∧
      (s.cascadeLimit < 2 → exec (.i2cRd32Sr2 j) s = .refused .cascadeLimit)) ∧
    ∀ v : Word, c.st = .awaitingData → c.dmaen = false → v.getLsbD 11 = true →
      (2 ≤ s.cascadeLimit → exec (.i2cWr32Cr2 j v) s = .next { s with
        i2cs := s.i2cs.set j { c with
          iterren := v.getLsbD 8
          itevten := v.getLsbD 9
          itbufen := v.getLsbD 10
          dmaen := true
          last := v.getLsbD 12
          txq := [s.bus.draw.1.extractLsb' 0 8]
          dq := c.dq ++ [.flush] }
        bus := s.bus.afterItems k m 1
        dmas := s.dmas.set k d' }) ∧
      (s.cascadeLimit < 2 → exec (.i2cWr32Cr2 j v) s = .refused .cascadeLimit)

/-- R302, R343, R382, R383, R385: with an enabled P→M stream wired to DMA_RX and aimed at DR, of items of any size, one sync
step that pulls a batch into an empty RXQ, and the CR2 write that sets DMAEN with bytes in RXQ, raise the line once and
move exactly the first byte, zero-extended to an item; the line, and with it the latch, stays high as long as bytes are
left, so no further item moves. A `CASCADE_LIMIT` too small for the line events refuses the step. R450 is an inference the
spec draws from R302 and R260. -/
def Obligations.RaisingDmaRxMovesOneByte : Prop :=
  ∀ (s : State) (j k : Nat) (x : StreamId) (c : I2c) (d : Dma) (m : Stream) (b : Byte) (bs : List Byte),
    s.i2cs[j]? = some c → s.dmas[k]? = some d → d.streams[x] = m →
    c.st = .receivingData → c.rw = true → c.site.rxReq = some (k, x) →
    m.en = true → m.req = false → m.dir = 0#2 → m.ndt ≠ 0 → m.pinc = false →
    m.par = baseOf c.site.page + 0x10#32 → (∀ j' c', s.i2cs[j']? = some c' → j' < j → c'.site.page ≠ c.site.page) →
    s.route (dstAddr m 0) (copyWidth m) = .bus →
    let bus' : Bus := { s.bus with log := s.bus.log ++
      [.read k m.par (copyWidth m) (b.setWidth 32), .write k (dstAddr m 0) (copyWidth m) (b.setWidth 32)] }
    let d' : Dma := { d with
      streams := d.streams.set x { m with
        req := !bs.isEmpty
        ndt := if m.ndt = 1 then (if m.circ then m.latch else 0) else m.ndt - 1
        en := m.circ || m.ndt != 1 }
      fin := if m.ndt = 1 then d.fin.set x true else d.fin
      dq := if m.ndt = 1 ∧ m.tcie = true then d.dq ++ [x] else d.dq }
    let events := if bs = [] then 2 else 1
    (∀ (a : ChildAddr) (rest : List I2cAction) (e₁ : Children),
      c.dmaen = true → c.sel = some a → c.rxq = [] → c.dq = .pull :: rest → s.child.draw = (some (b :: bs), e₁) →
      (events ≤ s.cascadeLimit → exec (.i2cSync j) s = .next { s with
        child := { e₁ with calls := s.child.calls ++ [⟨j, a, .read, some (b :: bs)⟩] }
        i2cs := s.i2cs.set j { c with rxq := bs, dq := if bs = [] then rest ++ [.pull] else rest }
        bus := bus'
        dmas := s.dmas.set k d' }) ∧
      (s.cascadeLimit < events → exec (.i2cSync j) s = .refused .cascadeLimit)) ∧
    ∀ v : Word, c.dmaen = false → c.rxq = b :: bs → v.getLsbD 11 = true →
      (events ≤ s.cascadeLimit → exec (.i2cWr32Cr2 j v) s = .next { s with
        i2cs := s.i2cs.set j { c with
          iterren := v.getLsbD 8
          itevten := v.getLsbD 9
          itbufen := v.getLsbD 10
          dmaen := true
          last := v.getLsbD 12
          rxq := bs
          dq := if bs = [] then c.dq ++ [.pull] else c.dq }
        bus := bus'
        dmas := s.dmas.set k d' }) ∧
      (s.cascadeLimit < events → exec (.i2cWr32Cr2 j v) s = .refused .cascadeLimit)

/-! ### The whole machine -/

/-- R442, R50, R66: the power-on state: every DMA instance and every I²C instance at its reset values, nothing queued,
nothing observed. That there is an instance of each block (log entry 3, unsafe for this statement) and that no operation
is presented (log entry 1) are the model's choices. -/
def Obligations.PowerOnStateIsReset : Prop :=
  (∀ d ∈ State.reset.dmas, d.dq = [] ∧ ∀ x : StreamId, d.fin[x] = false ∧ d.irq[x] = false ∧
    d.streams[x] = ⟨false, false, 0, false, false, false, 0, 0, 0, 0, 0, 0, 0x00000021, 0, false⟩) ∧
  (∀ c ∈ State.reset.i2cs, c.st = .idle ∧ c.sel = none ∧ c.rw = false ∧ c.txq = [] ∧ c.rxq = [] ∧ c.af = false ∧
    c.ack = false ∧ c.itevten = false ∧ c.itbufen = false ∧ c.iterren = false ∧ c.dmaen = false ∧ c.last = false ∧
    c.dq = [] ∧ c.evIrq = false ∧ c.erIrq = false ∧ c.dmaTx = false ∧ c.dmaRx = false) ∧
  State.reset.results = [] ∧ State.reset.bus.log = [] ∧ State.reset.child.calls = [] ∧ State.reset.ops = [] ∧
  State.reset.dmas ≠ [] ∧ State.reset.i2cs ≠ [] ∧ 0 < State.reset.cascadeLimit

/-- R52, R113, R305: the invariant holds at power-on. -/
def Obligations.InvariantHoldsAtPowerOn : Prop := State.reset.Inv

/-- R52, R113, R305: every step keeps the invariant: an enabled stream's NDT never exceeds its LATCH, the selected child is an
attached one, and the transmit and receive queues hold bytes only in their states. R113's clause on NDT is the spec's
inference. -/
def Obligations.StepKeepsTheInvariant : Prop :=
  ∀ s t : State, s.Inv → step s = .next t → t.Inv

/-- R305, R443, R9: no step changes a base address, the child map, the wiring, the number of instances, or the cascade limit
(the child map's fixity is the spec's decision D50). -/
def Obligations.StepKeepsThePlatform : Prop :=
  ∀ s t : State, step s = .next t → SamePlatform s t

/-- R304, R388: no step takes back a read result, a bus access or a child call already observed (a derived property of the
histories, which the model keeps; log entry 13). -/
def Obligations.StepOnlyExtendsTheHistories : Prop :=
  ∀ s t : State, step s = .next t → HistoriesGrow s t

/-- R35: an IRQ output rises only in a sync step of its controller whose queue has that stream at its head, and falls only in
a write of the clear registers' lanes or a reset of its controller (that the line is a level with this history is the
spec's decision D22). -/
def Obligations.IrqChangesOnlyBySyncClearOrReset : Prop :=
  ∀ (s t : State) (i : Instr) (k : Nat) (d d' : Dma) (x : StreamId),
    exec i s = .next t → s.dmas[k]? = some d → t.dmas[k]? = some d' →
    (d.irq[x] = false → d'.irq[x] = true → i = .dmaSync k ∧ d.dq.head? = some x) ∧
    (d.irq[x] = true → d'.irq[x] = false →
      i = .dmaReset k ∨ (∃ v, i = .dmaWr32Lifcr k v ∨ i = .dmaWr32Hifcr k v) ∨
        ∃ o v, 0x008 ≤ o.toNat ∧ o.toNat ≤ 0x00F ∧ (i = .dmaWr8 k o v ∨ i = .dmaWr16 k o v))

/-- R32: LATCH changes only in a write of its stream's CR that enables the stream, where it takes NDT as it stood, or in a
reset of its controller. -/
def Obligations.LatchChangesOnlyAtEnableEdge : Prop :=
  ∀ (s t : State) (i : Instr) (k : Nat) (d d' : Dma) (x : StreamId),
    exec i s = .next t → s.dmas[k]? = some d → t.dmas[k]? = some d' →
    d'.streams[x].latch ≠ d.streams[x].latch →
    (i = .dmaReset k ∧ d'.streams[x].latch = 0) ∨
      (d.streams[x].en = false ∧ d'.streams[x].latch = d.streams[x].ndt ∧
        ((∃ v, i = Instr.wrStream k x .cr v) ∨
          ∃ o v, o.toNat / 4 = (0x10 + 0x18 * x.val) / 4 ∧ (i = .dmaWr8 k o v ∨ i = .dmaWr16 k o v)))

/-- R260, R383: a request event of the environment at one stream leaves every other stream that no I²C line drives exactly as
it was, whatever the transfer it starts reaches ("the rising edge of one stream never starts a transfer on another"). -/
def Obligations.RequestLeavesUnwiredStreamsAlone : Prop :=
  ∀ (s t : State) (k k' : Nat) (x y : StreamId) (v : Bool) (d d' : Dma),
    exec (.dmaReq k x v) s = .next t → (k', y) ≠ (k, x) → s.wired k' y = false →
    s.dmas[k']? = some d → t.dmas[k']? = some d' →
    d'.streams[y] = d.streams[y] ∧ d'.fin[y] = d.fin[y] ∧ d'.irq[y] = d.irq[y] ∧ (y ∈ d'.dq ↔ y ∈ d.dq)
end

