-- ==== Sys2Proof/Laws/State.lean ====
section
/-! SUPPORT. The small lemmas of the state's updates: one per field and update, true by rfl, and reads after writes of
streams, finished bits and instances. -/

namespace Sys2Proof.Machine

/-! ### State.modDma, State.modI2c, State.addResult, State.present -/

@[simp] theorem State.modDma_dmas (k f) (s : State) : (s.modDma k f).dmas = s.dmas.modify k f := rfl
@[simp] theorem State.modDma_i2cs (k f) (s : State) : (s.modDma k f).i2cs = s.i2cs := rfl
@[simp] theorem State.modDma_cascadeLimit (k f) (s : State) : (s.modDma k f).cascadeLimit = s.cascadeLimit := rfl
@[simp] theorem State.modDma_ops (k f) (s : State) : (s.modDma k f).ops = s.ops := rfl
@[simp] theorem State.modDma_results (k f) (s : State) : (s.modDma k f).results = s.results := rfl
@[simp] theorem State.modDma_bus (k f) (s : State) : (s.modDma k f).bus = s.bus := rfl
@[simp] theorem State.modDma_child (k f) (s : State) : (s.modDma k f).child = s.child := rfl

@[simp] theorem State.modI2c_dmas (j f) (s : State) : (s.modI2c j f).dmas = s.dmas := rfl
@[simp] theorem State.modI2c_i2cs (j f) (s : State) : (s.modI2c j f).i2cs = s.i2cs.modify j f := rfl
@[simp] theorem State.modI2c_cascadeLimit (j f) (s : State) : (s.modI2c j f).cascadeLimit = s.cascadeLimit := rfl
@[simp] theorem State.modI2c_ops (j f) (s : State) : (s.modI2c j f).ops = s.ops := rfl
@[simp] theorem State.modI2c_results (j f) (s : State) : (s.modI2c j f).results = s.results := rfl
@[simp] theorem State.modI2c_bus (j f) (s : State) : (s.modI2c j f).bus = s.bus := rfl
@[simp] theorem State.modI2c_child (j f) (s : State) : (s.modI2c j f).child = s.child := rfl

@[simp] theorem State.addResult_dmas (n v) (s : State) : (s.addResult n v).dmas = s.dmas := rfl
@[simp] theorem State.addResult_i2cs (n v) (s : State) : (s.addResult n v).i2cs = s.i2cs := rfl
@[simp] theorem State.addResult_cascadeLimit (n v) (s : State) : (s.addResult n v).cascadeLimit = s.cascadeLimit := rfl
@[simp] theorem State.addResult_ops (n v) (s : State) : (s.addResult n v).ops = s.ops := rfl
@[simp] theorem State.addResult_results (n v) (s : State) : (s.addResult n v).results = s.results ++ [⟨n, v⟩] := rfl
@[simp] theorem State.addResult_bus (n v) (s : State) : (s.addResult n v).bus = s.bus := rfl
@[simp] theorem State.addResult_child (n v) (s : State) : (s.addResult n v).child = s.child := rfl

@[simp] theorem State.present_dmas (s : State) (p) : (s.present p).dmas = s.dmas := rfl
@[simp] theorem State.present_i2cs (s : State) (p) : (s.present p).i2cs = s.i2cs := rfl
@[simp] theorem State.present_cascadeLimit (s : State) (p) : (s.present p).cascadeLimit = s.cascadeLimit := rfl
@[simp] theorem State.present_ops (s : State) (p) : (s.present p).ops = p :: s.ops := rfl
@[simp] theorem State.present_results (s : State) (p) : (s.present p).results = s.results := rfl
@[simp] theorem State.present_bus (s : State) (p) : (s.present p).bus = s.bus := rfl
@[simp] theorem State.present_child (s : State) (p) : (s.present p).child = s.child := rfl

/-! ### Work -/

@[simp] theorem Work.modDma_st (k f) (w : Work) : (w.modDma k f).st = w.st.modDma k f := rfl
@[simp] theorem Work.modDma_pending (k f) (w : Work) : (w.modDma k f).pending = w.pending := rfl

@[simp] theorem Work.logBus_pending (x) (w : Work) : (w.logBus x).pending = w.pending := rfl
@[simp] theorem Work.logBus_dmas (x) (w : Work) : (w.logBus x).st.dmas = w.st.dmas := rfl
@[simp] theorem Work.logBus_i2cs (x) (w : Work) : (w.logBus x).st.i2cs = w.st.i2cs := rfl
@[simp] theorem Work.logBus_cascadeLimit (x) (w : Work) : (w.logBus x).st.cascadeLimit = w.st.cascadeLimit := rfl
@[simp] theorem Work.logBus_ops (x) (w : Work) : (w.logBus x).st.ops = w.st.ops := rfl
@[simp] theorem Work.logBus_results (x) (w : Work) : (w.logBus x).st.results = w.st.results := rfl
@[simp] theorem Work.logBus_child (x) (w : Work) : (w.logBus x).st.child = w.st.child := rfl
@[simp] theorem Work.logBus_log (x) (w : Work) : (w.logBus x).st.bus.log = w.st.bus.log ++ [x] := rfl
@[simp] theorem Work.logBus_answers (x) (w : Work) : (w.logBus x).st.bus.answers = w.st.bus.answers := rfl
@[simp] theorem Work.logBus_draws (x) (w : Work) : (w.logBus x).st.bus.draws = w.st.bus.draws := rfl

@[simp] theorem Work.commitI2c_pending (j c c' e') (w : Work) :
    (w.commitI2c j c c' e').pending = w.pending ++ lineEvents c c' := rfl
@[simp] theorem Work.commitI2c_dmas (j c c' e') (w : Work) : (w.commitI2c j c c' e').st.dmas = w.st.dmas := rfl
@[simp] theorem Work.commitI2c_i2cs (j c c' e') (w : Work) :
    (w.commitI2c j c c' e').st.i2cs = w.st.i2cs.set j c' := rfl
@[simp] theorem Work.commitI2c_cascadeLimit (j c c' e') (w : Work) :
    (w.commitI2c j c c' e').st.cascadeLimit = w.st.cascadeLimit := rfl
@[simp] theorem Work.commitI2c_ops (j c c' e') (w : Work) : (w.commitI2c j c c' e').st.ops = w.st.ops := rfl
@[simp] theorem Work.commitI2c_results (j c c' e') (w : Work) :
    (w.commitI2c j c c' e').st.results = w.st.results := rfl
@[simp] theorem Work.commitI2c_bus (j c c' e') (w : Work) : (w.commitI2c j c c' e').st.bus = w.st.bus := rfl
@[simp] theorem Work.commitI2c_child (j c c' e') (w : Work) : (w.commitI2c j c c' e').st.child = e' := rfl

/-! ### Streams of a DMA controller -/

@[simp] theorem Dma.modStream_site (x f) (d : Dma) : (d.modStream x f).site = d.site := rfl
@[simp] theorem Dma.modStream_fin (x f) (d : Dma) : (d.modStream x f).fin = d.fin := rfl
@[simp] theorem Dma.modStream_irq (x f) (d : Dma) : (d.modStream x f).irq = d.irq := rfl
@[simp] theorem Dma.modStream_dq (x f) (d : Dma) : (d.modStream x f).dq = d.dq := rfl

/-- A changed stream reads as the change gives it. -/
@[simp] theorem Dma.modStream_self (x : StreamId) (f) (d : Dma) : (d.modStream x f).streams[x] = f d.streams[x] := by
  simp [Dma.modStream]

/-- A change of one stream leaves every other stream. -/
theorem Dma.modStream_other {x y : StreamId} (h : x ≠ y) (f) (d : Dma) :
    (d.modStream x f).streams[y] = d.streams[y] := by
  simpa [Dma.modStream] using Vector.getElem_set_ne _ _ (fun e => h (Fin.ext e))

@[simp] theorem Dma.complete_site (x) (d : Dma) : (d.complete x).site = d.site := rfl
@[simp] theorem Dma.complete_streams (x) (d : Dma) : (d.complete x).streams = d.streams := rfl
@[simp] theorem Dma.complete_irq (x) (d : Dma) : (d.complete x).irq = d.irq := rfl
@[simp] theorem Dma.complete_dq (x) (d : Dma) :
    (d.complete x).dq = if d.streams[x].tcie then d.dq ++ [x] else d.dq := rfl

@[simp] theorem Dma.clearFinished_site (x) (d : Dma) : (d.clearFinished x).site = d.site := rfl
@[simp] theorem Dma.clearFinished_streams (x) (d : Dma) : (d.clearFinished x).streams = d.streams := rfl
@[simp] theorem Dma.clearFinished_dq (x) (d : Dma) : (d.clearFinished x).dq = d.dq := rfl

@[simp] theorem Dma.clearIf_site (v x) (d : Dma) : (d.clearIf v x).site = d.site := by
  unfold Dma.clearIf; split <;> rfl
@[simp] theorem Dma.clearIf_streams (v x) (d : Dma) : (d.clearIf v x).streams = d.streams := by
  unfold Dma.clearIf; split <;> rfl
@[simp] theorem Dma.clearIf_dq (v x) (d : Dma) : (d.clearIf v x).dq = d.dq := by
  unfold Dma.clearIf; split <;> rfl

@[simp] theorem Dma.createRequestFailure_site (x) (d : Dma) : (d.createRequestFailure x).site = d.site := rfl
@[simp] theorem Dma.finishBurst_site (x) (d : Dma) : (d.finishBurst x).site = d.site := rfl
@[simp] theorem Dma.finishItem_site (x) (d : Dma) : (d.finishItem x).site = d.site := by
  unfold Dma.finishItem; split <;> rfl
@[simp] theorem Dma.finishBurst_irq (x) (d : Dma) : (d.finishBurst x).irq = d.irq := rfl
@[simp] theorem Dma.finishItem_irq (x) (d : Dma) : (d.finishItem x).irq = d.irq := by
  unfold Dma.finishItem; split <;> rfl
@[simp] theorem Dma.reset_site (t : DmaSite) : (Dma.reset t).site = t := rfl
@[simp] theorem Dma.sync_site (d : Dma) : d.sync.site = d.site := by unfold Dma.sync; split <;> rfl
@[simp] theorem Dma.sync_streams (d : Dma) : d.sync.streams = d.streams := by unfold Dma.sync; split <;> rfl
@[simp] theorem Dma.sync_fin (d : Dma) : d.sync.fin = d.fin := by unfold Dma.sync; split <;> rfl

/-! ### Instances -/

/-- The stored parameters of every instance survive a change that keeps them. -/
theorem map_site_modify {f : Dma → Dma} (h : ∀ d, (f d).site = d.site) (k : Nat) (l : List Dma) :
    (l.modify k f).map Dma.site = l.map Dma.site := by
  induction l generalizing k with
  | nil => simp
  | cons d l ih => cases k <;> simp [h, ih]

/-- Changing an instance that exists stores the changed instance. -/
theorem modify_eq_set {α : Type} {l : List α} {k : Nat} {a : α} (f : α → α) (h : l[k]? = some a) :
    l.modify k f = l.set k (f a) := by
  induction l generalizing k with
  | nil => simp at h
  | cons b l ih =>
    cases k with
    | zero => simp at h; simp [h]
    | succ k => simp at h; simp [ih h]

/-- `modDma` of an instance that exists stores the changed instance. -/
theorem State.modDma_eq {s : State} {k : Nat} {d : Dma} (f : Dma → Dma) (h : s.dmas[k]? = some d) :
    s.modDma k f = { s with dmas := s.dmas.set k (f d) } := by
  simp [State.modDma, modify_eq_set f h]

/-- Storing an instance where it already stands changes nothing. -/
theorem set_self {α : Type} {l : List α} {k : Nat} {a : α} (h : l[k]? = some a) : l.set k a = l := by
  induction l generalizing k with
  | nil => simp
  | cons b l ih =>
    cases k with
    | zero => simp at h; simp [h]
    | succ k => simp at h; simp [ih h]

/-- Storing an I²C instance with the same parameters keeps the list of parameters. -/
theorem map_site_set {c c' : I2c} {j : Nat} {l : List I2c} (hc : l[j]? = some c) (h : c'.site = c.site) :
    (l.set j c').map I2c.site = l.map I2c.site := by
  induction l generalizing j with
  | nil => simp
  | cons b l ih =>
    cases j with
    | zero => simp at hc; simp [hc, h]
    | succ j => simp at hc; simp [ih hc]

end Sys2Proof.Machine
end

