-- ==== Sys2Proof/Laws/Ops.lean ====
section
/-! SUPPORT. For each shared operation, one lemma that says everything it can do when it answers; proofs about steps cite
these instead of unfolding the operations. -/

namespace Sys2Proof.Machine

/-! ### Child calls and I²C actions -/

@[simp] theorem Children.draw_calls (e : Children) : e.draw.2.calls = e.calls := by
  unfold Children.draw; split <;> rfl

@[simp] theorem childCall_calls (j a op) (e : Children) :
    (childCall j a op e).2.calls = e.calls ++ [⟨j, a, op, answerOf op e.draw.1⟩] := by
  simp [childCall]

/-- A `ChildWrite` either empties `TXQ` or aborts; it is one call. -/
theorem deliverTx_cases (j a c) (e : Children) :
    (deliverTx j a c e).2.2 = (childCall j a (.write c.txq) e).2 ∧
      ((deliverTx j a c e).1 = true ∧ (deliverTx j a c e).2.1 = { c with txq := [] } ∨
        (deliverTx j a c e).1 = false ∧ (deliverTx j a c e).2.1 = c.abort) := by
  unfold deliverTx; split <;> simp

/-- A `FinishTransmission` either changes nothing or aborts; it is one call. -/
theorem deliverFinish_cases (j a c) (e : Children) :
    (deliverFinish j a c e).2.2 = (childCall j a .finish e).2 ∧
      ((deliverFinish j a c e).1 = true ∧ (deliverFinish j a c e).2.1 = c ∨
        (deliverFinish j a c e).1 = false ∧ (deliverFinish j a c e).2.1 = c.abort) := by
  unfold deliverFinish; split <;> simp

/-- What the controller can be after EndTransaction: as it was with `TXQ` empty, or aborted (R317). -/
theorem endTransaction_cases (j c) (e : Children) :
    (endTransaction j c e).1 = true ∧
        ((endTransaction j c e).2.1 = { c with txq := [] } ∨ c.sel = none ∧ (endTransaction j c e).2.1 = c) ∨
      (endTransaction j c e).1 = false ∧ (endTransaction j c e).2.1 = c.abort := by
  unfold endTransaction
  split
  · next h => simp [h]
  · next a h =>
    split
    · next hq =>
      obtain ⟨-, ⟨h1, h2⟩ | ⟨h1, h2⟩⟩ := deliverFinish_cases j a c e
      · exact .inl ⟨h1, .inl (by rw [h2, ← hq])⟩
      · exact .inr ⟨h1, h2⟩
    · obtain ⟨-, ⟨h1, h2⟩ | ⟨h1, h2⟩⟩ := deliverTx_cases j a c e
      · split
        · next c' e' he =>
          rw [he] at h1 h2
          obtain rfl : c' = { c with txq := [] } := h2
          obtain ⟨-, ⟨h3, h4⟩ | ⟨h3, h4⟩⟩ := deliverFinish_cases j a { c with txq := [] } e'
          · exact .inl ⟨h3, .inl h4⟩
          · exact .inr ⟨h3, h4⟩
        · next c' e' he => rw [he] at h1; simp at h1
      · split
        · next c' e' he => rw [he] at h1; simp at h1
        · next c' e' he => rw [he] at h2; exact .inr ⟨rfl, h2⟩

/-- EndTransaction only adds to the call history. -/
theorem endTransaction_calls (j c) (e : Children) : e.calls <+: (endTransaction j c e).2.2.calls := by
  unfold endTransaction
  split
  · simp
  · next a h =>
    split
    · rw [(deliverFinish_cases j a c e).1]; simp
    · split
      · next c' e' he =>
        have h1 := (deliverTx_cases j a c e).1
        rw [he] at h1
        rw [(deliverFinish_cases j a c' e').1, childCall_calls, show e' = _ from h1, childCall_calls]
        simp
      · next c' e' he =>
        have h1 := (deliverTx_cases j a c e).1
        rw [he] at h1
        rw [show e' = _ from h1]; simp

@[simp] theorem I2c.abort_site (c : I2c) : c.abort.site = c.site := rfl
@[simp] theorem I2c.stopped_site (c : I2c) : c.stopped.site = c.site := rfl
@[simp] theorem I2c.softReset_site (c : I2c) : c.softReset.site = c.site := rfl
@[simp] theorem I2c.reset_site (t : I2cSite) : (I2c.reset t).site = t := rfl

@[simp] theorem endTransaction_site (j c) (e : Children) : (endTransaction j c e).2.1.site = c.site := by
  obtain ⟨-, h | ⟨-, h⟩⟩ | ⟨-, h⟩ := endTransaction_cases j c e <;> rw [h] <;> rfl

/-- The three ends of a repeated START: the new address phase, or the abort (R306). -/
theorem repeatedStart_cases (j c) (e : Children) :
    (repeatedStart j c e).2 = (endTransaction j c e).2.2 ∧
      ((repeatedStart j c e).1 =
          { (endTransaction j c e).2.1 with rxq := [], sel := none, st := .awaitingAddress } ∧
          (endTransaction j c e).1 = true ∨
        (repeatedStart j c e).1 = c.abort ∧ (endTransaction j c e).1 = false) := by
  unfold repeatedStart
  have h := endTransaction_cases j c e
  split
  · next c' e' he => simp [he]
  · next c' e' he => rw [he] at h; simp at h; simp [he, h]

/-- What StartCondition can leave (R306). -/
theorem startCondition_cases (j c) (e : Children) :
    (startCondition j c e = ({ c with st := .awaitingAddress }, e) ∧ c.st = .idle) ∨
      (startCondition j c e = (c, e) ∧ c.st = .awaitingAddress) ∨
      (startCondition j c e = repeatedStart j c e ∧ c.st ≠ .idle ∧ c.st ≠ .awaitingAddress) := by
  unfold startCondition; split <;> simp_all

/-- What StopCondition can leave (R307). -/
theorem stopCondition_cases (j c) (e : Children) :
    (stopCondition j c e = (c.stopped, e) ∧ c.sel = none) ∨
      ((stopCondition j c e).2 = (endTransaction j c e).2.2 ∧ c.sel ≠ none ∧
        ((stopCondition j c e).1 = (endTransaction j c e).2.1.stopped ∧ (endTransaction j c e).1 = true ∨
          (stopCondition j c e).1 = c.abort ∧ (endTransaction j c e).1 = false)) := by
  unfold stopCondition
  split
  · next h => exact .inl ⟨rfl, h⟩
  · next a h =>
    have hc := endTransaction_cases j c e
    refine .inr ?_
    split
    · next c' e' he => simp [he, h]
    · next c' e' he => rw [he] at hc; simp at hc; simp [he, hc, h]

@[simp] theorem startCondition_site (j c) (e : Children) : (startCondition j c e).1.site = c.site := by
  obtain ⟨h, -⟩ | ⟨h, -⟩ | ⟨h, -⟩ := startCondition_cases j c e
  · rw [h]
  · rw [h]
  · rw [h]; obtain ⟨-, ⟨h', -⟩ | ⟨h', -⟩⟩ := repeatedStart_cases j c e <;> (rw [h']; simp)

@[simp] theorem stopCondition_site (j c) (e : Children) : (stopCondition j c e).1.site = c.site := by
  obtain ⟨h, -⟩ | ⟨-, -, ⟨h, -⟩ | ⟨h, -⟩⟩ := stopCondition_cases j c e <;> rw [h] <;> simp

theorem startCondition_calls (j c) (e : Children) : e.calls <+: (startCondition j c e).2.calls := by
  obtain ⟨h, -⟩ | ⟨h, -⟩ | ⟨h, -⟩ := startCondition_cases j c e <;> rw [h]
  rw [(repeatedStart_cases j c e).1]; exact endTransaction_calls j c e

theorem stopCondition_calls (j c) (e : Children) : e.calls <+: (stopCondition j c e).2.calls := by
  obtain ⟨h, -⟩ | ⟨h, -⟩ := stopCondition_cases j c e
  · rw [h]
  · rw [h]; exact endTransaction_calls j c e

@[simp] theorem cr1Actions_site (j v c) (e : Children) : (cr1Actions j v c e).1.site = c.site := by
  unfold cr1Actions; simp only []; split <;> split <;> split <;> simp

theorem cr1Actions_calls (j v c) (e : Children) : e.calls <+: (cr1Actions j v c e).2.calls := by
  unfold cr1Actions
  simp only []
  split <;> split <;> split <;>
    first
      | exact List.prefix_rfl
      | exact startCondition_calls j c e
      | exact stopCondition_calls j c e
      | exact (startCondition_calls j c e).trans (stopCondition_calls j _ _)

@[simp] theorem i2cWriteReg_site (j r v c) (e : Children) : (i2cWriteReg j r v c e).1.site = c.site := by
  unfold i2cWriteReg
  split
  · simp
  · rfl
  · simp only [I2c.writeDr]
    split <;> first | rfl | (unfold I2c.addressWrite; split <;> rfl)
  · simp only [I2c.writeSr1]; split <;> rfl
  · rfl
  · rfl

theorem i2cWriteReg_calls (j r v c) (e : Children) : e.calls <+: (i2cWriteReg j r v c e).2.calls := by
  unfold i2cWriteReg
  split <;> first | exact List.prefix_rfl | exact cr1Actions_calls j v _ e

@[simp] theorem I2c.dataRead_site (c : I2c) : c.dataRead.2.site = c.site := by
  unfold I2c.dataRead; split <;> rfl

@[simp] theorem I2c.readReg_site (r) (c : I2c) : (c.readReg r).2.site = c.site := by
  unfold I2c.readReg
  split
  · rfl
  · rfl
  · unfold I2c.readDr; split <;> simp
  · simp only [I2c.readSr1, I2c.sr1ReadStep]; split <;> rfl
  · simp only [I2c.readSr2, I2c.sr2ReadStep]; split <;> (try split) <;> rfl
  · rfl

@[simp] theorem I2c.readAt_site (n o) (c : I2c) : (c.readAt n o).2.site = c.site := by simp [I2c.readAt]

@[simp] theorem i2cWriteAt_site (j n o v c) (e : Children) : (i2cWriteAt j n o v c e).1.site = c.site := by
  unfold i2cWriteAt; split <;> simp

theorem i2cWriteAt_calls (j n o v c) (e : Children) : e.calls <+: (i2cWriteAt j n o v c e).2.calls := by
  unfold i2cWriteAt; split
  · exact i2cWriteReg_calls ..
  · exact List.prefix_rfl

/-- What a pull can leave: nothing changed, the batch appended, or an abort (R314). -/
theorem pullAction_cases (j c) (e : Children) :
    pullAction j c e = (c, e) ∨
      ∃ a, c.st = .receivingData ∧ c.sel = some a ∧ (pullAction j c e).2 = (childCall j a .read e).2 ∧
        ((∃ bytes, (childCall j a .read e).1 = some bytes ∧
            (pullAction j c e).1 = { c with rxq := c.rxq ++ bytes }) ∨
          (childCall j a .read e).1 = none ∧ (pullAction j c e).1 = c.abort) := by
  unfold pullAction
  split
  · next a hs ha =>
    refine .inr ⟨a, hs, ha, ?_⟩
    split
    · next b hb => exact ⟨rfl, .inl ⟨b, hb, rfl⟩⟩
    · next hb => exact ⟨rfl, .inr ⟨hb, rfl⟩⟩
  · exact .inl rfl

/-- What a flush can leave: nothing changed, `TXQ` empty, or an abort (R315). -/
theorem flushAction_cases (j c) (e : Children) :
    flushAction j c e = (c, e) ∨
      ∃ a, c.txq ≠ [] ∧ c.sel = some a ∧ (flushAction j c e).2 = (childCall j a (.write c.txq) e).2 ∧
        ((flushAction j c e).1 = { c with txq := [] } ∨ (flushAction j c e).1 = c.abort) := by
  unfold flushAction
  split
  · next b bs a hq ha =>
    obtain ⟨h1, h2⟩ := deliverTx_cases j a c e
    exact .inr ⟨a, by simp [hq], ha, h1, h2.imp And.right And.right⟩
  · exact .inl rfl

@[simp] theorem i2cSyncAction_site (j c) (e : Children) : (i2cSyncAction j c e).1.site = c.site := by
  unfold i2cSyncAction
  split
  · rfl
  · next rest _ =>
    obtain h | ⟨a, -, -, -, ⟨b, -, h⟩ | ⟨-, h⟩⟩ := pullAction_cases j { c with dq := rest } e <;> rw [h] <;> rfl
  · next rest _ =>
    obtain h | ⟨a, -, -, -, h | h⟩ := flushAction_cases j { c with dq := rest } e <;> rw [h] <;> rfl

theorem i2cSyncAction_calls (j c) (e : Children) : e.calls <+: (i2cSyncAction j c e).2.calls := by
  unfold i2cSyncAction
  split
  · exact List.prefix_rfl
  · next rest _ =>
    obtain h | ⟨a, -, -, h, -⟩ := pullAction_cases j { c with dq := rest } e <;> rw [h] <;> simp
  · next rest _ =>
    obtain h | ⟨a, -, -, h, -⟩ := flushAction_cases j { c with dq := rest } e <;> rw [h] <;> simp

/-! ### Routing and copies -/

theorem findI2c_some {a : Word} {j0 j : Nat} {l : List I2c} {c : I2c} (h : findI2c a j0 l = some (j, c)) :
    j0 ≤ j ∧ l[j - j0]? = some c ∧ inWindow c.site.page a = true := by
  induction l generalizing j0 with
  | nil => simp [findI2c] at h
  | cons b l ih =>
    unfold findI2c at h
    split at h
    · next hb => simp at h; obtain ⟨rfl, rfl⟩ := h; simp [hb]
    · obtain ⟨h1, h2, h3⟩ := ih h
      refine ⟨by omega, ?_, h3⟩
      rw [show j - j0 = (j - (j0 + 1)) + 1 by omega]
      simpa using h2

theorem findI2c_none {a : Word} {j0 : Nat} {l : List I2c} :
    findI2c a j0 l = none ↔ ∀ c ∈ l, inWindow c.site.page a = false := by
  induction l generalizing j0 with
  | nil => simp [findI2c]
  | cons b l ih => unfold findI2c; split <;> simp_all

/-- An access routed to an I²C instance lies in its window (R380). -/
theorem State.route_i2c {s : State} {a : Word} {n : Width} {j : Nat} {c : I2c} (h : s.route a n = .i2c j c) :
    s.i2cs[j]? = some c ∧ inWindow c.site.page a = true := by
  unfold State.route at h
  split at h
  · next hf => simp at h; obtain ⟨rfl, rfl⟩ := h; simpa using (findI2c_some hf).2
  · split at h
    · simp at h
    · split at h <;> simp at h

/-- An access routed to the system bus lies outside every window and straddles none (R380). -/
theorem State.route_bus {s : State} {a : Word} {n : Width} :
    s.route a n = .bus ↔
      (∀ c ∈ s.i2cs, inWindow c.site.page a = false) ∧ s.inDmaWindow a = false ∧ s.straddles a n = false := by
  unfold State.route
  split
  · next hf =>
    have := findI2c_some hf
    simp only [reduceCtorEq, false_iff, not_and]
    intro h
    have := h _ (List.mem_of_getElem? this.2.1)
    simp_all
  · next hf =>
    rw [findI2c_none] at hf
    split
    · simp_all
    · split <;> simp_all

/-- What a DMA read can do when it answers: a draw of the bus, or a read transaction of an I²C controller (R380). -/
theorem memRead_ok {k a n w v w'} (h : memRead k a n w = .ok (v, w')) :
    (w.st.route a n = .bus ∧ v = clip n w.st.bus.draw.1 ∧
        w' = Work.logBus (.read k a n v) { w with st := { w.st with bus := w.st.bus.draw.2 } }) ∨
      ∃ j c, w.st.route a n = .i2c j c ∧ aligned n (offsetIn c.site.page a) = true ∧
        v = (c.readAt n (offsetIn c.site.page a)).1 ∧
        w' = (w.logBus (.read k a n v)).commitI2c j c (c.readAt n (offsetIn c.site.page a)).2 w.st.child := by
  unfold memRead at h
  split at h
  · next j c hr =>
    split at h
    · next ha => simp at h; obtain ⟨rfl, rfl⟩ := h; exact .inr ⟨j, c, hr, ha, rfl, rfl⟩
    · simp at h
  · simp at h
  · simp at h
  · next hr => simp at h; obtain ⟨rfl, rfl⟩ := h; exact .inl ⟨hr, rfl, rfl⟩

/-- What a DMA write can do when it answers: a write on the bus, or a write transaction of an I²C controller (R380). -/
theorem memWrite_ok {k a n v w w'} (h : memWrite k a n v w = .ok w') :
    (w.st.route a n = .bus ∧ w' = w.logBus (.write k a n v)) ∨
      ∃ j c, w.st.route a n = .i2c j c ∧ aligned n (offsetIn c.site.page a) = true ∧
        w' = (w.logBus (.write k a n v)).commitI2c j c
          (i2cWriteAt j n (offsetIn c.site.page a) v c w.st.child).1
          (i2cWriteAt j n (offsetIn c.site.page a) v c w.st.child).2 := by
  unfold memWrite at h
  split at h
  · next j c hr =>
    split at h
    · next ha => simp at h; exact .inr ⟨j, c, hr, ha, h.symm⟩
    · simp at h
  · simp at h
  · simp at h
  · next hr => simp at h; exact .inl ⟨hr, h.symm⟩

/-- An item copy is a read and then a write of the value read (R266). -/
theorem copyItem_ok {k a b n w w'} (h : copyItem k a b n w = .ok w') :
    ∃ v w₁, memRead k a n w = .ok (v, w₁) ∧ memWrite k b n v w₁ = .ok w' := by
  unfold copyItem at h
  split at h
  · next v w₁ hr => exact ⟨v, w₁, hr, h⟩
  · simp at h

/-- What every bus access and every copy leaves: the DMA controllers, the operations, the read results and the platform;
the histories only grow. -/
structure CopyFrame (w w' : Work) : Prop where
  dmas : w'.st.dmas = w.st.dmas
  ops : w'.st.ops = w.st.ops
  results : w'.st.results = w.st.results
  cascadeLimit : w'.st.cascadeLimit = w.st.cascadeLimit
  i2cSites : w'.st.i2cs.map I2c.site = w.st.i2cs.map I2c.site
  log : w.st.bus.log <+: w'.st.bus.log
  calls : w.st.child.calls <+: w'.st.child.calls

theorem CopyFrame.rfl {w : Work} : CopyFrame w w :=
  ⟨by rfl, by rfl, by rfl, by rfl, by rfl, List.prefix_rfl, List.prefix_rfl⟩

theorem CopyFrame.trans {w₁ w₂ w₃ : Work} (h : CopyFrame w₁ w₂) (h' : CopyFrame w₂ w₃) : CopyFrame w₁ w₃ :=
  ⟨h'.dmas.trans h.dmas, h'.ops.trans h.ops, h'.results.trans h.results, h'.cascadeLimit.trans h.cascadeLimit,
    h'.i2cSites.trans h.i2cSites, h.log.trans h'.log, h.calls.trans h'.calls⟩

@[simp] theorem Bus.draw_log (b : Bus) : b.draw.2.log = b.log := by unfold Bus.draw; split <;> rfl

theorem memRead_frame {k a n w v w'} (h : memRead k a n w = .ok (v, w')) : CopyFrame w w' := by
  obtain ⟨-, -, rfl⟩ | ⟨j, c, hr, -, -, rfl⟩ := memRead_ok h
  · exact ⟨rfl, rfl, rfl, rfl, rfl, by simp, by simp⟩
  · exact ⟨rfl, rfl, rfl, rfl, map_site_set (State.route_i2c hr).1 (by simp), by simp, by simp⟩

theorem memWrite_frame {k a n v w w'} (h : memWrite k a n v w = .ok w') : CopyFrame w w' := by
  obtain ⟨-, rfl⟩ | ⟨j, c, hr, -, rfl⟩ := memWrite_ok h
  · exact ⟨rfl, rfl, rfl, rfl, rfl, by simp, by simp⟩
  · exact ⟨rfl, rfl, rfl, rfl, map_site_set (State.route_i2c hr).1 (by simp), by simp, i2cWriteAt_calls ..⟩

theorem copyItem_frame {k a b n w w'} (h : copyItem k a b n w = .ok w') : CopyFrame w w' := by
  obtain ⟨v, w₁, h1, h2⟩ := copyItem_ok h
  exact (memRead_frame h1).trans (memWrite_frame h2)

theorem copyItems_frame {k m count i w w'} (h : copyItems k m count i w = .ok w') : CopyFrame w w' := by
  induction count generalizing i w with
  | zero => simp [copyItems] at h; exact h ▸ CopyFrame.rfl
  | succ n ih =>
    simp only [copyItems] at h
    split at h
    · next w₁ h1 => exact (copyItem_frame h1).trans (ih h)
    · simp at h

/-! ### The transfer engine -/

/-- What a dispatched transfer can do when it answers: the CreateRequest failure (R263), a whole burst (R264), or one
item (R265); the reserved direction never answers (R270). -/
theorem selectTransfer_ok {k x m w w'} (h : selectTransfer k x m w = .ok w') :
    m.dir ≠ 3#2 ∧
      ((m.ndt = 0 ∧ w' = w.modDma k (Dma.createRequestFailure x)) ∨
        (m.ndt ≠ 0 ∧ m.dir = 2#2 ∧
          ∃ w₁, copyItems k m m.ndt.toNat 0 w = .ok w₁ ∧ w' = w₁.modDma k (Dma.finishBurst x)) ∨
        (m.ndt ≠ 0 ∧ m.dir ≠ 2#2 ∧
          ∃ w₁, copyItem k (srcAddr m 0) (dstAddr m 0) (copyWidth m) w = .ok w₁ ∧
            w' = w₁.modDma k (Dma.finishItem x))) := by
  unfold selectTransfer at h
  split at h
  · simp at h
  · next h3 =>
    refine ⟨h3, ?_⟩
    split at h
    · next h2 =>
      unfold doMemoryTransfer at h
      split at h
      · next h0 => simp at h; exact .inl ⟨h0, h.symm⟩
      · next h0 =>
        split at h
        · next w₁ hc => simp at h; exact .inr (.inl ⟨h0, h2, w₁, hc, h.symm⟩)
        · simp at h
    · next h2 =>
      unfold doPeripheralTransfer at h
      split at h
      · next h0 => simp at h; exact .inl ⟨h0, h.symm⟩
      · next h0 =>
        split at h
        · next w₁ hc => simp at h; exact .inr (.inr ⟨h0, h2, w₁, hc, h.symm⟩)
        · simp at h

/-- What DMA_REQ can do when it answers (R260). -/
theorem dmaReq_ok {k x v w w'} (h : dmaReq k x v w = .ok w') :
    ∃ d, w.st.dmas[k]? = some d ∧
      let w₁ := w.modDma k fun d => d.modStream x fun m => { m with req := v }
      ((d.streams[x].req = false ∧ v = true ∧ d.streams[x].en = true ∧
          selectTransfer k x { d.streams[x] with req := v } w₁ = .ok w') ∨
        (¬(d.streams[x].req = false ∧ v = true ∧ d.streams[x].en = true) ∧ w' = w₁)) := by
  unfold dmaReq at h
  split at h
  · simp at h
  · next d hd =>
    refine ⟨d, hd, ?_⟩
    simp only [] at h
    split at h
    · next hc => simp at hc; exact .inl ⟨hc.1.1, hc.1.2, hc.2, h⟩
    · next hc => simp at hc h; exact .inr ⟨fun ⟨h1, h2, h3⟩ => by simp_all, h.symm⟩

/-- What a write of SxCR can do when it answers (R221–R223). -/
theorem writeStreamCr_ok {k x v w w'} (h : writeStreamCr k x v w = .ok w') :
    ∃ d, w.st.dmas[k]? = some d ∧
      let m := d.streams[x].storeCr v
      ((d.streams[x].en = false ∧ v.getLsbD 0 = true ∧ m.dir = 2#2 ∧ m.req = true ∧
          selectTransfer k x m.latchNdt (w.modDma k fun d => d.modStream x fun _ => m.latchNdt) = .ok w') ∨
        (d.streams[x].en = false ∧ v.getLsbD 0 = true ∧ ¬(m.dir = 2#2 ∧ m.req = true) ∧
          w' = w.modDma k fun d => d.modStream x fun _ => m.latchNdt) ∨
        (¬(d.streams[x].en = false ∧ v.getLsbD 0 = true) ∧ w' = w.modDma k fun d => d.modStream x fun _ => m)) := by
  unfold writeStreamCr at h
  split at h
  · simp at h
  · next d hd =>
    refine ⟨d, hd, ?_⟩
    simp only [] at h
    split at h
    · next hc =>
      simp at hc
      split at h
      · next h2 => exact .inl ⟨hc.1, hc.2, h2.1, h2.2, h⟩
      · next h2 => simp at h; exact .inr (.inl ⟨hc.1, hc.2, h2, h.symm⟩)
    · next hc => simp at hc h; exact .inr (.inr ⟨fun ⟨h1, h2⟩ => by simp_all, h.symm⟩)

/-! ### The cascade and the frames of an operation -/

/-- A property of the state that every delivered line event keeps is kept by the whole cascade (R382). -/
theorem deliver_keeps {P : State → Prop}
    (hreq : ∀ k x v w w', dmaReq k x v w = .ok w' → P w.st → P w'.st) {n : Nat} {w : Work} {t : State}
    (h : deliver n w = .ok t) (hw : P w.st) : P t := by
  induction n generalizing w with
  | zero =>
    obtain ⟨s, _ | ⟨v, rest⟩⟩ := w
    · simp [deliver] at h; exact h ▸ hw
    · simp [deliver] at h
  | succ n ih =>
    obtain ⟨s, _ | ⟨v, rest⟩⟩ := w
    · simp [deliver] at h; exact h ▸ hw
    · simp only [deliver] at h
      split at h
      · next w₁ h1 => exact ih h (hreq _ _ _ _ _ h1 hw)
      · simp at h

@[simp] theorem deliver_nil (n : Nat) (s : State) : deliver n ⟨s, []⟩ = .ok s := by cases n <;> rfl

/-- An operation without line events ends at once. -/
@[simp] theorem settle_nil (s : State) : settle (.ok ⟨s, []⟩) = .next s := by simp [settle]

/-- An operation that answers next did its work and delivered every event. -/
theorem settle_next {p : Except Refusal Work} {t : State} (h : settle p = .next t) :
    ∃ w, p = .ok w ∧ deliver w.st.cascadeLimit w = .ok t := by
  unfold settle at h
  split at h
  · simp at h
  · next w =>
    split at h
    · next s hs => simp at h; exact ⟨w, rfl, h ▸ hs⟩
    · simp at h

theorem onDma_next {k s f} {t : State} (h : onDma k s f = .next t) : ∃ d, s.dmas[k]? = some d ∧ f d = .next t := by
  unfold onDma at h
  split at h
  · next d hd => exact ⟨d, hd, h⟩
  · simp at h

theorem onI2c_next {j s f} {t : State} (h : onI2c j s f = .next t) : ∃ c, s.i2cs[j]? = some c ∧ f c = .next t := by
  unfold onI2c at h
  split at h
  · next c hc => exact ⟨c, hc, h⟩
  · simp at h

end Sys2Proof.Machine
end

