-- ==== Sys2Proof/Laws/Exec.lean ====
section
/-! SUPPORT. What one step can do: every operation that answers next has one of the forms below, so that a fact about all
145 operations is proved for seven shared forms. -/

namespace Sys2Proof.Machine

/-- What an I²C action at the top of a step can make of a controller and its children: a register read or write (R340–R351),
a sync action (R352), or a reset (R441). -/
inductive I2cMove (j : Nat) (c : I2c) (e : Children) : I2c → Children → Prop where
  | same : I2cMove j c e c e
  | read (r : I2cReg) : I2cMove j c e (c.readReg r).2 e
  | write (r : I2cReg) (v : Word) : I2cMove j c e (i2cWriteReg j r v c e).1 (i2cWriteReg j r v c e).2
  | sync : I2cMove j c e (i2cSyncAction j c e).1 (i2cSyncAction j c e).2
  | reset : I2cMove j c e (I2c.reset c.site) e

theorem I2cMove.site {j c e c' e'} (h : I2cMove j c e c' e') : c'.site = c.site := by
  cases h <;> simp

theorem I2cMove.calls {j c e c' e'} (h : I2cMove j c e c' e') : e.calls <+: e'.calls := by
  cases h with
  | same => exact List.prefix_rfl
  | read r => exact List.prefix_rfl
  | write r v => exact i2cWriteReg_calls ..
  | sync => exact i2cSyncAction_calls ..
  | reset => exact List.prefix_rfl

/-- The forms of an operation that answers next. -/
inductive StepForm (s t : State) : Prop where
  /-- A read of the DMA window: only the result is recorded (R110). -/
  | dmaRead (n : Width) (v : Word) (h : t = s.addResult n v)
  /-- A write of the DMA window. -/
  | dmaWrite (k : Nat) (r : DmaReg) (v : Word) (h : settle (dmaWriteReg k r v ⟨s, []⟩) = .next t)
  /-- A request event on an input that no line drives (R260, R383). -/
  | request (k : Nat) (x : StreamId) (v : Bool) (hw : s.wired k x = false)
      (h : settle (dmaReq k x v ⟨s, []⟩) = .next t)
  /-- A sync step of a DMA controller (R268). -/
  | dmaSync (k : Nat) (h : t = s.modDma k Dma.sync)
  /-- A reset of a DMA controller (R440). -/
  | dmaReset (k : Nat) (h : t = s.modDma k fun d => Dma.reset d.site)
  /-- An I²C action, after a read's result is recorded. -/
  | i2c (j : Nat) (c c' : I2c) (e' : Children) (s₀ : State) (hs : s₀ = s ∨ ∃ n v, s₀ = s.addResult n v)
      (hc : s.i2cs[j]? = some c) (hm : I2cMove j c s.child c' e') (h : i2cStep j c c' e' s₀ = .next t)

theorem dmaRead32_form {k r} {s t : State} (h : dmaRead32 k r s = .next t) : StepForm s t := by
  obtain ⟨d, -, h⟩ := onDma_next h
  simp only [Host.Outcome.next.injEq] at h
  exact .dmaRead _ _ h.symm

theorem dmaWrite32_form {k r v} {s t : State} (h : dmaWrite32 k r v s = .next t) : StepForm s t := by
  obtain ⟨d, -, h⟩ := onDma_next h
  exact .dmaWrite _ _ _ h

theorem dmaReadAt_form {k n o} {s t : State} (h : dmaReadAt k n o s = .next t) : StepForm s t := by
  unfold dmaReadAt at h
  split at h
  · obtain ⟨d, -, h⟩ := onDma_next h
    simp only [Host.Outcome.next.injEq] at h
    exact .dmaRead _ _ h.symm
  · simp at h

theorem dmaWriteAt_form {k n o v} {s t : State} (h : dmaWriteAt k n o v s = .next t) : StepForm s t := by
  unfold dmaWriteAt at h
  split at h
  · obtain ⟨d, -, h⟩ := onDma_next h
    exact .dmaWrite _ _ _ h
  · simp at h

theorem i2cRead32_form {j r} {s t : State} (h : i2cRead32 j r s = .next t) : StepForm s t := by
  obtain ⟨c, hc, h⟩ := onI2c_next h
  exact .i2c j c _ _ _ (.inr ⟨_, _, rfl⟩) hc (.read r) h

theorem i2cWrite32_form {j r v} {s t : State} (h : i2cWrite32 j r v s = .next t) : StepForm s t := by
  obtain ⟨c, hc, h⟩ := onI2c_next h
  exact .i2c j c _ _ _ (.inl rfl) hc (.write r v) h

theorem i2cReadAt_form {j n o} {s t : State} (h : i2cReadAt j n o s = .next t) : StepForm s t := by
  unfold i2cReadAt at h
  split at h
  · obtain ⟨c, hc, h⟩ := onI2c_next h
    exact .i2c j c _ _ _ (.inr ⟨_, _, rfl⟩) hc (.read _) h
  · simp at h

theorem i2cWriteBus_form {j n o v} {s t : State} (h : i2cWriteBus j n o v s = .next t) : StepForm s t := by
  unfold i2cWriteBus at h
  split at h
  · obtain ⟨c, hc, h⟩ := onI2c_next h
    unfold i2cWriteAt at h
    split at h
    · exact .i2c j c _ _ _ (.inl rfl) hc (.write _ _) h
    · exact .i2c j c _ _ _ (.inl rfl) hc .same h
  · simp at h

theorem dmaRequest_form {k x v} {s t : State} (h : dmaRequest k x v s = .next t) : StepForm s t := by
  unfold dmaRequest at h
  split at h
  · simp at h
  · next hw => obtain ⟨d, -, h⟩ := onDma_next h; exact .request k x v (by simpa using hw) h

theorem dmaSync_form {k} {s t : State} (h : execDmaSync k s = .next t) : StepForm s t := by
  obtain ⟨d, -, h⟩ := onDma_next h
  simp only [Host.Outcome.next.injEq] at h
  exact .dmaSync k h.symm

theorem dmaReset_form {k} {s t : State} (h : execDmaReset k s = .next t) : StepForm s t := by
  obtain ⟨d, -, h⟩ := onDma_next h
  simp only [Host.Outcome.next.injEq] at h
  exact .dmaReset k h.symm

theorem i2cSync_form {j} {s t : State} (h : execI2cSync j s = .next t) : StepForm s t := by
  obtain ⟨c, hc, h⟩ := onI2c_next h
  exact .i2c j c _ _ _ (.inl rfl) hc .sync h

theorem i2cReset_form {j} {s t : State} (h : execI2cReset j s = .next t) : StepForm s t := by
  obtain ⟨c, hc, h⟩ := onI2c_next h
  exact .i2c j c _ _ _ (.inl rfl) hc .reset h

theorem misaligned_not_next {s t : State} (h : misaligned s = .next t) : StepForm s t := by
  simp [misaligned] at h

/-- Every operation that answers next has one of the forms. -/
theorem exec_next_form {i : Instr} {s t : State} (h : exec i s = .next t) : StepForm s t := by
  cases i <;>
    first
      | exact dmaRead32_form h
      | exact dmaWrite32_form h
      | exact i2cRead32_form h
      | exact i2cWrite32_form h
      | exact dmaReadAt_form h
      | exact dmaWriteAt_form h
      | exact i2cReadAt_form h
      | exact i2cWriteBus_form h
      | exact dmaRequest_form h
      | exact dmaSync_form h
      | exact dmaReset_form h
      | exact i2cSync_form h
      | exact i2cReset_form h
      | exact misaligned_not_next h

/-- A step with an operation presented runs it on the remaining ones; without one, nothing happens. -/
theorem step_next_form {s t : State} (h : step s = .next t) :
    t = s ∨ ∃ p rest, s.ops = p :: rest ∧ StepForm { s with ops := rest } t := by
  unfold step at h
  split at h
  · simp at h; exact .inl h.symm
  · next p rest hp =>
    split at h
    · exact .inr ⟨p, rest, hp, exec_next_form h⟩
    · simp at h

end Sys2Proof.Machine
end

