-- ==== Sys2Proof/Laws/Access.lean ====
section
/-! SUPPORT. Lemmas for proofs that an operation completes: the grouped register accesses, windows and routes, lanes, item
copies over the bus, and I²C actions that raise no line event. -/

namespace Sys2Proof.Machine

/-! ### The grouped operations -/

theorem exec_rdStream (k x r) (s : State) : exec (Instr.rdStream k x r) s = dmaRead32 k (.stream x r) s := by
  fin_cases x <;> cases r <;> rfl

theorem exec_wrStream (k x r v) (s : State) : exec (Instr.wrStream k x r v) s = dmaWrite32 k (.stream x r) v s := by
  fin_cases x <;> cases r <;> rfl

theorem exec_dmaRd32 (k o r) (s : State) : exec (Instr.dmaRd32 k o r) s = dmaRead32 k r s := by
  cases r <;> first | rfl | exact exec_rdStream ..

theorem exec_dmaWr32 (k o r v) (s : State) : exec (Instr.dmaWr32 k o v r) s = dmaWrite32 k r v s := by
  cases r <;> first | rfl | exact exec_wrStream ..

theorem exec_i2cRd32 (j o r) (s : State) : exec (Instr.i2cRd32 j o r) s = i2cRead32 j r s := by
  cases r <;> rfl

theorem exec_i2cWr32 (j o r v) (s : State) : exec (Instr.i2cWr32 j o v r) s = i2cWrite32 j r v s := by
  cases r <;> rfl

/-! ### Windows and routes (R101, R380) -/

theorem baseOf_toNat (p : BitVec 22) : (baseOf p).toNat = p.toNat * 0x400 := by
  unfold baseOf
  rw [BitVec.toNat_append]
  simp [Nat.shiftLeft_eq]

theorem inWindow_iff (p : BitVec 22) (a : Word) :
    inWindow p a = true ↔ p.toNat * 0x400 ≤ a.toNat ∧ a.toNat < p.toNat * 0x400 + 0x400 := by
  simp [inWindow, baseOf_toNat]

theorem offsetIn_toNat (p : BitVec 22) (a : Word) : (offsetIn p a).toNat = a.toNat % 0x400 := by
  unfold offsetIn
  rw [BitVec.toNat_setWidth, BitVec.toNat_sub, baseOf_toNat]
  have := p.isLt
  have := a.isLt
  omega

/-- An access is aligned in its window exactly when its address is: bases are multiples of 0x400 (R380). -/
theorem aligned_offsetIn (p : BitVec 22) (a : Word) (n : Width) :
    aligned n (offsetIn p a) = (a.toNat % widthBytes n == 0) := by
  have : (offsetIn p a).toNat % widthBytes n = a.toNat % widthBytes n := by
    rw [offsetIn_toNat]
    cases n <;> simp only [widthBytes] <;> omega
  rw [aligned, this]

/-- Where accesses go depends on the DMA instances' bases and on the I²C instances only. -/
theorem State.route_congr {s t : State} (hd : t.dmas.map Dma.site = s.dmas.map Dma.site) (hi : t.i2cs = s.i2cs) :
    t.route = s.route := by
  have any_map : ∀ (a : Word) (l : List Dma),
      (l.any fun d => inWindow d.site.page a) = ((l.map Dma.site).any fun t => inWindow t.page a) := by
    intro a l
    rw [List.any_map]
    rfl
  have e : t.inDmaWindow = s.inDmaWindow := by
    funext a
    rw [State.inDmaWindow, State.inDmaWindow, any_map, any_map, hd]
  have e₁ : t.inSomeWindow = s.inSomeWindow := by
    funext a
    simp [State.inSomeWindow, e, hi]
  funext a n
  simp only [State.route, State.straddles, e, e₁, hi]
  rfl

theorem State.wired_congr {s t : State} (h : t.i2cs = s.i2cs) : t.wired = s.wired := by
  funext k x
  simp [State.wired, h]

/-! ### Item copies over the bus (R112, R266) -/

theorem copyItem_bus {k a b n} {w : Work} (ha : w.st.route a n = .bus) (hb : w.st.route b n = .bus) :
    copyItem k a b n w = .ok { w with st := { w.st with bus := { w.st.bus.draw.2 with
      log := w.st.bus.log ++ [.read k a n (clip n w.st.bus.draw.1), .write k b n (clip n w.st.bus.draw.1)] } } } := by
  have hb' : (Work.logBus (.read k a n (clip n w.st.bus.draw.1)) { w with st := { w.st with bus := w.st.bus.draw.2 } }).st.route
      b n = .bus := by
    rw [← hb]
    exact congrFun (congrFun (State.route_congr rfl rfl) b) n
  rw [copyItem, memRead, ha]
  simp only []
  rw [memWrite, hb']
  simp [Work.logBus]

theorem Bus.drawMany_succ (n : Nat) (b : Bus) :
    b.drawMany (n + 1) = ((b.drawMany n).1 ++ [(b.drawMany n).2.draw.1], (b.drawMany n).2.draw.2) := by
  induction n generalizing b with
  | zero => simp [Bus.drawMany]
  | succ n ih =>
    rw [Bus.drawMany, ih b.draw.2]
    simp [Bus.drawMany]

theorem Bus.drawMany_length (n : Nat) (b : Bus) : (b.drawMany n).1.length = n := by
  induction n generalizing b with
  | zero => rfl
  | succ n ih => simp [Bus.drawMany, ih]

theorem Bus.draw_withLog (b : Bus) (l : List BusAccess) :
    ({ b with log := l } : Bus).draw = (b.draw.1, { b.draw.2 with log := l }) := by
  unfold Bus.draw
  split <;> simp_all

/-! ### Lanes (R102) -/

theorem aligned_byte (o : Offset) : aligned .byte o = true := by
  simp [aligned, widthBytes, Nat.mod_one]

theorem aligned_half {o : Offset} (h : o.isOdd = false) : aligned .half o = true := by
  revert o
  decide +kernel

theorem widthMask_bit (n : Width) (i : Nat) : (widthMask n).getLsbD i = decide (i < 8 * widthBytes n) := by
  by_cases h : i < 32
  · revert h i
    cases n <;> decide +kernel
  · rw [BitVec.getLsbD_of_ge _ _ (by omega), eq_comm, decide_eq_false_iff_not]
    cases n <;> simp only [widthBytes] <;> omega

/-- The bits of a projected read. -/
theorem readLane_bit (n : Width) (o : Offset) (r : Word) (i : Nat) :
    (readLane n o r).getLsbD i = (decide (i < 8 * widthBytes n) && r.getLsbD (8 * (o.toNat % 4) + i)) := by
  rw [readLane, clip, laneShift, BitVec.getLsbD_and, widthMask_bit, BitVec.getLsbD_ushiftRight, Bool.and_comm]

/-! ### I²C actions without a line event (R303) -/

theorem lineEvents_same {c c' : I2c} (ht : c'.dmaTx = c.dmaTx) (hr : c'.dmaRx = c.dmaRx) : lineEvents c c' = [] := by
  simp [lineEvents, lineEvent, ht, hr]

theorem i2cStep_quiet {s : State} {j : Nat} {c c' : I2c} {e' : Children} (h : lineEvents c c' = []) :
    i2cStep j c c' e' s = .next { s with i2cs := s.i2cs.set j c', child := e' } := by
  simp [i2cStep, Work.commitI2c, h]

end Sys2Proof.Machine
end

