-- ==== Sys2Proof/Laws/Refusals.lean ====
section
/-! SUPPORT. When an access of the DMA is refused and when it is performed (R104, R380, R384, R385), and how that settles an
item copy and a burst. -/

namespace Sys2Proof.Machine

theorem any_page_of_sites {α β : Type} (site : α → β) (page : β → BitVec 22) (a : Word) (l : List α) :
    (l.any fun c => inWindow (page (site c)) a) = ((l.map site).any fun t => inWindow (page t) a) := by
  induction l with
  | nil => rfl
  | cons c l ih => simp [ih]

/-- An access is routed to an I²C instance exactly if its address lies in the window of one. -/
theorem State.route_i2c_iff (s : State) (a : Word) (n : Width) :
    (∃ j c, s.route a n = .i2c j c) ↔ (s.i2cs.any fun c => inWindow c.site.page a) = true := by
  have h : findI2c a 0 s.i2cs = none ↔ (s.i2cs.any fun c => inWindow c.site.page a) = false := by
    rw [findI2c_none]; simp
  rw [← Bool.not_eq_false, ← h]
  simp only [State.route]
  split
  · next hf => simp [hf]
  · next hf =>
    simp only [hf, not_true, iff_false]
    rintro ⟨j, c, hc⟩
    split at hc
    · cases hc
    · split at hc <;> cases hc

/-- Whether an access is refused depends on the platform only. -/
theorem State.refusesAccess_congr {s t : State} (hd : t.dmas.map Dma.site = s.dmas.map Dma.site)
    (hi : t.i2cs.map I2c.site = s.i2cs.map I2c.site) (a : Word) (n : Width) (r : Refusal) :
    t.RefusesAccess a n r ↔ s.RefusesAccess a n r := by
  have hc : ∀ b, (t.i2cs.any fun c => inWindow c.site.page b) = s.i2cs.any fun c => inWindow c.site.page b := by
    intro b; rw [any_page_of_sites I2c.site I2cSite.page, any_page_of_sites I2c.site I2cSite.page, hi]
  have hw : t.inDmaWindow = s.inDmaWindow := by
    funext b
    unfold State.inDmaWindow
    rw [any_page_of_sites Dma.site DmaSite.page, any_page_of_sites Dma.site DmaSite.page, hd]
  have hs : t.straddles = s.straddles := by
    have : t.inSomeWindow = s.inSomeWindow := by funext b; simp only [State.inSomeWindow, hw, hc]
    funext b m; simp only [State.straddles, this]
  have dmaWindow : ∀ u : State, u.route a n = .dmaWindow ↔
      (u.i2cs.any fun c => inWindow c.site.page a) = false ∧ u.inDmaWindow a = true := by
    intro u
    rw [← Bool.not_eq_true, ← u.route_i2c_iff a n]
    simp only [State.route]
    split
    · simp
    · split
      · simp [*]
      · split <;> simp [*]
  have straddle : ∀ u : State, u.route a n = .straddle ↔
      (u.i2cs.any fun c => inWindow c.site.page a) = false ∧ u.inDmaWindow a = false ∧ u.straddles a n = true := by
    intro u
    rw [← Bool.not_eq_true, ← u.route_i2c_iff a n]
    simp only [State.route]
    split
    · simp
    · split
      · simp [*]
      · split <;> simp [*]
  unfold State.RefusesAccess
  rw [dmaWindow t, dmaWindow s, straddle t, straddle s, t.route_i2c_iff, s.route_i2c_iff, hc, hw, hs]

theorem State.allowsAccess_congr {s t : State} (hd : t.dmas.map Dma.site = s.dmas.map Dma.site)
    (hi : t.i2cs.map I2c.site = s.i2cs.map I2c.site) (a : Word) (n : Width) :
    t.AllowsAccess a n ↔ s.AllowsAccess a n :=
  forall_congr' fun r => not_congr (State.refusesAccess_congr hd hi a n r)

/-- An allowed access inside an I²C window is aligned there. -/
theorem State.AllowsAccess.aligned {s : State} {a : Word} {n : Width} {j : Nat} {c : I2c} (h : s.AllowsAccess a n)
    (hr : s.route a n = .i2c j c) : aligned n (offsetIn c.site.page a) = true := by
  rw [aligned_offsetIn]
  by_contra hm
  exact h .misalignedAccess (.inr (.inr ⟨⟨j, c, hr⟩, by simpa using hm, rfl⟩))

theorem State.AllowsAccess.of_bus {s : State} {a : Word} {n : Width} (h : s.route a n = .bus) : s.AllowsAccess a n := by
  rintro r (⟨hr, -⟩ | ⟨hr, -⟩ | ⟨⟨j, c, hr⟩, -⟩) <;> rw [h] at hr <;> cases hr

theorem memRead_refused {k a n r} {w : Work} (h : w.st.RefusesAccess a n r) : memRead k a n w = .error r := by
  unfold memRead
  obtain ⟨hr, rfl⟩ | ⟨hr, rfl⟩ | ⟨⟨j, c, hr⟩, hm, rfl⟩ := h <;> rw [hr]
  simp [aligned_offsetIn, hm]

theorem memWrite_refused {k a n v r} {w : Work} (h : w.st.RefusesAccess a n r) : memWrite k a n v w = .error r := by
  unfold memWrite
  obtain ⟨hr, rfl⟩ | ⟨hr, rfl⟩ | ⟨⟨j, c, hr⟩, hm, rfl⟩ := h <;> rw [hr]
  simp [aligned_offsetIn, hm]

theorem memRead_allowed (k) {a n} {w : Work} (h : w.st.AllowsAccess a n) : ∃ v w', memRead k a n w = .ok (v, w') := by
  unfold memRead
  split
  · next j c hr => rw [if_pos (h.aligned hr)]; exact ⟨_, _, rfl⟩
  · next hr => exact (h _ (.inl ⟨hr, rfl⟩)).elim
  · next hr => exact (h _ (.inr (.inl ⟨hr, rfl⟩))).elim
  · exact ⟨_, _, rfl⟩

theorem memWrite_allowed (k v) {a n} {w : Work} (h : w.st.AllowsAccess a n) : ∃ w', memWrite k a n v w = .ok w' := by
  unfold memWrite
  split
  · next j c hr => rw [if_pos (h.aligned hr)]; exact ⟨_, rfl⟩
  · next hr => exact (h _ (.inl ⟨hr, rfl⟩)).elim
  · next hr => exact (h _ (.inr (.inl ⟨hr, rfl⟩))).elim
  · exact ⟨_, rfl⟩

/-- A copy leaves the platform, and so what is refused after it. -/
theorem CopyFrame.refuses {w w' : Work} (h : CopyFrame w w') (a : Word) (n : Width) (r : Refusal) :
    w'.st.RefusesAccess a n r ↔ w.st.RefusesAccess a n r :=
  State.refusesAccess_congr (by rw [h.dmas]) h.i2cSites a n r

theorem CopyFrame.allows {w w' : Work} (h : CopyFrame w w') (a : Word) (n : Width) :
    w'.st.AllowsAccess a n ↔ w.st.AllowsAccess a n :=
  State.allowsAccess_congr (by rw [h.dmas]) h.i2cSites a n

/-- A copy whose two accesses are allowed is made (R266). -/
theorem copyItem_allowed (k) {a b n} {w : Work} (ha : w.st.AllowsAccess a n) (hb : w.st.AllowsAccess b n) :
    ∃ w', copyItem k a b n w = .ok w' := by
  obtain ⟨v, w₁, h⟩ := memRead_allowed k ha
  simp only [copyItem, h]
  exact memWrite_allowed k v (((memRead_frame h).allows b n).2 hb)

theorem copyItem_source_refused {k a b n r} {w : Work} (ha : w.st.RefusesAccess a n r) :
    copyItem k a b n w = .error r := by
  simp only [copyItem, memRead_refused ha]

theorem copyItem_dest_refused {k a b n r} {w : Work} (ha : w.st.AllowsAccess a n) (hb : w.st.RefusesAccess b n r) :
    copyItem k a b n w = .error r := by
  obtain ⟨v, w₁, h⟩ := memRead_allowed k ha
  simp only [copyItem, h]
  exact memWrite_refused (((memRead_frame h).refuses b n r).2 hb)

/-- A dispatched transfer keeps the platform's limit (R382). -/
theorem selectTransfer_cascadeLimit {k x m} {w w' : Work} (h : selectTransfer k x m w = .ok w') :
    w'.st.cascadeLimit = w.st.cascadeLimit := by
  obtain ⟨-, ⟨-, rfl⟩ | ⟨-, -, w₁, h₁, rfl⟩ | ⟨-, -, w₁, h₁, rfl⟩⟩ := selectTransfer_ok h
  · rfl
  · exact (copyItems_frame h₁).cascadeLimit
  · exact (copyItem_frame h₁).cascadeLimit

theorem dmaReq_cascadeLimit {k x v} {w w' : Work} (h : dmaReq k x v w = .ok w') :
    w'.st.cascadeLimit = w.st.cascadeLimit := by
  obtain ⟨d, -, ⟨-, -, -, h⟩ | ⟨-, rfl⟩⟩ := dmaReq_ok h
  · simpa using selectTransfer_cascadeLimit h
  · rfl

end Sys2Proof.Machine
end

