-- ==== Sys2Proof/Tests/Slice0.lean ====
section
/-! SUPPORT. Tests. The expected results are the words of spec/opcode_table.json, the vectors of 95_test_vectors.md, or hand
calculation from the rule a test names. A theorem `test_hyp_<Name>` shows states and operands that meet the hypotheses of
`Obligations.<Name>`, clause by clause. -/

namespace Sys2Proof.Tests

open Sys2Proof.Machine

set_option Elab.async false

/-! ### The bench: the example bases and wirings of 95_test_vectors.md (D31) -/

/-- `DMA_BASE = 0x40026000`. -/
def dmaSite : DmaSite := ⟨0x100098#22, Vector.replicate 8 11⟩

/-- `I2C_BASE = 0x40005400`, a child at 0x50, `I2C_TX_REQ = (0, 6)`, `I2C_RX_REQ = (0, 5)` (programs P3, P4). -/
def i2cSite : I2cSite := ⟨0x100015#22, [0x50#7], some (0, 6), some (0, 5), 31, 32⟩

def dma0 : Dma := Dma.reset dmaSite
def i2c0 : I2c := I2c.reset i2cSite

/-- A machine of one instance of each, and the oracles' next answers. -/
def bench (d : Dma) (c : I2c) (bus : List Word) (child : List (Option (List Byte))) : State where
  dmas := [d]
  i2cs := [c]
  cascadeLimit := 4
  ops := []
  results := []
  bus := ⟨bus, 0, []⟩
  child := ⟨child, 0, []⟩

def stream (x : StreamId) (m : Stream) (d : Dma) : Dma := { d with streams := d.streams.set x m }
def fins (xs : List StreamId) (d : Dma) : Dma := xs.foldl (fun d (x : StreamId) => { d with fin := d.fin.set x true }) d
def irqs (xs : List StreamId) (d : Dma) : Dma := xs.foldl (fun d (x : StreamId) => { d with irq := d.irq.set x true }) d
def rst : State := bench dma0 i2c0 [] []
def dmaBench (d : Dma) : State := bench d i2c0 [0x11223344, 0x55667788] []
def i2cBench (c : I2c) (child : List (Option (List Byte))) : State := bench dma0 c [] child

/-- What `f` sees of the next state, if there is one. -/
def sees {α : Type} (f : State → α) (o : Host.Outcome State Fault Refusal) : Option α :=
  match o with
  | .next t => some (f t)
  | .fault _ => none
  | .refused _ => none

/-- The reason of a refusal. -/
def refusal (o : Host.Outcome State Fault Refusal) : Option Refusal :=
  match o with
  | .next _ => none
  | .fault _ => none
  | .refused r => some r

/-- The values of the read results. -/
def values (t : State) : List Word := t.results.map fun r => r.value

/-- What `f` sees of DMA instance 0 and of I²C instance 0. -/
def dmaOf {α : Type} (f : Dma → α) (t : State) : Option α := t.dmas[0]?.map f
def i2cOf {α : Type} (f : I2c → α) (t : State) : Option α := t.i2cs[0]?.map f

/-- What `exec` of an operation answers, through `f`. -/
def run {α : Type} (i : Instr) (s : State) (f : State → α) : Option α := sees f (exec i s)

/-- Every word decodes to its operation, which is well formed. -/
abbrev decodesTo (rows : List (Nat × Instr)) : Prop :=
  (rows.all fun q => decodeTableWord 64 q.1 == some q.2 && q.2.wellFormed) = true

/-! ### Decoding: one word per constructor, from spec/opcode_table.json; the data operand in bits 63..32 -/

theorem test_decode_dma_interrupt :
    decodesTo [
      (0x00001000, .dmaRd32Lisr 0),
      (0xDEADBEEF00001400, .dmaWr32Lisr 0 0xDEADBEEF),
      (0x00001004, .dmaRd32Hisr 0),
      (0xDEADBEEF00001404, .dmaWr32Hisr 0 0xDEADBEEF),
      (0x00001008, .dmaRd32Lifcr 0),
      (0xDEADBEEF00001408, .dmaWr32Lifcr 0 0xDEADBEEF),
      (0x0000100C, .dmaRd32Hifcr 0),
      (0xDEADBEEF0000140C, .dmaWr32Hifcr 0 0xDEADBEEF),
      (0x000010D0, .dmaRd32Unmapped 0 0x0D0),
      (0xDEADBEEF000017FC, .dmaWr32Unmapped 0 0x3FC 0xDEADBEEF)] := by decide +kernel

theorem test_decode_dma_stream_0 :
    decodesTo [
      (0x00001010, .dmaRd32S0cr 0),
      (0xDEADBEEF00001410, .dmaWr32S0cr 0 0xDEADBEEF),
      (0x00001014, .dmaRd32S0ndtr 0),
      (0xDEADBEEF00001414, .dmaWr32S0ndtr 0 0xDEADBEEF),
      (0x00001018, .dmaRd32S0par 0),
      (0xDEADBEEF00001418, .dmaWr32S0par 0 0xDEADBEEF),
      (0x0000101C, .dmaRd32S0m0ar 0),
      (0xDEADBEEF0000141C, .dmaWr32S0m0ar 0 0xDEADBEEF),
      (0x00001020, .dmaRd32S0m1ar 0),
      (0xDEADBEEF00001420, .dmaWr32S0m1ar 0 0xDEADBEEF),
      (0x00001024, .dmaRd32S0fcr 0),
      (0xDEADBEEF00001424, .dmaWr32S0fcr 0 0xDEADBEEF)] := by decide +kernel

theorem test_decode_dma_stream_1 :
    decodesTo [
      (0x00001028, .dmaRd32S1cr 0),
      (0xDEADBEEF00001428, .dmaWr32S1cr 0 0xDEADBEEF),
      (0x0000102C, .dmaRd32S1ndtr 0),
      (0xDEADBEEF0000142C, .dmaWr32S1ndtr 0 0xDEADBEEF),
      (0x00001030, .dmaRd32S1par 0),
      (0xDEADBEEF00001430, .dmaWr32S1par 0 0xDEADBEEF),
      (0x00001034, .dmaRd32S1m0ar 0),
      (0xDEADBEEF00001434, .dmaWr32S1m0ar 0 0xDEADBEEF),
      (0x00001038, .dmaRd32S1m1ar 0),
      (0xDEADBEEF00001438, .dmaWr32S1m1ar 0 0xDEADBEEF),
      (0x0000103C, .dmaRd32S1fcr 0),
      (0xDEADBEEF0000143C, .dmaWr32S1fcr 0 0xDEADBEEF)] := by decide +kernel

theorem test_decode_dma_stream_2 :
    decodesTo [
      (0x00001040, .dmaRd32S2cr 0),
      (0xDEADBEEF00001440, .dmaWr32S2cr 0 0xDEADBEEF),
      (0x00001044, .dmaRd32S2ndtr 0),
      (0xDEADBEEF00001444, .dmaWr32S2ndtr 0 0xDEADBEEF),
      (0x00001048, .dmaRd32S2par 0),
      (0xDEADBEEF00001448, .dmaWr32S2par 0 0xDEADBEEF),
      (0x0000104C, .dmaRd32S2m0ar 0),
      (0xDEADBEEF0000144C, .dmaWr32S2m0ar 0 0xDEADBEEF),
      (0x00001050, .dmaRd32S2m1ar 0),
      (0xDEADBEEF00001450, .dmaWr32S2m1ar 0 0xDEADBEEF),
      (0x00001054, .dmaRd32S2fcr 0),
      (0xDEADBEEF00001454, .dmaWr32S2fcr 0 0xDEADBEEF)] := by decide +kernel

theorem test_decode_dma_stream_3 :
    decodesTo [
      (0x00001058, .dmaRd32S3cr 0),
      (0xDEADBEEF00001458, .dmaWr32S3cr 0 0xDEADBEEF),
      (0x0000105C, .dmaRd32S3ndtr 0),
      (0xDEADBEEF0000145C, .dmaWr32S3ndtr 0 0xDEADBEEF),
      (0x00001060, .dmaRd32S3par 0),
      (0xDEADBEEF00001460, .dmaWr32S3par 0 0xDEADBEEF),
      (0x00001064, .dmaRd32S3m0ar 0),
      (0xDEADBEEF00001464, .dmaWr32S3m0ar 0 0xDEADBEEF),
      (0x00001068, .dmaRd32S3m1ar 0),
      (0xDEADBEEF00001468, .dmaWr32S3m1ar 0 0xDEADBEEF),
      (0x0000106C, .dmaRd32S3fcr 0),
      (0xDEADBEEF0000146C, .dmaWr32S3fcr 0 0xDEADBEEF)] := by decide +kernel

theorem test_decode_dma_stream_4 :
    decodesTo [
      (0x00001070, .dmaRd32S4cr 0),
      (0xDEADBEEF00001470, .dmaWr32S4cr 0 0xDEADBEEF),
      (0x00001074, .dmaRd32S4ndtr 0),
      (0xDEADBEEF00001474, .dmaWr32S4ndtr 0 0xDEADBEEF),
      (0x00001078, .dmaRd32S4par 0),
      (0xDEADBEEF00001478, .dmaWr32S4par 0 0xDEADBEEF),
      (0x0000107C, .dmaRd32S4m0ar 0),
      (0xDEADBEEF0000147C, .dmaWr32S4m0ar 0 0xDEADBEEF),
      (0x00001080, .dmaRd32S4m1ar 0),
      (0xDEADBEEF00001480, .dmaWr32S4m1ar 0 0xDEADBEEF),
      (0x00001084, .dmaRd32S4fcr 0),
      (0xDEADBEEF00001484, .dmaWr32S4fcr 0 0xDEADBEEF)] := by decide +kernel

theorem test_decode_dma_stream_5 :
    decodesTo [
      (0x00001088, .dmaRd32S5cr 0),
      (0xDEADBEEF00001488, .dmaWr32S5cr 0 0xDEADBEEF),
      (0x0000108C, .dmaRd32S5ndtr 0),
      (0xDEADBEEF0000148C, .dmaWr32S5ndtr 0 0xDEADBEEF),
      (0x00001090, .dmaRd32S5par 0),
      (0xDEADBEEF00001490, .dmaWr32S5par 0 0xDEADBEEF),
      (0x00001094, .dmaRd32S5m0ar 0),
      (0xDEADBEEF00001494, .dmaWr32S5m0ar 0 0xDEADBEEF),
      (0x00001098, .dmaRd32S5m1ar 0),
      (0xDEADBEEF00001498, .dmaWr32S5m1ar 0 0xDEADBEEF),
      (0x0000109C, .dmaRd32S5fcr 0),
      (0xDEADBEEF0000149C, .dmaWr32S5fcr 0 0xDEADBEEF)] := by decide +kernel

theorem test_decode_dma_stream_6 :
    decodesTo [
      (0x000010A0, .dmaRd32S6cr 0),
      (0xDEADBEEF000014A0, .dmaWr32S6cr 0 0xDEADBEEF),
      (0x000010A4, .dmaRd32S6ndtr 0),
      (0xDEADBEEF000014A4, .dmaWr32S6ndtr 0 0xDEADBEEF),
      (0x000010A8, .dmaRd32S6par 0),
      (0xDEADBEEF000014A8, .dmaWr32S6par 0 0xDEADBEEF),
      (0x000010AC, .dmaRd32S6m0ar 0),
      (0xDEADBEEF000014AC, .dmaWr32S6m0ar 0 0xDEADBEEF),
      (0x000010B0, .dmaRd32S6m1ar 0),
      (0xDEADBEEF000014B0, .dmaWr32S6m1ar 0 0xDEADBEEF),
      (0x000010B4, .dmaRd32S6fcr 0),
      (0xDEADBEEF000014B4, .dmaWr32S6fcr 0 0xDEADBEEF)] := by decide +kernel

theorem test_decode_dma_stream_7 :
    decodesTo [
      (0x000010B8, .dmaRd32S7cr 0),
      (0xDEADBEEF000014B8, .dmaWr32S7cr 0 0xDEADBEEF),
      (0x000010BC, .dmaRd32S7ndtr 0),
      (0xDEADBEEF000014BC, .dmaWr32S7ndtr 0 0xDEADBEEF),
      (0x000010C0, .dmaRd32S7par 0),
      (0xDEADBEEF000014C0, .dmaWr32S7par 0 0xDEADBEEF),
      (0x000010C4, .dmaRd32S7m0ar 0),
      (0xDEADBEEF000014C4, .dmaWr32S7m0ar 0 0xDEADBEEF),
      (0x000010C8, .dmaRd32S7m1ar 0),
      (0xDEADBEEF000014C8, .dmaWr32S7m1ar 0 0xDEADBEEF),
      (0x000010CC, .dmaRd32S7fcr 0),
      (0xDEADBEEF000014CC, .dmaWr32S7fcr 0 0xDEADBEEF)] := by decide +kernel

theorem test_decode_dma_narrow :
    decodesTo [
      (0x00000013, .dmaRd8 0 0x013),
      (0xDEADBEEF0000040A, .dmaWr8 0 0x00A 0xDEADBEEF),
      (0x00000812, .dmaRd16 0 0x012),
      (0xDEADBEEF00000C12, .dmaWr16 0 0x012 0xDEADBEEF)] := by decide +kernel

theorem test_decode_misaligned :
    decodesTo [
      (0x00001011, .dmaRd32MisalignedOdd 0 0x011),
      (0x00001012, .dmaRd32Misaligned2 0 0x012),
      (0x00000813, .dmaRd16Misaligned 0 0x013),
      (0xDEADBEEF000017FF, .dmaWr32MisalignedOdd 0 0x3FF 0xDEADBEEF),
      (0xDEADBEEF000014CE, .dmaWr32Misaligned2 0 0x0CE 0xDEADBEEF),
      (0xDEADBEEF00000C01, .dmaWr16Misaligned 0 0x001 0xDEADBEEF),
      (0x00003017, .i2cRd32MisalignedOdd 0 0x017),
      (0x0000301A, .i2cRd32Misaligned2 0 0x01A),
      (0x00002BFF, .i2cRd16Misaligned 0 0x3FF),
      (0xDEADBEEF00003403, .i2cWr32MisalignedOdd 0 0x003 0xDEADBEEF),
      (0xDEADBEEF00003412, .i2cWr32Misaligned2 0 0x012 0xDEADBEEF),
      (0xDEADBEEF00002C11, .i2cWr16Misaligned 0 0x011 0xDEADBEEF)] := by decide +kernel

theorem test_decode_dma_events :
    decodesTo [
      (0x0000180F, .dmaReq 0 7 true),
      (0x00001800, .dmaReq 0 0 false),
      (0x00001810, .dmaSync 0),
      (0x00001820, .dmaReset 0)] := by decide +kernel

theorem test_decode_i2c_registers :
    decodesTo [
      (0x00003000, .i2cRd32Cr1 0),
      (0xDEADBEEF00003400, .i2cWr32Cr1 0 0xDEADBEEF),
      (0x00003004, .i2cRd32Cr2 0),
      (0xDEADBEEF00003404, .i2cWr32Cr2 0 0xDEADBEEF),
      (0x00003010, .i2cRd32Dr 0),
      (0xDEADBEEF00003410, .i2cWr32Dr 0 0xDEADBEEF),
      (0x00003014, .i2cRd32Sr1 0),
      (0xDEADBEEF00003414, .i2cWr32Sr1 0 0xDEADBEEF),
      (0x00003018, .i2cRd32Sr2 0),
      (0xDEADBEEF00003418, .i2cWr32Sr2 0 0xDEADBEEF),
      (0x00003008, .i2cRd32Unmapped 0 0x008),
      (0xDEADBEEF0000340C, .i2cWr32Unmapped 0 0x00C 0xDEADBEEF)] := by decide +kernel

theorem test_decode_i2c_narrow :
    decodesTo [
      (0x00002014, .i2cRd8 0 0x014),
      (0x00002816, .i2cRd16 0 0x016),
      (0xDEADBEEF00002410, .i2cWr8Aligned 0 0x010 0xDEADBEEF),
      (0xDEADBEEF00002401, .i2cWr8Unaligned 0 0x001 0xDEADBEEF),
      (0xDEADBEEF00002C00, .i2cWr16Aligned 0 0x000 0xDEADBEEF),
      (0xDEADBEEF00002C02, .i2cWr16Unaligned 0 0x002 0xDEADBEEF)] := by decide +kernel

theorem test_decode_i2c_events :
    decodesTo [
      (0x00003810, .i2cSync 0),
      (0x00003820, .i2cReset 0)] := by decide +kernel
/-- 95_test_vectors.md section 2.1, the reserved words, and one more for each kind of reserved field (R142, R143). -/
theorem test_reserved_words_are_rejected :
    ∀ w ∈ [0x00001811, 0x00001830, 0x00003800, 0x00001C10, 0x00005000, 0x00009000, 0x00007000, 0x80001000, 0x00003811,
      0x00003821, 0x00001821, 0x00003C20, 0x00001850], decodeTableWord 64 w = none := by decide +kernel

/-- The descriptor is 32 bits wide: a shorter reading drops the data operand, not the descriptor (R140). -/
theorem test_decode_without_data : decodeTableWord 32 0xDEADBEEF00001410 = some (.dmaWr32S0cr 0 0) := by decide +kernel

/-! ### WellFormed: every check refuses an ill-formed term -/

theorem test_ill_formed_unmapped :
    ∀ i ∈ [Instr.dmaRd32Unmapped 0 0x0CC, .dmaRd32Unmapped 0 0x0D1, .dmaWr32Unmapped 0 0x000 1, .dmaWr32Unmapped 0 0x0D2 1,
      .i2cRd32Unmapped 0 0x014, .i2cRd32Unmapped 0 0x009, .i2cWr32Unmapped 0 0x010 1, .i2cWr32Unmapped 0 0x00A 1],
      ¬WellFormed i := by decide +kernel

theorem test_ill_formed_narrow :
    ∀ i ∈ [Instr.dmaRd16 0 0x013, .dmaWr16 0 0x001 1, .i2cRd16 0 0x015, .i2cWr8Aligned 0 0x011 1,
      .i2cWr8Unaligned 0 0x010 1, .i2cWr16Aligned 0 0x012 1, .i2cWr16Aligned 0 0x011 1, .i2cWr16Unaligned 0 0x010 1,
      .i2cWr16Unaligned 0 0x003 1], ¬WellFormed i := by decide +kernel

theorem test_ill_formed_misaligned :
    ∀ i ∈ [Instr.dmaRd32MisalignedOdd 0 0x012, .dmaRd32Misaligned2 0 0x010, .dmaRd32Misaligned2 0 0x011,
      .dmaRd16Misaligned 0 0x012, .dmaWr32MisalignedOdd 0 0x010 1, .dmaWr32Misaligned2 0 0x011 1,
      .dmaWr16Misaligned 0 0x010 1, .i2cRd32MisalignedOdd 0 0x012, .i2cRd32Misaligned2 0 0x010,
      .i2cRd16Misaligned 0 0x012, .i2cWr32MisalignedOdd 0 0x010 1, .i2cWr32Misaligned2 0 0x011 1,
      .i2cWr16Misaligned 0 0x010 1], ¬WellFormed i := by decide +kernel

/-! ### DMA interrupt registers (95_test_vectors.md section 2.2) -/

theorem test_lisr : run (.dmaRd32Lisr 0) (dmaBench (fins [0, 1, 2, 3] dma0)) values = some [0x08200820] := by
  decide +kernel

theorem test_hisr : run (.dmaRd32Hisr 0) (dmaBench (fins [4, 7] dma0)) values = some [0x08000020] := by decide +kernel

theorem test_lifcr_wrong_bits_clear_nothing :
    run (.dmaWr32Lifcr 0 0x0000001F) (dmaBench (irqs [0] (fins [0, 1] dma0))) State.dmas =
      some [irqs [0] (fins [0, 1] dma0)] := by decide +kernel

theorem test_lifcr_clears :
    run (.dmaWr32Lifcr 0 0x00000820) (dmaBench (irqs [0] (fins [0, 1] dma0))) State.dmas = some [dma0] := by
  decide +kernel

theorem test_wr8_lifcr_lane :
    run (.dmaWr8 0 0x00A 0x20) (dmaBench (fins [2] dma0)) State.dmas = some [dma0] := by decide +kernel

theorem test_wr_lisr_is_ignored :
    run (.dmaWr32Lisr 0 0xFFFFFFFF) (dmaBench (fins [0] dma0)) State.dmas = some [fins [0] dma0] := by decide +kernel

theorem test_hifcr_keeps_deferred_irq :
    run (.dmaWr32Hifcr 0 0x00200000) (dmaBench { fins [6] dma0 with dq := [6] }) (dmaOf fun d => (d.fin[6], d.dq)) =
      some (some (false, [6])) := by decide +kernel

theorem test_sync_raises_irq_without_fin :
    run (.dmaSync 0) (dmaBench { dma0 with dq := [6] }) (dmaOf fun d => (d.fin[6], d.irq[6], d.dq)) =
      some (some (false, true, [])) := by decide +kernel

/-! ### DMA stream registers (section 2.3) -/

theorem test_s0cr_write_stores_every_field :
    run (.dmaWr32S0cr 0 0xFFFFFFFF) rst (dmaOf fun d => d.streams[0].crValue) = some (some 0x00007FD1) := by
  decide +kernel

theorem test_s3ndtr_write_truncates :
    run (.dmaWr32S3ndtr 0 0x00012345) rst (dmaOf fun d => d.streams[3].ndt) = some (some 0x2345) := by decide +kernel

def enabled3 : Stream := { Stream.reset with en := true, ndt := 3, latch := 3 }

theorem test_s0ndtr_write_ignored_while_enabled :
    run (.dmaWr32S0ndtr 0 10) (dmaBench (stream 0 enabled3 dma0)) (dmaOf fun d => d.streams[0].ndt) = some (some 3) := by
  decide +kernel

theorem test_s0fcr_write_accepted_while_enabled :
    run (.dmaWr32S0fcr 0 0) (dmaBench (stream 0 enabled3 dma0)) (dmaOf fun d => d.streams[0].fcr) = some (some 0) := by
  decide +kernel

theorem test_wr8_cr_enables :
    run (.dmaWr8 0 0x010 0x01) (dmaBench (stream 0 { Stream.reset with minc := true, ndt := 7 } dma0))
      (dmaOf fun d => (d.streams[0].crValue, d.streams[0].latch)) = some (some (0x00000401, 7)) := by decide +kernel

def cr411 : Stream := { Stream.reset with en := true, tcie := true, minc := true }

theorem test_rd8_cr_lane :
    run (.dmaRd8 0 0x011) (dmaBench (stream 0 cr411 dma0)) values = some [0x04] := by decide +kernel

theorem test_wr16_cr_high_half_is_ignored :
    run (.dmaWr16 0 0x012 0xFFFF) (dmaBench (stream 0 cr411 dma0)) State.dmas = some [stream 0 cr411 dma0] := by
  decide +kernel

theorem test_rd16_fcr_after_reset : run (.dmaRd16 0 0x024) rst values = some [0x21] := by decide +kernel

theorem test_s4m1ar_after_reset : run (.dmaRd32S4m1ar 0) rst values = some [0] := by decide +kernel

theorem test_s7fcr_after_reset : run (.dmaRd32S7fcr 0) rst values = some [0x21] := by decide +kernel

/-! ### DMA transfer engine (section 2.4 and scenario 1) -/

/-- Scenario 1: P→M, NDT = 4, bytes, MINC, TCIE. -/
def pm4 : Stream := { Stream.reset with
  en := true, tcie := true, minc := true, ndt := 4, latch := 4, par := 0x40011004, m0ar := 0x20000000 }

theorem test_request_copies_one_byte :
    run (.dmaReq 0 0 true) (dmaBench (stream 0 pm4 dma0)) (fun t => (t.bus.log, dmaOf (fun d => d.streams[0].ndt) t)) =
      some ([.read 0 0x40011004 .byte 0x44, .write 0 0x20000000 .byte 0x44], some 3) := by decide +kernel

theorem test_last_item_completes :
    run (.dmaReq 0 0 true) (dmaBench (stream 0 { pm4 with ndt := 1 } dma0))
      (fun t => (t.bus.log.tail, dmaOf (fun d => (d.streams[0].crValue, d.fin[0], d.dq)) t)) =
      some ([.write 0 0x20000003 .byte 0x44], some (0x00000410, true, [0])) := by decide +kernel

/-- M→P, half-words: the second item reads 0x20000002 and writes 0x40011002. -/
def mp2 : Stream := { Stream.reset with
  en := true, dir := 1, pinc := true, minc := true, psize := 1, msize := 1, ndt := 1, latch := 2, par := 0x40011000,
  m0ar := 0x20000000 }

theorem test_memory_to_peripheral_addresses :
    run (.dmaReq 0 0 true) (dmaBench (stream 0 mp2 dma0)) (fun t => t.bus.log) =
      some [.read 0 0x20000002 .half 0x3344, .write 0 0x40011002 .half 0x3344] := by decide +kernel

theorem test_address_wraps :
    (List.range 4).map (fun i => dstAddr { pm4 with m0ar := 0xFFFFFFFE } i) =
      [0xFFFFFFFE, 0xFFFFFFFF, 0x00000000, 0x00000001] := by decide +kernel

/-- M→M, two words from 0x20001000 to 0x20002000 (scenario 3 with NDT = 2). -/
def mm2 : Stream := { Stream.reset with
  pinc := true, minc := true, psize := 2, msize := 2, ndt := 2, par := 0x20001000, m0ar := 0x20002000, req := true }

theorem test_enable_runs_the_burst :
    run (.dmaWr32S0cr 0 0x00005681) (dmaBench (stream 0 mm2 dma0))
      (fun t => (t.bus.log, dmaOf (fun d => (d.streams[0].crValue, d.streams[0].ndt, d.streams[0].latch, d.fin[0])) t)) =
      some ([.read 0 0x20001000 .word 0x11223344, .write 0 0x20002000 .word 0x11223344,
        .read 0 0x20001004 .word 0x55667788, .write 0 0x20002004 .word 0x55667788],
        some (0x00005680, 0, 2, true)) := by decide +kernel

theorem test_circular_burst_reloads :
    run (.dmaWr32S2cr 0 0x00005781) (dmaBench (stream 2 mm2 dma0))
      (dmaOf fun d => (d.streams[2].ndt, d.streams[2].en, d.fin[2])) = some (some (2, true, true)) := by decide +kernel

theorem test_empty_stream_is_disabled :
    run (.dmaReq 0 0 true) (dmaBench (stream 0 { pm4 with ndt := 0 } dma0))
      (fun t => (t.bus.log, dmaOf (fun d => (d.streams[0].en, d.fin[0])) t)) = some ([], some (false, false)) := by
  decide +kernel

theorem test_empty_burst_in_the_enable :
    run (.dmaWr32S0cr 0 0x81) (dmaBench (stream 0 { Stream.reset with req := true } dma0))
      (dmaOf fun d => d.streams[0].crValue) = some (some 0x80) := by decide +kernel

theorem test_reserved_direction :
    refusal (exec (.dmaReq 0 0 true) (dmaBench (stream 0 { pm4 with dir := 3 } dma0))) = some .reservedDirection := by
  decide +kernel

theorem test_dma_self_access :
    refusal (exec (.dmaReq 0 0 true) (dmaBench (stream 0 { pm4 with par := 0x40026000 } dma0))) = some .dmaSelfAccess := by
  decide +kernel

/-! ### I²C (sections 2.5 and 2.6) -/

def rx (q : List Byte) : I2c := { i2c0 with st := .receivingData, sel := some 0x50, rw := true, rxq := q }
def tx (q : List Byte) : I2c := { i2c0 with st := .awaitingData, sel := some 0x50, txq := q }
def sr1 (rw : Bool) : I2c := { i2c0 with st := .awaitingSr1Read, sel := some 0x50, rw := rw }
def sr2 (rw : Bool) : I2c := { sr1 rw with st := .awaitingSr2Read }
def addressing : I2c := { i2c0 with st := .awaitingAddress }

/-- The table of section 2.5: SR1, SR2, EV_IRQ, DMA_TX, DMA_RX with ITEVTEN = ITBUFEN = DMAEN = 1. -/
theorem test_flag_table :
    ([i2c0, addressing, sr1 false, sr2 false, sr1 true, sr2 true, tx [], tx [1], rx [1], rx []].map fun c =>
      let c := { c with itevten := true, itbufen := true, dmaen := true }
      (c.sr1Value, c.sr2Value, c.evIrq, c.dmaTx, c.dmaRx)) =
    [(0x00, 0x00, false, false, false), (0x01, 0x03, true, false, false), (0x82, 0x07, true, false, false),
      (0x82, 0x07, true, false, false), (0x02, 0x03, true, false, false), (0x02, 0x03, true, false, false),
      (0x84, 0x07, true, true, false), (0x00, 0x07, false, false, false), (0x44, 0x03, true, false, true),
      (0x00, 0x03, false, false, false)] := by decide +kernel

theorem test_address_of_no_child :
    run (.i2cWr32Dr 0 0xC0) (i2cBench addressing []) (fun t => (t.i2cs, t.child.calls)) =
      some ([{ i2c0 with af := true }], []) := by decide +kernel

theorem test_address_of_a_child :
    run (.i2cWr32Dr 0 0xA1) (i2cBench addressing []) State.i2cs = some [sr1 true] := by decide +kernel

theorem test_sr1_read_clears_af :
    run (.i2cRd32Sr1 0) (i2cBench { i2c0 with af := true } []) (fun t => (values t, t.i2cs)) =
      some ([0x00000400], [i2c0]) := by decide +kernel

theorem test_rd8_sr1_steps :
    run (.i2cRd8 0 0x014) (i2cBench (sr1 false) []) (fun t => (values t, t.i2cs)) = some ([0x82], [sr2 false]) := by
  decide +kernel

theorem test_rd16_sr2_steps :
    run (.i2cRd16 0 0x018) (i2cBench (sr2 true) []) (fun t => (values t, t.i2cs)) =
      some ([0x0003], [{ rx [] with dq := [.pull] }]) := by decide +kernel

theorem test_sr2_read_outside_its_state :
    run (.i2cRd32Sr2 0) (i2cBench (sr1 false) []) (fun t => (values t, t.i2cs)) = some ([0x07], [sr1 false]) := by
  decide +kernel

theorem test_sr1_write_one_keeps_af :
    run (.i2cWr32Sr1 0 0x00000400) (i2cBench { i2c0 with af := true, iterren := true } []) (i2cOf I2c.erIrq) =
      some (some true) := by decide +kernel

theorem test_sr1_write_zero_clears_af :
    run (.i2cWr32Sr1 0 0) (i2cBench { i2c0 with af := true, iterren := true } []) (i2cOf I2c.erIrq) =
      some (some false) := by decide +kernel

theorem test_data_write_is_dropped :
    run (.i2cWr32Dr 0 0x55) (i2cBench (sr1 false) []) State.i2cs = some [sr1 false] := by decide +kernel

theorem test_data_read_when_empty :
    run (.i2cRd32Dr 0) (i2cBench (rx []) []) (fun t => (values t, i2cOf I2c.dq t)) = some ([0], some [.pull]) := by
  decide +kernel

theorem test_start_then_stop :
    run (.i2cWr32Cr1 0 0x300) (i2cBench i2c0 []) (fun t => (t.i2cs, t.child.calls)) = some ([i2c0], []) := by
  decide +kernel

theorem test_start_with_ack :
    run (.i2cWr32Cr1 0 0x500) (i2cBench i2c0 []) (i2cOf fun c => (c.st, c.cr1Value)) =
      some (some (.awaitingAddress, 0x400)) := by decide +kernel

theorem test_wr8_high_lane_is_ignored :
    run (.i2cWr8Unaligned 0 0x001 0x01) (i2cBench i2c0 []) State.i2cs = some [i2c0] := by decide +kernel

theorem test_wr16_starts :
    run (.i2cWr16Aligned 0 0x000 0x0100) (i2cBench i2c0 []) State.i2cs = some [addressing] := by decide +kernel

theorem test_wr8_data :
    run (.i2cWr8Aligned 0 0x010 0x1AA) (i2cBench (tx []) []) State.i2cs = some [{ tx [0xAA] with dq := [.flush] }] := by
  decide +kernel

theorem test_stop_after_failed_finish :
    run (.i2cWr32Cr1 0 0x100) (i2cBench (tx [0x01]) [some [], none]) (fun t => (t.i2cs, t.child.calls)) =
      some ([{ i2c0 with af := true }],
        [⟨0, 0x50, .write [0x01], some []⟩, ⟨0, 0x50, .finish, none⟩]) := by decide +kernel

theorem test_repeated_start_commits :
    run (.i2cWr32Cr1 0 0x100) (i2cBench (tx [0x01]) [some [], some []]) (fun t => (t.i2cs, t.child.calls)) =
      some ([addressing], [⟨0, 0x50, .write [0x01], some []⟩, ⟨0, 0x50, .finish, some []⟩]) := by decide +kernel

theorem test_flush_failure_aborts :
    run (.i2cSync 0) (i2cBench { tx [0x01] with dq := [.flush] } [none]) (fun t => (t.i2cs, t.child.calls)) =
      some ([{ i2c0 with af := true }], [⟨0, 0x50, .write [0x01], none⟩]) := by decide +kernel

theorem test_empty_batch :
    run (.i2cSync 0) (i2cBench { rx [] with dq := [.pull] } [some []]) State.i2cs = some [rx []] := by decide +kernel

theorem test_cr2_write_raises_ev_irq :
    run (.i2cWr32Cr2 0 0x200) (i2cBench addressing []) (i2cOf I2c.evIrq) = some (some true) := by decide +kernel

theorem test_cr2_reads_its_bits :
    run (.i2cRd32Cr2 0) (i2cBench { i2c0 with itevten := true, dmaen := true } []) values = some [0x00000A00] := by
  decide +kernel

/-! ### Reset (section 2.7) -/

theorem test_dma_reset :
    run (.dmaReset 0) (dmaBench (stream 3 pm4 { fins [3] dma0 with dq := [3] })) State.dmas = some [dma0] := by
  decide +kernel

theorem test_i2c_reset_lowers_the_line :
    run (.i2cReset 0) (bench (stream 6 { Stream.reset with req := true } dma0) { tx [] with dmaen := true } [] [])
      (fun t => (t.i2cs, t.dmas)) = some ([i2c0], [dma0]) := by decide +kernel

/-! ### Stepping -/

/-- `withFetchWord` presents exactly one operation, and `step` performs it. -/
theorem test_step_runs_the_word :
    sees (fun t => (t.ops, dmaOf (fun d => d.streams[0].ndt) t)) (step (rst.withFetchWord 64 0x0000000700001414)) =
      some ([], some 7) := by decide +kernel

theorem test_step_refuses_a_reserved_word :
    refusal (step (rst.withFetchWord 32 0x00001811)) = some .reservedDescriptor := by decide +kernel

/-! ### Witnesses of the hypotheses of the statements -/

/-- A checkable form of `State.QuietEvents`. -/
theorem quietEvents_of {s : State} {evs : List ReqEvent}
    (h : evs.all (fun v => match s.dmas[v.dma]? with
      | some d => !v.level || !d.streams[v.stream].en
      | none => false) = true) : s.QuietEvents evs := by
  intro v hv
  have := List.all_eq_true.mp h v hv
  split at this
  · next d hd => exact ⟨d, hd, fun hlev => by simpa [hlev] using this⟩
  · cases this

/-- A checkable form of `State.NoDispatch`. -/
theorem noDispatch_of {s : State} {evs : List ReqEvent}
    (h : evs.all (fun v => match s.dmas[v.dma]? with
      | some d => !v.level || !d.streams[v.stream].en
      | none => false) = true) (hl : evs.length ≤ s.cascadeLimit) : s.NoDispatch evs :=
  ⟨quietEvents_of h, hl⟩

/-- The same machine with another `CASCADE_LIMIT`. -/
def limited (n : Nat) (s : State) : State := { s with cascadeLimit := n }

/-- No I²C instance comes before instance 0. -/
theorem none_before {α : Type} {P : Nat → α → Prop} {xs : List α} : ∀ j c, xs[j]? = some c → j < 0 → P j c :=
  fun _ _ _ h => absurd h (Nat.not_lt_zero _)

/-- The first and the last offset of a wildcard row. -/
theorem test_hyp_DecodeOfEncodeIsIdentity :
    WellFormed (.dmaRd32Unmapped 3 0x0D0) ∧ WellFormed (.dmaWr32Unmapped 0 0x3FC 5) ∧
      WellFormed (.i2cWr16Unaligned 1 0x3FE 5) := by decide +kernel

theorem test_hyp_EncodeOfDecodeIsDescriptor :
    decode ⟨2, 0x000017FC, 9⟩ = .ok (.dmaWr32Unmapped 2 0x3FC 9) ∧ decode ⟨2, 0x000010D0, 9⟩ = .ok (.dmaRd32Unmapped 2 0x0D0) :=
  ⟨rfl, rfl⟩

theorem test_hyp_StepRunsTheDecodedOperation :
    (rst.present ⟨0, 0x00001810, 0⟩).ops = ⟨0, 0x00001810, 0⟩ :: [] ∧ decode ⟨0, 0x00001810, 0⟩ = .ok (.dmaSync 0) ∧
      decode ⟨0, 0x00001811, 0⟩ = .error .reservedDescriptor ∧ rst.ops = [] := ⟨rfl, rfl, rfl, rfl⟩

/-- The first and the last byte of each window. -/
theorem test_hyp_BusMasterAccessReachesItsWindow :
    rst.i2cs[0]? = some i2c0 ∧ rst.dmas[0]? = some dma0 ∧
    (∀ j c, rst.i2cs[j]? = some c → j < 0 → inWindow c.site.page 0x40005400 = false) ∧
    (∀ j d, rst.dmas[j]? = some d → j < 0 → inWindow d.site.page 0x40026000 = false) ∧
    i2c0.site.page.toNat * 0x400 = 0x40005400 ∧ 0x400057FF < i2c0.site.page.toNat * 0x400 + 0x400 ∧
    (∀ c ∈ rst.i2cs, inWindow c.site.page 0x40026000 = false ∧ inWindow c.site.page 0x400263FF = false) ∧
    dma0.site.page.toNat * 0x400 = 0x40026000 ∧ 0x400263FF < dma0.site.page.toNat * 0x400 + 0x400 :=
  ⟨by decide +kernel, by decide +kernel, none_before, none_before, by decide +kernel, by decide +kernel, by decide +kernel,
    by decide +kernel, by decide +kernel⟩

/-- An instance with something in it, for the statements that ask for no more than an instance. -/
def busyDma : Dma := stream 0 pm4 { irqs [0, 7] (fins [0, 3, 4, 7] dma0) with dq := [7, 0] }

theorem test_hyp_StatusRegistersShowFinishedBits : (dmaBench busyDma).dmas[0]? = some busyDma := by decide +kernel
theorem test_hyp_ClearRegistersClearFinishedAndIrq : (dmaBench busyDma).dmas[0]? = some busyDma := by decide +kernel
theorem test_hyp_AuxiliaryDmaRegistersHoldOrIgnore : (dmaBench busyDma).dmas[0]? = some busyDma := by decide +kernel
theorem test_hyp_StreamRegistersReadTheirFields : (dmaBench busyDma).dmas[0]? = some busyDma := by decide +kernel

theorem test_hyp_StreamRegisterWritesRespectEnable :
    (dmaBench busyDma).dmas[0]? = some busyDma ∧ busyDma.streams[(0 : StreamId)].en = true ∧
      busyDma.streams[(7 : StreamId)].en = false ∧ StreamReg.m1ar ∈ [StreamReg.ndtr, .par, .m0ar, .m1ar] := by
  decide +kernel

/-- An enable edge of a stream whose direction is not M→M, one of an M→M stream whose request is low, and a disable. -/
theorem test_hyp_CrWriteStoresFieldsAndLatchesAtEdge :
    (dmaBench busyDma).dmas[0]? = some busyDma ∧ busyDma.streams[(7 : StreamId)] = Stream.reset ∧
    ¬(Stream.reset.en = false ∧ (0x00000001#32).getLsbD 0 = true ∧ (0x00000001#32).extractLsb' 6 2 = 2#2 ∧
      Stream.reset.req = true) ∧
    ¬(Stream.reset.en = false ∧ (0x00000081#32).getLsbD 0 = true ∧ (0x00000081#32).extractLsb' 6 2 = 2#2 ∧
      Stream.reset.req = true) ∧
    busyDma.streams[(0 : StreamId)] = pm4 ∧
    ¬(pm4.en = false ∧ (0x00000410#32).getLsbD 0 = true ∧ (0x00000410#32).extractLsb' 6 2 = 2#2 ∧ pm4.req = true) := by
  decide +kernel

/-- Each direction. -/
theorem test_hyp_ItemAddressesFollowDirection : pm4.dir = 0#2 ∧ mp2.dir = 1#2 ∧ { mm2 with dir := 2 }.dir = 2#2 := by
  decide +kernel

/-- The four routes, at the edges of the windows. -/
theorem test_hyp_DmaAccessesAreRoutedByAddress :
    rst.route 0x40005400 .word = .i2c 0 i2c0 ∧ rst.route 0x400057FF .byte = .i2c 0 i2c0 ∧
    rst.route 0x40005800 .word = .bus ∧ rst.route 0x400053FC .word = .bus ∧ rst.route 0x400053FF .byte = .bus ∧
    rst.route 0x400053FD .word = .straddle ∧ rst.route 0x400053FF .half = .straddle ∧
    rst.route 0x40025FFE .word = .straddle ∧ rst.route 0x40026000 .word = .dmaWindow ∧
    rst.route 0x400263FF .byte = .dmaWindow ∧ rst.route 0x40026400 .byte = .bus := by decide +kernel

theorem test_hyp_RisingRequestMovesOneItem :
    (dmaBench (stream 0 pm4 dma0)).dmas[0]? = some (stream 0 pm4 dma0) ∧ (dmaBench dma0).wired 0 0 = false ∧
    ∀ m ∈ [pm4, { pm4 with ndt := 1 }, { pm4 with ndt := 1, circ := true, tcie := true }, mp2],
      m.req = false ∧ m.en = true ∧ (m.dir = 0#2 ∨ m.dir = 1#2) ∧ m.ndt ≠ 0 ∧
      (dmaBench (stream 0 m dma0)).route (srcAddr m 0) (copyWidth m) = .bus ∧
      (dmaBench (stream 0 m dma0)).route (dstAddr m 0) (copyWidth m) = .bus := by decide +kernel

/-- None, some and all of the items. -/
theorem test_hyp_PulsesMoveOneItemEach :
    (dmaBench (stream 0 pm4 dma0)).dmas[0]? = some (stream 0 pm4 dma0) ∧ (dmaBench (stream 0 pm4 dma0)).wired 0 0 = false ∧
    pm4.req = false ∧ pm4.en = true ∧ pm4.dir = 0#2 ∧ pm4.ndt.toNat ≤ pm4.latch.toNat ∧ pm4.ndt ≠ 0 ∧
    (∀ n ∈ [0, 1, 4], n ≤ pm4.ndt.toNat) ∧
    ∀ i, i < 4 → (dmaBench (stream 0 pm4 dma0)).route (srcAddr pm4 i) (copyWidth pm4) = .bus ∧
      (dmaBench (stream 0 pm4 dma0)).route (dstAddr pm4 i) (copyWidth pm4) = .bus := by decide +kernel

def mm2on : Stream := { mm2 with en := true, dir := 2, latch := 2 }

theorem test_hyp_EnableOfReadyMemoryStreamRunsBurst :
    (dmaBench (stream 0 mm2 dma0)).dmas[0]? = some (stream 0 mm2 dma0) ∧
    mm2.en = false ∧ mm2.req = true ∧ (0x00005681#32).getLsbD 0 = true ∧ (0x00005681#32).extractLsb' 6 2 = 2#2 ∧
    mm2.ndt ≠ 0 ∧ Stream.latchNdt (Stream.storeCr 0x00005681 mm2) = mm2on ∧
    ∀ i, i < mm2.ndt.toNat →
      (dmaBench (stream 0 mm2 dma0)).route (srcAddr mm2on i) (copyWidth mm2on) = .bus ∧
      (dmaBench (stream 0 mm2 dma0)).route (dstAddr mm2on i) (copyWidth mm2on) = .bus := by decide +kernel

def mm2low : Stream := { mm2on with req := false }

theorem test_hyp_RisingRequestRunsMemoryBurst :
    (dmaBench (stream 0 mm2low dma0)).dmas[0]? = some (stream 0 mm2low dma0) ∧ (dmaBench dma0).wired 0 0 = false ∧
    mm2low.req = false ∧ mm2low.en = true ∧ mm2low.dir = 2#2 ∧ mm2low.ndt ≠ 0 ∧
    ∀ i, i < mm2low.ndt.toNat →
      (dmaBench (stream 0 mm2low dma0)).route (srcAddr mm2low i) (copyWidth mm2low) = .bus ∧
      (dmaBench (stream 0 mm2low dma0)).route (dstAddr mm2low i) (copyWidth mm2low) = .bus := by decide +kernel

/-- A fall, a level held, and a rise at a disabled stream. -/
theorem test_hyp_RequestWithoutEdgeOnlySetsLatch :
    (dmaBench (stream 0 pm4 dma0)).dmas[0]? = some (stream 0 pm4 dma0) ∧ (dmaBench dma0).wired 0 0 = false ∧
    ¬(pm4.req = false ∧ false = true ∧ pm4.en = true) ∧ ¬(mm2.req = false ∧ true = true ∧ mm2.en = true) ∧
    ¬(Stream.reset.req = false ∧ true = true ∧ Stream.reset.en = true) := by decide +kernel

theorem test_hyp_EmptyStreamFailsItsTransfer :
    (dmaBench (stream 0 cr411 dma0)).dmas[0]? = some (stream 0 cr411 dma0) ∧ cr411.ndt = 0 ∧
    (dmaBench (stream 0 cr411 dma0)).wired 0 0 = false ∧ cr411.req = false ∧ cr411.en = true ∧ cr411.dir ≠ 3#2 ∧
    (dmaBench (stream 1 { Stream.reset with req := true } dma0)).dmas[0]? =
      some (stream 1 { Stream.reset with req := true } dma0) ∧
    { Stream.reset with req := true }.en = false ∧ { Stream.reset with req := true }.ndt = 0 ∧
    (0x00000081#32).getLsbD 0 = true ∧ (0x00000081#32).extractLsb' 6 2 = 2#2 := by decide +kernel

/-- The wired input 6, the reserved direction, and a source that lies in the DMA window, straddles into a window, and is
misaligned in the I²C window. -/
theorem test_hyp_RequestRefusals :
    (dmaBench (stream 0 pm4 dma0)).dmas[0]? = some (stream 0 pm4 dma0) ∧ rst.wired 0 6 = true ∧ rst.wired 0 0 = false ∧
    pm4.req = false ∧ pm4.en = true ∧ pm4.dir ≠ 3#2 ∧ 0 < pm4.ndt.toNat ∧ { pm4 with dir := 3 }.dir = 3#2 ∧
    rst.RefusesAccess (srcAddr { pm4 with par := 0x40026000 } 0) .byte .dmaSelfAccess ∧
    rst.RefusesAccess (srcAddr { pm4 with par := 0x400053FF, psize := 1 } 0)
      (copyWidth { pm4 with par := 0x400053FF, psize := 1 }) .misalignedAccess ∧
    rst.RefusesAccess (srcAddr { pm4 with par := 0x40005411, psize := 1 } 0)
      (copyWidth { pm4 with par := 0x40005411, psize := 1 }) .misalignedAccess :=
  ⟨by decide +kernel, by decide +kernel, by decide +kernel, by decide +kernel, by decide +kernel, by decide +kernel,
    by decide +kernel, by decide +kernel, .inl ⟨by decide +kernel, rfl⟩, .inr (.inl ⟨by decide +kernel, rfl⟩),
    .inr (.inr ⟨⟨0, i2c0, by decide +kernel⟩, by decide +kernel, rfl⟩)⟩

/-- P→M of half-words whose source is allowed and whose destination is `a`. -/
def toHalf (a : Word) : Stream := { pm4 with psize := 1, m0ar := a }

/-- A destination in the DMA window, one that straddles into a window, and one misaligned in the I²C window. -/
theorem test_hyp_RequestRefusals_destination :
    rst.AllowsAccess (srcAddr (toHalf 0x400263FE) 0) .half ∧ copyWidth (toHalf 0x400263FE) = .half ∧
    rst.RefusesAccess (dstAddr (toHalf 0x400263FE) 0) .half .dmaSelfAccess ∧
    rst.RefusesAccess (dstAddr (toHalf 0x400053FF) 0) .half .misalignedAccess ∧
    rst.RefusesAccess (dstAddr (toHalf 0x40005411) 0) .half .misalignedAccess :=
  ⟨.of_bus (by decide +kernel), by decide +kernel, .inl ⟨by decide +kernel, rfl⟩,
    .inr (.inl ⟨by decide +kernel, rfl⟩), .inr (.inr ⟨⟨0, i2c0, by decide +kernel⟩, by decide +kernel, rfl⟩)⟩

/-- A ready burst of two half-words to 0x400053FD: item 0 lies before the I²C window, item 1 straddles into it. -/
def mmStraddle : Stream := { mm2 with
  en := true, req := false, dir := 2, latch := 2, psize := 1, msize := 1, m0ar := 0x400053FD }

theorem test_hyp_RequestRefusals_later_item :
    mmStraddle.req = false ∧ mmStraddle.en = true ∧ mmStraddle.dir = 2#2 ∧ 1 < mmStraddle.ndt.toNat ∧
    (∀ i, i < 1 → rst.AllowsAccess (srcAddr mmStraddle i) (copyWidth mmStraddle) ∧
      rst.AllowsAccess (dstAddr mmStraddle i) (copyWidth mmStraddle)) ∧
    rst.AllowsAccess (srcAddr mmStraddle 1) (copyWidth mmStraddle) ∧
    rst.RefusesAccess (dstAddr mmStraddle 1) (copyWidth mmStraddle) .misalignedAccess := by
  refine ⟨?_, ?_, ?_, ?_, fun i hi => ?_, .of_bus ?_, .inr (.inl ⟨?_, rfl⟩)⟩
  case refine_5 =>
    obtain rfl : i = 0 := by omega
    exact ⟨.of_bus (by decide +kernel), .of_bus (by decide +kernel)⟩
  all_goals decide +kernel

/-- A burst of two words into CR2 of an empty transmitter: `DMAEN` is set and cleared, so `DMA_TX` rises and falls; its
stream 6 is disabled. -/
def mmCr2 : Stream := { mm2 with en := true, req := false, dir := 2, latch := 2, minc := false, m0ar := 0x40005404 }
def burstState (limit : Nat) : State := limited limit (bench (stream 0 mmCr2 dma0) (tx []) [0x800, 0] [])

/-- Two line events, and a limit of one. -/
theorem test_hyp_RequestRefusals_limit : ∃ w, dmaReq 0 0 true ⟨burstState 1, []⟩ = .ok w ∧
    w.pending = [⟨0, 6, true⟩, ⟨0, 6, false⟩] ∧ w.st.QuietEvents w.pending ∧
    (burstState 1).cascadeLimit < w.pending.length := by
  have h : (match dmaReq 0 0 true ⟨burstState 1, []⟩ with
      | .ok w => w.pending == [⟨0, 6, true⟩, ⟨0, 6, false⟩] &&
          w.pending.all (fun v => match w.st.dmas[v.dma]? with
            | some d => !v.level || !d.streams[v.stream].en
            | none => false)
      | .error _ => false) = true := by decide +kernel
  split at h
  · next w hw =>
    rw [Bool.and_eq_true, beq_iff_eq] at h
    exact ⟨w, hw, h.1, quietEvents_of h.2, by rw [h.1]; decide +kernel⟩
  · cases h

/-- R382: with a limit of two the burst ends with both events delivered, with a limit of one it is refused. -/
theorem test_cascade_limit :
    run (.dmaReq 0 0 true) (burstState 2) (dmaOf fun d => d.fin[0]) = some (some true) ∧
    refusal (exec (.dmaReq 0 0 true) (burstState 1)) = some .cascadeLimit := by decide +kernel

theorem test_hyp_DmaSyncAssertsTheHeadIrq :
    (dmaBench busyDma).dmas[0]? = some busyDma ∧ busyDma.dq = 7 :: [0] ∧ rst.dmas[0]? = some dma0 ∧ dma0.dq = [] := by
  decide +kernel

theorem test_hyp_DrainAssertsEveryQueuedIrq : (dmaBench busyDma).dmas[0]? = some busyDma := by decide +kernel
theorem test_hyp_DmaResetRestoresTheResetValues : (dmaBench busyDma).dmas[0]? = some busyDma := by decide +kernel

theorem test_hyp_DmaNarrowReadsProject :
    (dmaBench busyDma).dmas[0]? = some busyDma ∧ WellFormed (.dmaRd16 0 0x000) ∧ WellFormed (.dmaRd16 0 0x3FE) := by
  decide +kernel

theorem test_hyp_DmaNarrowWritesMerge :
    (dmaBench busyDma).dmas[0]? = some busyDma ∧ WellFormed (.dmaWr16 0 0x000 1) ∧ WellFormed (.dmaWr16 0 0x3FE 1) := by
  decide +kernel

/-- A CR of an enabled stream, and an offset that is no CR. -/
theorem test_hyp_DmaNarrowWritesComplete :
    (dmaBench busyDma).dmas[0]? = some busyDma ∧ WellFormed (.dmaWr16 0 0x012 1) ∧
    (∀ x : StreamId, DmaReg.ofOffset ((0x012#10) &&& 0x3FC#10) = .stream x .cr → busyDma.streams[x].en = true) ∧
    ∀ x : StreamId, DmaReg.ofOffset ((0x02E#10) &&& 0x3FC#10) = .stream x .cr → busyDma.streams[x].en = true := by
  decide +kernel

theorem test_hyp_MisalignedTransactionsAreRefused :
    Instr.i2cWr16Misaligned 0 0x011 1 ∈ [Instr.dmaRd32MisalignedOdd 0 0x011, .i2cWr16Misaligned 0 0x011 1] := by
  decide +kernel

/-- The first absent instance of each kind; the offsets that the narrow operations admit, at the ends of a window. -/
theorem test_hyp_AbsentInstancesAreRefused :
    rst.dmas[1]? = none ∧ rst.i2cs[1]? = none ∧ rst.wired 1 0 = false ∧
    WellFormed (.dmaRd8 1 0x3FF) ∧ WellFormed (.dmaWr8 1 0x000 1) ∧ WellFormed (.dmaRd16 1 0x3FE) ∧
    WellFormed (.dmaWr16 1 0x000 1) ∧ WellFormed (.dmaSync 1) ∧ WellFormed (.dmaReset 1) ∧
    WellFormed (.i2cRd8 1 0x3FF) ∧ WellFormed (.i2cRd16 1 0x000) ∧ WellFormed (.i2cWr8Aligned 1 0x3FC 1) ∧
    WellFormed (.i2cWr8Unaligned 1 0x3FF 1) ∧ WellFormed (.i2cWr16Aligned 1 0x000 1) ∧
    WellFormed (.i2cWr16Unaligned 1 0x3FE 1) ∧ WellFormed (.i2cSync 1) ∧ WellFormed (.i2cReset 1) := by decide +kernel

/-! #### I²C -/

/-- A transmitter with `DMAEN` whose `DMA_TX` is wired to the disabled stream 6, and the same for `DMA_RX` and stream 5. -/
def txDma (q : List Byte) : I2c := { tx q with dmaen := true }
def rxDma (q : List Byte) : I2c := { rx q with dmaen := true }

/-- A fall of `DMA_TX` and a rise of `DMA_RX`, delivered and over a limit of one. -/
theorem test_hyp_QuietLineChangesOnlySetLatches :
    rst.QuietEvents (lineEvents (txDma []) (rxDma [1])) ∧ (limited 1 rst).QuietEvents (lineEvents (txDma []) (rxDma [1])) ∧
    lineEvents (txDma []) (rxDma [1]) = [⟨0, 6, false⟩, ⟨0, 5, true⟩] ∧ 2 ≤ rst.cascadeLimit ∧
    (limited 1 rst).cascadeLimit < 2 :=
  ⟨quietEvents_of (by decide +kernel), quietEvents_of (by decide +kernel), by decide +kernel, by decide +kernel,
    by decide +kernel⟩

theorem test_hyp_Sr1ReadAnswersThenSteps : (i2cBench (sr1 true) []).i2cs[0]? = some (sr1 true) := by decide +kernel

/-- Both directions out of AwaitingSr2Read, the first raising `DMA_TX`, and a state that the read leaves. -/
theorem test_hyp_Sr2ReadAnswersThenSteps :
    (i2cBench { sr2 false with dmaen := true } []).i2cs[0]? = some { sr2 false with dmaen := true } ∧
    (i2cBench { sr2 false with dmaen := true } []).NoDispatch (lineEvents { sr2 false with dmaen := true } (txDma [])) ∧
    (i2cBench (sr2 true) []).NoDispatch (lineEvents (sr2 true) { rx [] with dq := [.pull] }) ∧
    (i2cBench i2c0 []).NoDispatch (lineEvents i2c0 i2c0) ∧ I2c.sr2ReadStep { sr2 false with dmaen := true } = txDma [] :=
  ⟨by decide +kernel, noDispatch_of (by decide +kernel) (by decide +kernel),
    noDispatch_of (by decide +kernel) (by decide +kernel), noDispatch_of (by decide +kernel) (by decide +kernel),
    by decide +kernel⟩

theorem test_hyp_AddrReadsOneUntilSr2IsRead :
    (i2cBench (sr1 false) []).i2cs[0]? = some (sr1 false) ∧ (sr1 false).st = .awaitingSr1Read ∧
      (sr1 false).dmaen = false := by decide +kernel

theorem test_hyp_I2cControlReadsAndIgnoredWrites : (i2cBench (tx [1]) []).i2cs[0]? = some (tx [1]) := by decide +kernel

theorem test_hyp_Sr1WriteClearsAcknowledgeFailure :
    (i2cBench { i2c0 with af := true } []).i2cs[0]? = some { i2c0 with af := true } := by decide +kernel

/-- `DMAEN` set (the line rises) and cleared (it falls). -/
theorem test_hyp_Cr2WriteStoresControlBits :
    (i2cBench (tx []) []).i2cs[0]? = some (tx []) ∧ I2c.writeCr2 0x800 (tx []) = txDma [] ∧
    (i2cBench (tx []) []).NoDispatch (lineEvents (tx []) (txDma [])) ∧
    (i2cBench (txDma []) []).NoDispatch (lineEvents (txDma []) (tx [])) :=
  ⟨by decide +kernel, by decide +kernel, noDispatch_of (by decide +kernel) (by decide +kernel),
    noDispatch_of (by decide +kernel) (by decide +kernel)⟩

theorem test_hyp_Cr1WriteWithoutCommit :
    (i2cBench addressing []).i2cs[0]? = some addressing ∧ addressing.st = .awaitingAddress ∧ addressing.sel = none ∧
    i2c0.st = .idle ∧ i2c0.sel = none ∧ (0x400#32).getLsbD 15 = false ∧ (0x100#32).getLsbD 15 = false ∧
    (0x200#32).getLsbD 15 = false ∧ (0x300#32).getLsbD 15 = false ∧ (0x300#32).getLsbD 9 = true := by decide +kernel

/-- A transmitter with nothing queued, one whose write fails, and one whose write succeeds. -/
theorem test_commits :
    Commits 0 0x50 [] ⟨[some [], some []], 0, []⟩ (some []) (some []) ⟨[some []], 0, [⟨0, 0x50, .finish, some []⟩]⟩ ∧
    Commits 0 0x50 [1] ⟨[none, none], 0, []⟩ none none ⟨[none], 0, [⟨0, 0x50, .write [1], none⟩]⟩ ∧
    Commits 0 0x50 [1] ⟨[some [], some []], 0, []⟩ (some []) (some [])
      ⟨[], 0, [⟨0, 0x50, .write [1], some []⟩, ⟨0, 0x50, .finish, some []⟩]⟩ :=
  ⟨⟨⟨[some []], 0, []⟩, ⟨[], 0, []⟩, rfl, rfl, .inl ⟨rfl, rfl⟩⟩,
    ⟨⟨[none], 0, []⟩, ⟨[], 0, []⟩, rfl, rfl, .inr (.inl ⟨by simp, rfl, rfl⟩)⟩,
    ⟨⟨[some []], 0, []⟩, ⟨[], 0, []⟩, rfl, rfl, .inr (.inr ⟨by simp, by simp, rfl⟩)⟩⟩

/-- STOP of an empty transmitter whose `DMA_TX` is high, START with a byte queued whose write fails, START and START with
STOP with a byte queued whose write succeeds; the commits are those of `test_commits`. -/
theorem test_hyp_StopAndRepeatedStartCommit :
    (i2cBench (txDma []) [some [], some []]).i2cs[0]? = some (txDma []) ∧ (txDma []).sel = some 0x50 ∧
    (txDma []).st ≠ .idle ∧ (txDma []).st ≠ .awaitingAddress ∧ (tx [1]).sel = some 0x50 ∧ (tx [1]).st = .awaitingData ∧
    (0x200#32).getLsbD 15 = false ∧ (0x200#32).getLsbD 9 = true ∧ (0x100#32).getLsbD 15 = false ∧
    (0x100#32).getLsbD 8 = true ∧ (0x300#32).getLsbD 15 = false ∧ (0x300#32).getLsbD 8 = true ∧
    (i2cBench (txDma []) [some [], some []]).NoDispatch (lineEvents (txDma []) { i2c0 with dmaen := true }) ∧
    (i2cBench (tx [1]) [none, none]).NoDispatch (lineEvents (tx [1]) { i2c0 with af := true }) ∧
    (i2cBench (tx [1]) [some [], some []]).NoDispatch (lineEvents (tx [1]) addressing) ∧
    (i2cBench (tx [1]) [some [], some []]).NoDispatch (lineEvents (tx [1]) i2c0) := by
  refine ⟨?_, ?_, ?_, ?_, ?_, ?_, ?_, ?_, ?_, ?_, ?_, ?_, noDispatch_of ?_ ?_, noDispatch_of ?_ ?_, noDispatch_of ?_ ?_,
    noDispatch_of ?_ ?_⟩ <;> decide +kernel

/-- R341 (D37): START commits, then STOP finds no child selected; the calls are those of one commit. -/
theorem test_start_with_stop_commits :
    run (.i2cWr32Cr1 0 0x300) (i2cBench (tx [0x01]) [some [], some []]) (fun t => (t.i2cs, t.child.calls)) =
      some ([i2c0], [⟨0, 0x50, .write [0x01], some []⟩, ⟨0, 0x50, .finish, some []⟩]) := by decide +kernel

/-- SWRST alone, with no child selected, with START in the address phase, and with STOP and START beside it; the commits are
those of `test_commits`. -/
theorem test_hyp_SoftResetKeepsOnlyDeferredActions :
    (i2cBench (txDma []) []).i2cs[0]? = some (txDma []) ∧ (0x8000#32).getLsbD 15 = true ∧ (0x8000#32).getLsbD 8 = false ∧
    (0x8000#32).getLsbD 9 = false ∧ (0x8300#32).getLsbD 15 = true ∧ (0x8300#32).getLsbD 9 = true ∧
    (0x8100#32).getLsbD 15 = true ∧ (0x8100#32).getLsbD 8 = true ∧ (0x8100#32).getLsbD 9 = false ∧
    addressing.sel = none ∧ addressing.st = .awaitingAddress ∧ (txDma []).sel = some 0x50 ∧
    (txDma []).st = .awaitingData ∧ (i2cBench addressing []).NoDispatch (lineEvents addressing i2c0) ∧
    (i2cBench (txDma []) [some [], some []]).NoDispatch (lineEvents (txDma []) i2c0) ∧
    (i2cBench (tx [1]) [none, none]).NoDispatch (lineEvents (tx [1]) i2c0) := by
  refine ⟨?_, ?_, ?_, ?_, ?_, ?_, ?_, ?_, ?_, ?_, ?_, ?_, ?_, noDispatch_of ?_ ?_, noDispatch_of ?_ ?_,
    noDispatch_of ?_ ?_⟩ <;> decide +kernel

/-- R341: the commit's child calls come before the soft reset, which keeps the deferred actions. -/
theorem test_soft_reset_after_stop :
    run (.i2cWr32Cr1 0 0x8200) (i2cBench { tx [0x01] with dq := [.flush] } [some [], none])
      (fun t => (t.i2cs, t.child.calls)) =
      some ([{ i2c0 with dq := [.flush] }], [⟨0, 0x50, .write [0x01], some []⟩, ⟨0, 0x50, .finish, none⟩]) := by
  decide +kernel

theorem test_hyp_AddressWriteSelectsOrFails :
    (i2cBench addressing []).i2cs[0]? = some addressing ∧ addressing.st = .awaitingAddress ∧
    (0xA1#32).extractLsb' 1 7 ∈ addressing.site.children ∧ (0xC0#32).extractLsb' 1 7 ∉ addressing.site.children := by
  decide +kernel

theorem test_hyp_DataWriteQueuesOneByte :
    (i2cBench (txDma []) []).i2cs[0]? = some (txDma []) ∧ (txDma []).st = .awaitingData ∧
    (i2cBench (txDma []) []).NoDispatch (lineEvents (txDma []) { txDma [0xAA] with dq := [.flush] }) ∧
    i2c0.st ≠ .awaitingData ∧ i2c0.st ≠ .awaitingAddress :=
  ⟨by decide +kernel, by decide +kernel, noDispatch_of (by decide +kernel) (by decide +kernel), by decide +kernel,
    by decide +kernel⟩

/-- The last byte (`DMA_RX` falls), an empty queue, and another state. -/
theorem test_hyp_DataReadDequeuesOneByte :
    (i2cBench (rxDma [7]) []).i2cs[0]? = some (rxDma [7]) ∧ (rxDma [7]).st = .receivingData ∧ (tx []).st ≠ .receivingData ∧
    (i2cBench (rxDma [7]) []).NoDispatch (lineEvents (rxDma [7]) { rxDma [] with dq := [.pull] }) ∧
    (i2cBench (rx []) []).NoDispatch (lineEvents (rx []) { rx [] with dq := [.pull] }) :=
  ⟨by decide +kernel, by decide +kernel, by decide +kernel, noDispatch_of (by decide +kernel) (by decide +kernel),
    noDispatch_of (by decide +kernel) (by decide +kernel)⟩

/-- A pull that finds Idle, one that gets a batch (`DMA_RX` rises at a disabled stream), one that fails. -/
theorem test_hyp_SyncPullsABatch :
    (i2cBench { rxDma [] with dq := [.pull] } [some [1, 2]]).i2cs[0]? = some { rxDma [] with dq := [.pull] } ∧
    (rxDma []).st = .receivingData ∧ (rxDma []).sel = some 0x50 ∧ i2c0.st ≠ .receivingData ∧
    (i2cBench { rxDma [] with dq := [.pull] } [some [1, 2]]).child.draw = (some [1, 2], ⟨[], 0, []⟩) ∧
    (i2cBench { rxDma [] with dq := [.pull] } [none]).child.draw = (none, ⟨[], 0, []⟩) ∧
    (i2cBench { rxDma [] with dq := [.pull] } [some [1, 2]]).NoDispatch
      (lineEvents { rxDma [] with dq := [.pull] } (rxDma [1, 2])) ∧
    (i2cBench { rxDma [] with dq := [.pull] } [none]).NoDispatch
      (lineEvents { rxDma [] with dq := [.pull] } { i2c0 with dmaen := true, rw := true, af := true }) := by
  refine ⟨?_, ?_, ?_, ?_, ?_, ?_, noDispatch_of ?_ ?_, noDispatch_of ?_ ?_⟩ <;> decide +kernel

/-- An empty queue, a flush of nothing, one that succeeds (`DMA_TX` rises at a disabled stream), one that fails. -/
theorem test_hyp_SyncFlushesTheQueue :
    rst.i2cs[0]? = some i2c0 ∧ i2c0.dq = [] ∧
    (i2cBench { txDma [1] with dq := [.flush] } [some []]).i2cs[0]? = some { txDma [1] with dq := [.flush] } ∧
    { txDma [] with dq := [.flush] }.txq = [] ∧ { txDma [1] with dq := [.flush] }.dq = .flush :: [] ∧
    (txDma [1]).txq ≠ [] ∧ (txDma [1]).sel = some 0x50 ∧
    (i2cBench { txDma [1] with dq := [.flush] } [some []]).child.draw = (some [], ⟨[], 0, []⟩) ∧
    (i2cBench { txDma [1] with dq := [.flush] } [none]).child.draw = (none, ⟨[], 0, []⟩) ∧
    (i2cBench { txDma [1] with dq := [.flush] } [some []]).NoDispatch
      (lineEvents { txDma [1] with dq := [.flush] } (txDma [])) ∧
    (i2cBench { txDma [1] with dq := [.flush] } [none]).NoDispatch
      (lineEvents { txDma [1] with dq := [.flush] } { i2c0 with dmaen := true, af := true }) := by
  refine ⟨?_, ?_, ?_, ?_, ?_, ?_, ?_, ?_, ?_, noDispatch_of ?_ ?_, noDispatch_of ?_ ?_⟩ <;> decide +kernel

theorem test_hyp_I2cResetRestoresTheResetValues :
    (i2cBench (txDma []) []).i2cs[0]? = some (txDma []) ∧
    (i2cBench (txDma []) []).NoDispatch (lineEvents (txDma []) i2c0) :=
  ⟨by decide +kernel, noDispatch_of (by decide +kernel) (by decide +kernel)⟩

/-- The high half of DR, whose read takes a byte. -/
theorem test_hyp_I2cNarrowReadsHaveTheFullEffect :
    (i2cBench (rxDma [7]) []).i2cs[0]? = some (rxDma [7]) ∧ WellFormed (.i2cRd16 0 0x012) ∧
    I2c.readReg (I2cReg.ofOffset (0x012#10 &&& 0x3FC#10)) (rxDma [7]) = (7, { rxDma [] with dq := [.pull] }) ∧
    (i2cBench (rxDma [7]) []).NoDispatch (lineEvents (rxDma [7]) { rxDma [] with dq := [.pull] }) :=
  ⟨by decide +kernel, by decide +kernel, by decide +kernel, noDispatch_of (by decide +kernel) (by decide +kernel)⟩

theorem test_hyp_I2cNarrowWritesZeroExtendOrAreIgnored :
    rst.i2cs[0]? = some i2c0 ∧ WellFormed (.i2cWr8Aligned 0 0x000 1) ∧ WellFormed (.i2cWr16Aligned 0 0x3FC 1) ∧
    WellFormed (.i2cWr8Unaligned 0 0x3FF 1) ∧ WellFormed (.i2cWr16Unaligned 0 0x3FE 1) := by decide +kernel

theorem test_hyp_I2cAlignedNarrowWritesComplete :
    (i2cBench (txDma []) []).i2cs[0]? = some (txDma []) ∧ WellFormed (.i2cWr8Aligned 0 0x010 0xAA) ∧
    WellFormed (.i2cWr16Aligned 0 0x010 0xAA) ∧
    i2cWriteReg 0 (I2cReg.ofOffset 0x010) (((0xAA : Word).extractLsb' 0 8).setWidth 32) (txDma []) ⟨[], 0, []⟩ =
      ({ txDma [0xAA] with dq := [.flush] }, ⟨[], 0, []⟩) ∧
    i2cWriteReg 0 (I2cReg.ofOffset 0x010) (((0xAA : Word).extractLsb' 0 16).setWidth 32) (txDma []) ⟨[], 0, []⟩ =
      ({ txDma [0xAA] with dq := [.flush] }, ⟨[], 0, []⟩) ∧
    (i2cBench (txDma []) []).NoDispatch (lineEvents (txDma []) { txDma [0xAA] with dq := [.flush] }) :=
  ⟨by decide +kernel, by decide +kernel, by decide +kernel, by decide +kernel, by decide +kernel,
    noDispatch_of (by decide +kernel) (by decide +kernel)⟩

/-! #### The two blocks together (programs P3 and P4) -/

/-- Stream 6 of program P3 with one item left. -/
def mp6 : Stream := { Stream.reset with
  en := true, tcie := true, dir := 1, minc := true, ndt := 1, latch := 3, par := 0x40005410, m0ar := 0x20000100 }

/-- Stream 5 of program P4 after the first item. -/
def pm5 : Stream := { Stream.reset with
  en := true, minc := true, ndt := 1, latch := 2, par := 0x40005410, m0ar := 0x20000200 }

def flushState : State := bench (stream 6 mp6 dma0) { txDma [0x20] with dq := [.flush] } [0x30] [some []]
def sr2State : State := bench (stream 6 mp6 dma0) { sr2 false with dmaen := true } [0x30] []
def cr2State : State := bench (stream 6 mp6 dma0) (tx []) [0x30] []
def pullState : State := bench (stream 5 pm5 dma0) { rxDma [] with dq := [.pull] } [] [some [0xA5, 0xA6]]

theorem test_hyp_FlushMovesOneByteByDma :
    flushState.i2cs[0]? = some { txDma [0x20] with dq := [.flush] } ∧ flushState.dmas[0]? = some (stream 6 mp6 dma0) ∧
    (stream 6 mp6 dma0).streams[(6 : StreamId)] = mp6 ∧ (txDma [0x20]).st = .awaitingData ∧ (txDma [0x20]).rw = false ∧
    (txDma [0x20]).sel = some 0x50 ∧ (txDma [0x20]).txq ≠ [] ∧ (txDma [0x20]).rxq = [] ∧
    i2cSite.txReq = some (0, 6) ∧ mp6.en = true ∧ mp6.req = false ∧ mp6.dir = 1#2 ∧ mp6.ndt ≠ 0 ∧ mp6.pinc = false ∧
    mp6.par = baseOf i2cSite.page + 0x10#32 ∧
    (∀ j c, flushState.i2cs[j]? = some c → j < 0 → c.site.page ≠ i2cSite.page) ∧
    flushState.route (srcAddr mp6 0) (copyWidth mp6) = .bus ∧ 2 ≤ flushState.cascadeLimit ∧
    (limited 1 flushState).cascadeLimit < 2 ∧ flushState.child.draw = (some [], ⟨[], 0, []⟩) := by
  refine ⟨?_, ?_, ?_, ?_, ?_, ?_, ?_, ?_, ?_, ?_, ?_, ?_, ?_, ?_, ?_, none_before, ?_, ?_, ?_, ?_⟩ <;> decide +kernel

theorem test_flush_moves_one_byte :
    run (.i2cSync 0) flushState (fun t => (t.bus.log, t.child.calls, t.i2cs)) =
      some ([.read 0 0x20000102 .byte 0x30, .write 0 0x40005410 .byte 0x30], [⟨0, 0x50, .write [0x20], some []⟩],
        [{ txDma [0x30] with dq := [.flush] }]) := by decide +kernel

theorem test_hyp_RaisingDmaTxMovesOneByte :
    sr2State.i2cs[0]? = some { sr2 false with dmaen := true } ∧ sr2State.dmas[0]? = some (stream 6 mp6 dma0) ∧
    (stream 6 mp6 dma0).streams[(6 : StreamId)] = mp6 ∧ i2cSite.txReq = some (0, 6) ∧ mp6.en = true ∧ mp6.req = false ∧
    mp6.dir = 1#2 ∧ mp6.ndt ≠ 0 ∧ mp6.pinc = false ∧ mp6.par = baseOf i2cSite.page + 0x10#32 ∧
    (sr2 false).rw = false ∧ (sr2 false).txq = [] ∧ (sr2 false).st = .awaitingSr2Read ∧
    (∀ j c, sr2State.i2cs[j]? = some c → j < 0 → c.site.page ≠ i2cSite.page) ∧
    sr2State.route (srcAddr mp6 0) (copyWidth mp6) = .bus ∧ 2 ≤ sr2State.cascadeLimit ∧
    (limited 1 sr2State).cascadeLimit < 2 ∧ (limited 1 cr2State).cascadeLimit < 2 ∧
    cr2State.i2cs[0]? = some (tx []) ∧ (tx []).rw = false ∧ (tx []).st = .awaitingData ∧ (tx []).dmaen = false ∧
    (0x800#32).getLsbD 11 = true ∧ cr2State.route (srcAddr mp6 0) (copyWidth mp6) = .bus := by
  refine ⟨?_, ?_, ?_, ?_, ?_, ?_, ?_, ?_, ?_, ?_, ?_, ?_, ?_, none_before, ?_, ?_, ?_, ?_, ?_, ?_, ?_, ?_, ?_, ?_⟩ <;>
    decide +kernel

theorem test_sr2_read_moves_one_byte :
    run (.i2cRd32Sr2 0) sr2State (fun t => (values t, i2cOf I2c.txq t, dmaOf (fun d => (d.streams[6].crValue, d.dq)) t)) =
      some ([0x00000007], some [0x30], some (0x00000450, [6])) := by decide +kernel

/-- Stream 5 with items of two bytes. -/
def pm5half : Stream := { pm5 with psize := 1, msize := 1, ndt := 2 }
def cr2RxState : State := bench (stream 5 pm5half dma0) (rx [0xA5]) [] []

/-- A pull of two bytes by a byte stream, for which one event is enough. -/
theorem test_hyp_RaisingDmaRxMovesOneByte :
    pullState.i2cs[0]? = some { rxDma [] with dq := [.pull] } ∧ pullState.dmas[0]? = some (stream 5 pm5 dma0) ∧
    (stream 5 pm5 dma0).streams[(5 : StreamId)] = pm5 ∧ (rxDma []).st = .receivingData ∧ (rxDma []).rw = true ∧
    (rxDma []).sel = some 0x50 ∧ i2cSite.rxReq = some (0, 5) ∧ pm5.en = true ∧ pm5.req = false ∧ pm5.dir = 0#2 ∧
    pm5.ndt ≠ 0 ∧ pm5.pinc = false ∧ pm5.par = baseOf i2cSite.page + 0x10#32 ∧
    (∀ j c, pullState.i2cs[j]? = some c → j < 0 → c.site.page ≠ i2cSite.page) ∧
    pullState.route (dstAddr pm5 0) (copyWidth pm5) = .bus ∧ 1 ≤ (limited 1 pullState).cascadeLimit ∧
    (limited 0 pullState).cascadeLimit < 1 ∧ pullState.child.draw = (some (0xA5 :: [0xA6]), ⟨[], 0, []⟩) := by
  refine ⟨?_, ?_, ?_, ?_, ?_, ?_, ?_, ?_, ?_, ?_, ?_, ?_, ?_, none_before, ?_, ?_, ?_, ?_⟩ <;> decide +kernel

/-- A CR2 write with one byte in RXQ and a half-word stream, for which two events are needed. -/
theorem test_hyp_RaisingDmaRxMovesOneByte_cr2 :
    cr2RxState.i2cs[0]? = some (rx [0xA5]) ∧ cr2RxState.dmas[0]? = some (stream 5 pm5half dma0) ∧
    (stream 5 pm5half dma0).streams[(5 : StreamId)] = pm5half ∧ (rx [0xA5]).st = .receivingData ∧
    (rx [0xA5]).rw = true ∧ (rx [0xA5]).dmaen = false ∧ (rx [0xA5]).rxq = 0xA5 :: [] ∧ (0x800#32).getLsbD 11 = true ∧
    pm5half.en = true ∧ pm5half.req = false ∧ pm5half.dir = 0#2 ∧ pm5half.ndt ≠ 0 ∧ pm5half.pinc = false ∧
    pm5half.par = baseOf i2cSite.page + 0x10#32 ∧
    (∀ j c, cr2RxState.i2cs[j]? = some c → j < 0 → c.site.page ≠ i2cSite.page) ∧
    cr2RxState.route (dstAddr pm5half 0) (copyWidth pm5half) = .bus ∧ 2 ≤ cr2RxState.cascadeLimit ∧
    (limited 1 cr2RxState).cascadeLimit < 2 := by
  refine ⟨?_, ?_, ?_, ?_, ?_, ?_, ?_, ?_, ?_, ?_, ?_, ?_, ?_, ?_, none_before, ?_, ?_, ?_⟩ <;> decide +kernel

/-- R385: an item of two bytes takes one byte of RXQ. -/
theorem test_cr2_write_moves_one_byte :
    run (.i2cWr32Cr2 0 0x800) cr2RxState (fun t => (t.bus.log, t.i2cs, dmaOf (fun d => (d.streams[5].req, d.streams[5].ndt)) t)) =
      some ([.read 0 0x40005410 .half 0xA5, .write 0 0x20000200 .half 0xA5], [{ rxDma [] with dq := [.pull] }],
        some (false, 1)) := by decide +kernel

/-- The second byte of the batch stays: the line does not fall, so no second item moves (R450). -/
theorem test_pull_moves_one_byte :
    run (.i2cSync 0) pullState (fun t => (t.bus.log, t.i2cs, dmaOf (fun d => (d.streams[5].req, d.streams[5].en, d.fin[5])) t)) =
      some ([.read 0 0x40005410 .byte 0xA5, .write 0 0x20000201 .byte 0xA5], [rxDma [0xA6]],
        some (true, false, true)) := by decide +kernel

/-! #### The whole machine -/

/-- A state in the middle of a DMA transmission meets the invariant, and its next step answers. -/
theorem test_hyp_StepKeepsTheInvariant :
    (sr2State.present ⟨0, 0x00003018, 0⟩).Inv ∧
    sees State.ops (step (sr2State.present ⟨0, 0x00003018, 0⟩)) = some [] := by
  refine ⟨⟨?_, ?_⟩, by decide +kernel⟩
  · simp only [State.present, sr2State, bench, List.mem_singleton, forall_eq, Stream.CountOk]
    decide +kernel
  · simp only [State.present, sr2State, bench, List.mem_singleton, forall_eq, I2c.TransactionOk]
    refine ⟨?_, ?_, ?_, ?_, ?_, ?_⟩
    · intro a h
      simp only [sr2, sr1, i2c0, I2c.reset, Option.some.injEq] at h
      subst h
      decide +kernel
    all_goals decide +kernel

theorem test_hyp_StepKeepsThePlatform :
    sees State.ops (step (sr2State.present ⟨0, 0x00003018, 0⟩)) = some [] := by decide +kernel

theorem test_hyp_StepOnlyExtendsTheHistories :
    sees (fun t => t.bus.log.length) (step (sr2State.present ⟨0, 0x00003018, 0⟩)) = some 2 := by decide +kernel

/-- An IRQ rises in a sync step, and falls in a clear by word, by byte and by half-word at the ends of the range of offsets,
and in a reset. -/
theorem test_hyp_IrqChangesOnlyBySyncClearOrReset :
    run (.dmaSync 0) (dmaBench { dma0 with dq := [6] }) (dmaOf fun d => d.irq[6]) = some (some true) ∧
    ∀ i ∈ [Instr.dmaWr32Lifcr 0 0x20, .dmaWr8 0 0x008 0x20, .dmaReset 0],
      run i (dmaBench (irqs [0] dma0)) (dmaOf fun d => d.irq[0]) = some (some false) := by decide +kernel

theorem test_irq_cleared_at_the_last_lane :
    ∀ i ∈ [Instr.dmaWr32Hifcr 0 0x08000000, .dmaWr8 0 0x00F 0x08, .dmaWr16 0 0x00E 0x0800],
      run i (dmaBench (irqs [7] dma0)) (dmaOf fun d => d.irq[7]) = some (some false) := by decide +kernel

/-- An enable by word, by byte and by half-word, and a reset. -/
theorem test_hyp_LatchChangesOnlyAtEnableEdge :
    (∀ i ∈ [Instr.dmaWr32S7cr 0 1, .dmaWr8 0 0x0B8 1, .dmaWr16 0 0x0B8 1],
      run i (dmaBench (stream 7 { Stream.reset with ndt := 9 } dma0)) (dmaOf fun d => d.streams[7].latch) =
        some (some 9)) ∧
    run (.dmaReset 0) (dmaBench (stream 7 { Stream.reset with latch := 9 } dma0)) (dmaOf fun d => d.streams[7].latch) =
      some (some 0) := by decide +kernel

/-- A request at stream 0 that moves an item, seen from stream 1 and from stream 7. -/
theorem test_hyp_RequestLeavesUnwiredStreamsAlone :
    run (.dmaReq 0 0 true) (dmaBench busyDma) (dmaOf fun d => (d.streams[0].ndt, d.irq[7], d.dq)) =
      some (some (3, true, [7, 0])) ∧
    ((0, 1) : Nat × StreamId) ≠ (0, 0) ∧ (dmaBench busyDma).wired 0 1 = false ∧
    (dmaBench busyDma).wired 0 7 = false := by decide +kernel

end Sys2Proof.Tests
end

