-- ==== Sys2Proof/Proofs/Platform.lean ====
section
/-! The construction parameters are the same after every step (R9, R305, R443). Each shared operation keeps them; the forms
of a step and of a cascade then carry this to all operations. -/

namespace Sys2Proof.Machine

/-! ### SamePlatform -/

theorem SamePlatform.refl (s : State) : SamePlatform s s := ⟨rfl, rfl, rfl⟩

theorem SamePlatform.trans {s t u : State} (h : SamePlatform s t) (h' : SamePlatform t u) : SamePlatform s u := by
  obtain ⟨hd, hi, hl⟩ := h
  obtain ⟨hd', hi', hl'⟩ := h'
  exact ⟨hd'.trans hd, hi'.trans hi, hl'.trans hl⟩

/-! ### Updates of one controller -/

/-- A change of a DMA controller that keeps its parameters keeps the platform. -/
theorem SamePlatform.modDma {f : Dma → Dma} (hf : ∀ d, (f d).site = d.site) (k : Nat) (s : State) :
    SamePlatform s (s.modDma k f) :=
  ⟨map_site_modify hf k s.dmas, rfl, rfl⟩

theorem SamePlatform.addResult (n : Width) (v : Word) (s : State) : SamePlatform s (s.addResult n v) :=
  ⟨rfl, rfl, rfl⟩

theorem SamePlatform.commitI2c {j : Nat} {c c' : I2c} {w : Work} (hc : w.st.i2cs[j]? = some c)
    (hsite : c'.site = c.site) (e' : Children) : SamePlatform w.st (w.commitI2c j c c' e').st :=
  ⟨rfl, map_site_set hc hsite, rfl⟩

@[simp] theorem Dma.writeLifcr_site (v : Word) (d : Dma) : (d.writeLifcr v).site = d.site := by
  simp [Dma.writeLifcr]

@[simp] theorem Dma.writeHifcr_site (v : Word) (d : Dma) : (d.writeHifcr v).site = d.site := by
  simp [Dma.writeHifcr]

/-! ### The transfer engine -/

theorem CopyFrame.samePlatform {w w' : Work} (h : CopyFrame w w') : SamePlatform w.st w'.st :=
  ⟨by rw [h.dmas], h.i2cSites, h.cascadeLimit⟩

theorem selectTransfer_samePlatform {k x m} {w w' : Work} (h : selectTransfer k x m w = .ok w') :
    SamePlatform w.st w'.st := by
  obtain ⟨-, ⟨-, rfl⟩ | ⟨-, -, w₁, hcopy, rfl⟩ | ⟨-, -, w₁, hcopy, rfl⟩⟩ := selectTransfer_ok h
  · exact .modDma (Dma.createRequestFailure_site x) k w.st
  · exact (copyItems_frame hcopy).samePlatform.trans (.modDma (Dma.finishBurst_site x) k w₁.st)
  · exact (copyItem_frame hcopy).samePlatform.trans (.modDma (Dma.finishItem_site x) k w₁.st)

theorem dmaReq_samePlatform {k x v} {w w' : Work} (h : dmaReq k x v w = .ok w') : SamePlatform w.st w'.st := by
  have latch := SamePlatform.modDma (Dma.modStream_site x fun m => { m with req := v }) k w.st
  obtain ⟨d, -, ⟨-, -, -, hsel⟩ | ⟨-, rfl⟩⟩ := dmaReq_ok h
  · exact latch.trans (selectTransfer_samePlatform hsel)
  · exact latch

theorem writeStreamCr_samePlatform {k x v} {w w' : Work} (h : writeStreamCr k x v w = .ok w') :
    SamePlatform w.st w'.st := by
  have store (m : Stream) := SamePlatform.modDma (Dma.modStream_site x fun _ => m) k w.st
  obtain ⟨d, -, ⟨-, -, -, -, hsel⟩ | ⟨-, -, -, rfl⟩ | ⟨-, rfl⟩⟩ := writeStreamCr_ok h
  · exact (store _).trans (selectTransfer_samePlatform hsel)
  · exact store _
  · exact store _

/-! ### Register writes of the DMA window -/

/-- What a write of the DMA window can do when it answers: nothing (R206, R207, R210), a clear (R202, R203), a write of
SxCR (R221), or a store in another stream register (R225–R233). -/
theorem dmaWriteReg_ok {k r v} {w w' : Work} (h : dmaWriteReg k r v w = .ok w') :
    ((r = .lisr ∨ r = .hisr ∨ r = .unmapped) ∧ w' = w) ∨
      (r = .lifcr ∧ w' = w.modDma k (Dma.writeLifcr v)) ∨
      (r = .hifcr ∧ w' = w.modDma k (Dma.writeHifcr v)) ∨
      (∃ x, r = .stream x .cr ∧ writeStreamCr k x v w = .ok w') ∨
      ∃ x q, q ≠ .cr ∧ r = .stream x q ∧ w' = w.modDma k fun d => d.modStream x (Stream.writeReg q v) := by
  cases r with
  | stream x q => cases q <;> simp_all [dmaWriteReg]
  | _ => simp_all [dmaWriteReg]

theorem dmaWriteReg_samePlatform {k r v} {w w' : Work} (h : dmaWriteReg k r v w = .ok w') :
    SamePlatform w.st w'.st := by
  obtain ⟨-, rfl⟩ | ⟨-, rfl⟩ | ⟨-, rfl⟩ | ⟨x, -, hcr⟩ | ⟨x, q, -, -, rfl⟩ := dmaWriteReg_ok h
  · exact .refl _
  · exact .modDma (Dma.writeLifcr_site v) k w.st
  · exact .modDma (Dma.writeHifcr_site v) k w.st
  · exact writeStreamCr_samePlatform hcr
  · exact .modDma (Dma.modStream_site x _) k w.st

/-! ### Cascades and steps -/

theorem deliver_samePlatform {n : Nat} {w : Work} {t : State} (h : deliver n w = .ok t) : SamePlatform w.st t :=
  deliver_keeps (P := SamePlatform w.st) (fun _ _ _ _ _ hreq hw => hw.trans (dmaReq_samePlatform hreq)) h (.refl w.st)

/-- An operation whose own work keeps the platform keeps it to the end of its cascade (R382). -/
theorem settle_samePlatform {p : Except Refusal Work} {s t : State} (h : settle p = .next t)
    (hwork : ∀ w, p = .ok w → SamePlatform s w.st) : SamePlatform s t := by
  obtain ⟨w, hp, hdel⟩ := settle_next h
  exact (hwork w hp).trans (deliver_samePlatform hdel)

theorem i2cStep_samePlatform {j : Nat} {c c' : I2c} {e' : Children} {s t : State} (hc : s.i2cs[j]? = some c)
    (hsite : c'.site = c.site) (h : i2cStep j c c' e' s = .next t) : SamePlatform s t := by
  refine settle_samePlatform h fun w hw => ?_
  cases hw
  exact .commitI2c (w := ⟨s, []⟩) hc hsite e'

theorem StepForm.samePlatform {s t : State} (h : StepForm s t) : SamePlatform s t := by
  cases h with
  | dmaRead n v ht => exact ht ▸ .addResult n v s
  | dmaWrite k r v hset => exact settle_samePlatform hset fun _ => dmaWriteReg_samePlatform
  | request k x v _ hset => exact settle_samePlatform hset fun _ => dmaReq_samePlatform
  | dmaSync k ht => exact ht ▸ .modDma Dma.sync_site k s
  | dmaReset k ht => exact ht ▸ .modDma (fun d => Dma.reset_site d.site) k s
  | i2c j c c' e' s₀ hs hc hmove hstep =>
    obtain rfl | ⟨n, v, rfl⟩ := hs
    · exact i2cStep_samePlatform hc hmove.site hstep
    · exact (SamePlatform.addResult n v s).trans (i2cStep_samePlatform hc hmove.site hstep)

/-- Settles O56, by the forms of a step: an idle step changes nothing, and taking an operation from `ops` touches no
construction parameter. -/
theorem stepKeepsThePlatform : Obligations.StepKeepsThePlatform := by
  intro s t h
  obtain rfl | ⟨p, rest, -, hform⟩ := step_next_form h
  · exact .refl _
  · exact SamePlatform.trans ⟨rfl, rfl, rfl⟩ hform.samePlatform

end Sys2Proof.Machine
end

