-- ==== Sys2Proof/Proofs/Invariant.lean ====
section
/-! The invariant of the machine (R52, R113, R305) holds at power-on and after every step. Each I²C action keeps
`I2c.TransactionOk` of its controller, each update of the transfer engine keeps `Stream.CountOk` of its stream; copies and
cascades carry both to the whole state, and the forms of a step to all operations. -/

namespace Sys2Proof.Machine

/-! ### Controllers after `modDma` -/

/-- The changed controller, where it exists, is what the change makes of it. -/
theorem State.modDma_self {s : State} {k : Nat} {d : Dma} (f : Dma → Dma) (h : s.dmas[k]? = some d) :
    (s.modDma k f).dmas[k]? = some (f d) := by
  simp [h]

/-- Every controller after a change of controller `k` is the changed one or as it was. -/
theorem State.modDma_some {s : State} {k i : Nat} {f : Dma → Dma} {d' : Dma} (h : (s.modDma k f).dmas[i]? = some d') :
    ∃ d, s.dmas[i]? = some d ∧ (k = i ∧ d' = f d ∨ k ≠ i ∧ d' = d) := by
  rw [State.modDma_dmas, List.getElem?_modify] at h
  obtain ⟨d, hd, rfl⟩ := Option.map_eq_some_iff.1 h
  refine ⟨d, hd, ?_⟩
  by_cases hki : k = i <;> simp [hki]

/-- A controller after a change of controller `k` is what the change makes of it, or as it was. -/
theorem State.modDma_cases {s : State} {k i : Nat} {f : Dma → Dma} {d d' : Dma} (hd : s.dmas[i]? = some d)
    (hd' : (s.modDma k f).dmas[i]? = some d') : k = i ∧ d' = f d ∨ k ≠ i ∧ d' = d := by
  obtain ⟨d₀, hd₀, hcase⟩ := State.modDma_some hd'
  obtain rfl := Option.some.inj (hd.symm.trans hd₀)
  exact hcase

/-! ### I²C actions -/

/-- A controller in `Idle` or in the address phase is in order when no child is selected and no byte waits. -/
theorem I2c.TransactionOk.of_noChild {c : I2c} (hst : c.st = .idle ∨ c.st = .awaitingAddress) (hsel : c.sel = none)
    (htx : c.txq = []) (hrx : c.rxq = []) : c.TransactionOk := by
  obtain h | h := hst <;> simp [I2c.TransactionOk, h, hsel, htx, hrx]

/-- Bytes wait to be sent only while a child is selected (R312). -/
theorem I2c.TransactionOk.txq_nil_of_noChild {c : I2c} (hc : c.TransactionOk) (hsel : c.sel = none) : c.txq = [] := by
  obtain ⟨-, hphase, htx, -, -, -⟩ := hc
  by_contra hne
  have hphase := hphase.1 hsel
  simp [htx hne] at hphase

theorem I2c.reset_transactionOk (p : I2cSite) : (I2c.reset p).TransactionOk := .of_noChild (.inl rfl) rfl rfl rfl

theorem I2c.abort_transactionOk (c : I2c) : c.abort.TransactionOk := .of_noChild (.inl rfl) rfl rfl rfl

theorem I2c.stopped_transactionOk (c : I2c) : c.stopped.TransactionOk := .of_noChild (.inl rfl) rfl rfl rfl

theorem I2c.softReset_transactionOk (c : I2c) : c.softReset.TransactionOk := .of_noChild (.inl rfl) rfl rfl rfl

theorem stopCondition_transactionOk (j c) (e : Children) : (stopCondition j c e).1.TransactionOk := by
  obtain ⟨h, -⟩ | ⟨-, -, ⟨h, -⟩ | ⟨h, -⟩⟩ := stopCondition_cases j c e <;> rw [h]
  · exact c.stopped_transactionOk
  · exact I2c.stopped_transactionOk _
  · exact c.abort_transactionOk

section
variable {c : I2c} (hc : c.TransactionOk)
include hc

/-- Once the bytes of `TXQ` are delivered, nothing else of the transaction has changed (R315). -/
theorem I2c.TransactionOk.clearTxq : ({ c with txq := [] } : I2c).TransactionOk := by
  obtain ⟨hsel, hphase, -, hrx, hwr, hrd⟩ := hc
  exact ⟨hsel, hphase, by simp, hrx, hwr, hrd⟩

/-- `EndTransaction` that is `ok` leaves no byte to send (R317). -/
theorem endTransaction_txq_nil {j} {e : Children} (hok : (endTransaction j c e).1 = true) :
    (endTransaction j c e).2.1.txq = [] := by
  obtain ⟨-, h | ⟨hsel, h⟩⟩ | ⟨hfail, -⟩ := endTransaction_cases j c e
  · rw [h]
  · rw [h]; exact hc.txq_nil_of_noChild hsel
  · simp [hfail] at hok

theorem startCondition_transactionOk (j) (e : Children) : (startCondition j c e).1.TransactionOk := by
  obtain ⟨h, hst⟩ | ⟨h, -⟩ | ⟨h, -⟩ := startCondition_cases j c e
  · rw [h]
    obtain ⟨hsel, hphase, htx, hrx, hwr, hrd⟩ := hc
    exact .of_noChild (.inr rfl) (hphase.2 (.inl hst)) (by simpa [hst] using htx) (by simpa [hst] using hrx)
  · rw [h]; exact hc
  · rw [h]
    obtain ⟨-, ⟨h', hok⟩ | ⟨h', -⟩⟩ := repeatedStart_cases j c e <;> rw [h']
    · exact .of_noChild (.inr rfl) rfl (endTransaction_txq_nil hc hok) rfl
    · exact c.abort_transactionOk

theorem cr1Actions_transactionOk (j v) (e : Children) : (cr1Actions j v c e).1.TransactionOk := by
  unfold cr1Actions
  extract_lets p q
  have hp : p.1.TransactionOk := by
    unfold p; split
    · exact startCondition_transactionOk hc j e
    · exact hc
  have hq : q.1.TransactionOk := by
    unfold q; split
    · exact stopCondition_transactionOk j p.1 p.2
    · exact hp
  split
  · exact q.1.softReset_transactionOk
  · exact hq

/-- An address that is acknowledged selects an attached child; any other ends in `Idle` (R309, R305). -/
theorem I2c.TransactionOk.addressWrite (hst : c.st = .awaitingAddress) (v : Word) :
    (c.addressWrite v).TransactionOk := by
  obtain ⟨-, -, htx, hrx, -, -⟩ := hc
  have htx : c.txq = [] := by simpa [hst] using htx
  have hrx : c.rxq = [] := by simpa [hst] using hrx
  unfold I2c.addressWrite
  split
  · next hchild => simp [I2c.TransactionOk, hchild, htx, hrx]
  · exact .of_noChild (.inl rfl) rfl htx hrx

theorem I2c.TransactionOk.dataWrite (hst : c.st = .awaitingData) (v : Word) : (c.dataWrite v).TransactionOk := by
  obtain ⟨hsel, hphase, -, hrx, hwr, hrd⟩ := hc
  exact ⟨hsel, hphase, fun _ => hst, hrx, hwr, hrd⟩

theorem I2c.TransactionOk.writeDr (v : Word) : (c.writeDr v).TransactionOk := by
  unfold I2c.writeDr
  split
  case h_1 hst => exact hc.addressWrite hst v
  case h_2 hst => exact hc.dataWrite hst v
  all_goals exact hc

theorem I2c.TransactionOk.writeSr1 (v : Word) : (c.writeSr1 v).TransactionOk := by
  unfold I2c.writeSr1
  split <;> exact hc

theorem i2cWriteReg_transactionOk (j r v) (e : Children) : (i2cWriteReg j r v c e).1.TransactionOk := by
  cases r with
  | cr1 =>
    have hack : ({ c with ack := v.getLsbD 10 } : I2c).TransactionOk := hc
    exact cr1Actions_transactionOk hack j v e
  | cr2 => exact hc
  | dr => exact hc.writeDr v
  | sr1 => exact hc.writeSr1 v
  | sr2 => exact hc
  | unmapped => exact hc

theorem I2c.TransactionOk.dataRead (hst : c.st = .receivingData) : c.dataRead.2.TransactionOk := by
  obtain ⟨hsel, hphase, htx, hrx, hwr, hrd⟩ := hc
  unfold I2c.dataRead
  split <;> exact ⟨hsel, hphase, htx, fun _ => hst, hwr, hrd⟩

theorem I2c.TransactionOk.readDr : c.readDr.2.TransactionOk := by
  unfold I2c.readDr
  split
  · next hst => exact hc.dataRead hst
  · exact hc

theorem I2c.TransactionOk.sr1ReadStep : c.sr1ReadStep.TransactionOk := by
  unfold I2c.sr1ReadStep
  split
  · next hst =>
    obtain ⟨hsel, hphase, htx, hrx, -, -⟩ := hc
    simp_all [I2c.TransactionOk]
  · exact hc

theorem I2c.TransactionOk.sr2ReadStep : c.sr2ReadStep.TransactionOk := by
  unfold I2c.sr2ReadStep
  split
  · next hst =>
    obtain ⟨hsel, hphase, htx, hrx, -, -⟩ := hc
    split <;> simp_all [I2c.TransactionOk]
  · exact hc

theorem I2c.TransactionOk.readReg (r : I2cReg) : (c.readReg r).2.TransactionOk := by
  cases r with
  | dr => exact hc.readDr
  | sr1 =>
    have haf : ({ c with af := false } : I2c).TransactionOk := hc
    exact haf.sr1ReadStep
  | sr2 => exact hc.sr2ReadStep
  | cr1 => exact hc
  | cr2 => exact hc
  | unmapped => exact hc

theorem pullAction_transactionOk (j) (e : Children) : (pullAction j c e).1.TransactionOk := by
  obtain h | ⟨a, hst, -, -, ⟨bytes, -, h⟩ | ⟨-, h⟩⟩ := pullAction_cases j c e <;> rw [h]
  · exact hc
  · obtain ⟨hsel, hphase, htx, -, hwr, hrd⟩ := hc
    exact ⟨hsel, hphase, htx, fun _ => hst, hwr, hrd⟩
  · exact c.abort_transactionOk

theorem flushAction_transactionOk (j) (e : Children) : (flushAction j c e).1.TransactionOk := by
  obtain h | ⟨a, -, -, -, h | h⟩ := flushAction_cases j c e <;> rw [h]
  · exact hc
  · exact hc.clearTxq
  · exact c.abort_transactionOk

theorem i2cSyncAction_transactionOk (j) (e : Children) : (i2cSyncAction j c e).1.TransactionOk := by
  have hdq (rest : List I2cAction) : ({ c with dq := rest } : I2c).TransactionOk := hc
  unfold i2cSyncAction
  split
  · exact hc
  · exact pullAction_transactionOk (hdq _) j e
  · exact flushAction_transactionOk (hdq _) j e

theorem i2cWriteAt_transactionOk (j n o v) (e : Children) : (i2cWriteAt j n o v c e).1.TransactionOk := by
  unfold i2cWriteAt
  split
  · exact i2cWriteReg_transactionOk hc j _ _ e
  · exact hc

theorem I2cMove.transactionOk {j e c' e'} (h : I2cMove j c e c' e') : c'.TransactionOk := by
  cases h with
  | same => exact hc
  | read r => exact hc.readReg r
  | write r v => exact i2cWriteReg_transactionOk hc j r v e
  | sync => exact i2cSyncAction_transactionOk hc j e
  | reset => exact I2c.reset_transactionOk c.site

end

/-! ### Streams -/

/-- The counts of all streams of a controller are in order (R113). -/
def Dma.CountsOk (d : Dma) : Prop := ∀ x : StreamId, d.streams[x].CountOk

theorem State.inv_iff {s : State} : s.Inv ↔ (∀ d ∈ s.dmas, d.CountsOk) ∧ ∀ c ∈ s.i2cs, c.TransactionOk := Iff.rfl

/-- A disabled stream's count is in order, whatever it is. -/
theorem Stream.CountOk.of_disabled {m : Stream} (h : m.en = false) : m.CountOk := by simp [Stream.CountOk, h]

/-- What a finished count leaves is in order: the reload, or the stream disabled (R264, R265). -/
theorem Stream.countOk_reload (m : Stream) :
    (if m.circ then { m with ndt := m.latch } else { m with ndt := 0, en := false } : Stream).CountOk := by
  split
  · exact fun _ => le_rfl
  · exact .of_disabled rfl

theorem Stream.CountOk.decrement {m : Stream} (h : m.CountOk) (hne : m.ndt ≠ 0) :
    ({ m with ndt := m.ndt - 1 } : Stream).CountOk := by
  intro hen
  have hle : m.ndt.toNat ≤ m.latch.toNat := h hen
  have hdec : (m.ndt - 1).toNat ≤ m.ndt.toNat := by bv_omega
  exact hdec.trans hle

/-- A write of SxCR that is no enable edge keeps the count in order: an enabled stream was enabled before (R221, R223). -/
theorem Stream.CountOk.storeCr {m : Stream} (h : m.CountOk) {v : Word} (hedge : ¬(m.en = false ∧ v.getLsbD 0 = true)) :
    (m.storeCr v).CountOk := by
  intro hen
  exact h (by simpa using fun hdis => hedge ⟨hdis, hen⟩)

theorem Stream.countOk_latchNdt (m : Stream) : m.latchNdt.CountOk := fun _ => le_rfl

/-- NDTR is stored only while the stream is disabled, and no other register but CR holds a count (R225). -/
theorem Stream.CountOk.writeReg {m : Stream} (h : m.CountOk) (q : StreamReg) (v : Word) : (m.writeReg q v).CountOk := by
  cases q with
  | ndtr =>
    simp only [Stream.writeReg]
    split
    · exact h
    · next hen => exact .of_disabled (by simpa using hen)
  | par | m0ar | m1ar =>
    simp only [Stream.writeReg]
    split <;> exact h
  | cr => exact h
  | fcr => exact h

/-! ### DMA controllers -/

theorem Dma.reset_countsOk (p : DmaSite) : (Dma.reset p).CountsOk := fun x => by
  refine .of_disabled ?_
  simp [Dma.reset, Stream.reset]

section
variable {d : Dma} (hd : d.CountsOk) (x : StreamId)
include hd

/-- A change of one stream to a count in order keeps all counts in order. -/
theorem Dma.CountsOk.modStream {f : Stream → Stream} (hf : (f d.streams[x]).CountOk) : (d.modStream x f).CountsOk := by
  intro y
  by_cases hxy : x = y
  · subst hxy; rwa [Dma.modStream_self]
  · rw [Dma.modStream_other hxy]; exact hd y

theorem Dma.CountsOk.createRequestFailure : (d.createRequestFailure x).CountsOk :=
  hd.modStream x (.of_disabled rfl)

theorem Dma.CountsOk.complete : (d.complete x).CountsOk := hd

theorem Dma.CountsOk.finishBurst : (d.finishBurst x).CountsOk := by
  refine Dma.CountsOk.complete (hd.modStream x ?_) x
  exact Stream.countOk_reload _

theorem Dma.CountsOk.finishItem (hne : d.streams[x].ndt ≠ 0) : (d.finishItem x).CountsOk := by
  unfold Dma.finishItem
  split
  · exact hd.modStream x ((hd x).decrement hne)
  · exact hd.finishBurst x

theorem Dma.CountsOk.writeLifcr (v : Word) : (d.writeLifcr v).CountsOk := by
  simpa [Dma.CountsOk, Dma.writeLifcr] using hd

theorem Dma.CountsOk.writeHifcr (v : Word) : (d.writeHifcr v).CountsOk := by
  simpa [Dma.CountsOk, Dma.writeHifcr] using hd

theorem Dma.CountsOk.sync : d.sync.CountsOk := by
  simpa [Dma.CountsOk] using hd

end

/-! ### The whole state -/

/-- The invariant holds at power-on: every controller is one at its reset values (R50, R66). -/
theorem State.reset_inv : State.reset.Inv := by
  refine State.inv_iff.2 ⟨fun d hd => ?_, fun c hc => ?_⟩
  · obtain rfl | ⟨k, -, rfl⟩ : d = Dma.reset (Config.dmaSite 0) ∨
        ∃ k < Config.moreDmas, Dma.reset (Config.dmaSite (k + 1)) = d := by
      simpa [State.reset] using hd
    · exact Dma.reset_countsOk _
    · exact Dma.reset_countsOk _
  · obtain rfl | ⟨j, -, rfl⟩ : c = I2c.reset (Config.i2cSite 0) ∨
        ∃ j < Config.moreI2cs, I2c.reset (Config.i2cSite (j + 1)) = c := by
      simpa [State.reset] using hc
    · exact I2c.reset_transactionOk _
    · exact I2c.reset_transactionOk _

/-- Settles O54. -/
theorem invariantHoldsAtPowerOn : Obligations.InvariantHoldsAtPowerOn := State.reset_inv

/-- A change of DMA controller `k` that keeps its counts in order keeps the invariant. -/
theorem State.Inv.modDma {s : State} (hs : s.Inv) {k : Nat} {f : Dma → Dma}
    (hf : ∀ d, s.dmas[k]? = some d → d.CountsOk → (f d).CountsOk) : (s.modDma k f).Inv := by
  obtain ⟨hdmas, hi2cs⟩ := State.inv_iff.1 hs
  refine State.inv_iff.2 ⟨fun d' hd' => ?_, hi2cs⟩
  obtain ⟨i, hi⟩ := List.getElem?_of_mem hd'
  obtain ⟨d, hd, ⟨rfl, rfl⟩ | ⟨-, rfl⟩⟩ := State.modDma_some hi
  · exact hf d hd (hdmas d (List.mem_of_getElem? hd))
  · exact hdmas d' (List.mem_of_getElem? hd)

theorem State.Inv.commitI2c {j : Nat} {c c' : I2c} {e' : Children} {w : Work} (hw : w.st.Inv)
    (hc' : c'.TransactionOk) : (w.commitI2c j c c' e').st.Inv := by
  obtain ⟨hdmas, hi2cs⟩ := State.inv_iff.1 hw
  refine State.inv_iff.2 ⟨hdmas, fun b hb => ?_⟩
  obtain hb | rfl := List.mem_or_eq_of_mem_set hb
  · exact hi2cs b hb
  · exact hc'

/-- A controller to which an access is routed is in order. -/
theorem State.Inv.route {s : State} (hs : s.Inv) {a n j c} (h : s.route a n = .i2c j c) : c.TransactionOk :=
  (State.inv_iff.1 hs).2 c (List.mem_of_getElem? (State.route_i2c h).1)

/-! ### The transfer engine -/

theorem memRead_inv {k a n v} {w w' : Work} (h : memRead k a n w = .ok (v, w')) (hw : w.st.Inv) : w'.st.Inv := by
  obtain ⟨-, -, rfl⟩ | ⟨j, c, hr, -, -, rfl⟩ := memRead_ok h
  · exact hw
  · exact State.Inv.commitI2c (w := w.logBus _) hw ((hw.route hr).readReg _)

theorem memWrite_inv {k a n v} {w w' : Work} (h : memWrite k a n v w = .ok w') (hw : w.st.Inv) : w'.st.Inv := by
  obtain ⟨-, rfl⟩ | ⟨j, c, hr, -, rfl⟩ := memWrite_ok h
  · exact hw
  · exact State.Inv.commitI2c (w := w.logBus _) hw (i2cWriteAt_transactionOk (hw.route hr) j n _ v _)

theorem copyItem_inv {k a b n} {w w' : Work} (h : copyItem k a b n w = .ok w') (hw : w.st.Inv) : w'.st.Inv := by
  obtain ⟨v, w₁, hread, hwrite⟩ := copyItem_ok h
  exact memWrite_inv hwrite (memRead_inv hread hw)

theorem copyItems_inv {k m count i} {w w' : Work} (h : copyItems k m count i w = .ok w') (hw : w.st.Inv) :
    w'.st.Inv := by
  induction count generalizing i w with
  | zero => simp [copyItems] at h; exact h ▸ hw
  | succ n ih =>
    simp only [copyItems] at h
    split at h
    · next w₁ hitem => exact ih h (copyItem_inv hitem hw)
    · simp at h

/-- A transfer keeps the invariant when it is dispatched with the stream's own NDT: an item moves only if that is not 0, and
no copy reaches a DMA controller (R384), so what is decremented afterwards is not 0. -/
theorem selectTransfer_inv {k x m} {w w' : Work} (h : selectTransfer k x m w = .ok w') (hw : w.st.Inv)
    (hm : ∀ d, w.st.dmas[k]? = some d → d.streams[x].ndt = m.ndt) : w'.st.Inv := by
  obtain ⟨-, ⟨-, rfl⟩ | ⟨-, -, w₁, hcopy, rfl⟩ | ⟨hne, -, w₁, hcopy, rfl⟩⟩ := selectTransfer_ok h
  · exact hw.modDma fun d _ hd => hd.createRequestFailure x
  · exact (copyItems_inv hcopy hw).modDma fun d _ hd => hd.finishBurst x
  · refine (copyItem_inv hcopy hw).modDma fun d hk hd => hd.finishItem x ?_
    rw [(copyItem_frame hcopy).dmas] at hk
    rwa [hm d hk]

theorem dmaReq_inv {k x v} {w w' : Work} (h : dmaReq k x v w = .ok w') (hw : w.st.Inv) : w'.st.Inv := by
  have hlatch : (w.modDma k fun d => d.modStream x fun m => { m with req := v }).st.Inv :=
    hw.modDma fun d _ hd => hd.modStream x (hd x)
  obtain ⟨d, hk, ⟨-, -, -, hsel⟩ | ⟨-, rfl⟩⟩ := dmaReq_ok h
  · refine selectTransfer_inv hsel hlatch fun d' hk' => ?_
    obtain rfl := Option.some.inj ((State.modDma_self _ hk).symm.trans hk')
    rw [Dma.modStream_self]
  · exact hlatch

theorem writeStreamCr_inv {k x v} {w w' : Work} (h : writeStreamCr k x v w = .ok w') (hw : w.st.Inv) : w'.st.Inv := by
  have hstore {m : Stream} (hm : m.CountOk) : (w.modDma k fun d => d.modStream x fun _ => m).st.Inv :=
    hw.modDma fun d _ hd => hd.modStream x hm
  obtain ⟨d, hk, ⟨-, -, -, -, hsel⟩ | ⟨-, -, -, rfl⟩ | ⟨hedge, rfl⟩⟩ := writeStreamCr_ok h
  · refine selectTransfer_inv hsel (hstore (Stream.countOk_latchNdt _)) fun d' hk' => ?_
    obtain rfl := Option.some.inj ((State.modDma_self _ hk).symm.trans hk')
    rw [Dma.modStream_self]
  · exact hstore (Stream.countOk_latchNdt _)
  · have hcounts : d.CountsOk := (State.inv_iff.1 hw).1 d (List.mem_of_getElem? hk)
    exact hstore ((hcounts x).storeCr hedge)

theorem dmaWriteReg_inv {k r v} {w w' : Work} (h : dmaWriteReg k r v w = .ok w') (hw : w.st.Inv) : w'.st.Inv := by
  obtain ⟨-, rfl⟩ | ⟨-, rfl⟩ | ⟨-, rfl⟩ | ⟨x, -, hcr⟩ | ⟨x, q, -, -, rfl⟩ := dmaWriteReg_ok h
  · exact hw
  · exact hw.modDma fun d _ hd => hd.writeLifcr v
  · exact hw.modDma fun d _ hd => hd.writeHifcr v
  · exact writeStreamCr_inv hcr hw
  · exact hw.modDma fun d _ hd => hd.modStream x ((hd x).writeReg q v)

/-! ### Cascades and steps -/

/-- An operation whose own work keeps the invariant keeps it to the end of its cascade (R382). -/
theorem settle_inv {p : Except Refusal Work} {t : State} (h : settle p = .next t)
    (hwork : ∀ w, p = .ok w → w.st.Inv) : t.Inv := by
  obtain ⟨w, hp, hdel⟩ := settle_next h
  exact deliver_keeps (fun _ _ _ _ _ hreq => dmaReq_inv hreq) hdel (hwork w hp)

theorem i2cStep_inv {j : Nat} {c c' : I2c} {e' : Children} {s t : State} (hs : s.Inv) (hc' : c'.TransactionOk)
    (h : i2cStep j c c' e' s = .next t) : t.Inv := by
  refine settle_inv h fun w hw => ?_
  cases hw
  exact State.Inv.commitI2c (w := ⟨s, []⟩) hs hc'

theorem StepForm.inv {s t : State} (h : StepForm s t) (hs : s.Inv) : t.Inv := by
  cases h with
  | dmaRead n v ht => exact ht ▸ hs
  | dmaWrite k r v hset => exact settle_inv hset fun w hw => dmaWriteReg_inv hw hs
  | request k x v _ hset => exact settle_inv hset fun w hw => dmaReq_inv hw hs
  | dmaSync k ht => exact ht ▸ hs.modDma fun d _ hd => hd.sync
  | dmaReset k ht => exact ht ▸ hs.modDma fun d _ _ => Dma.reset_countsOk d.site
  | i2c j c c' e' s₀ hread hc hmove hstep =>
    have hs₀ : s₀.Inv := by
      obtain rfl | ⟨n, v, rfl⟩ := hread
      · exact hs
      · exact hs
    exact i2cStep_inv hs₀ (hmove.transactionOk ((State.inv_iff.1 hs).2 c (List.mem_of_getElem? hc))) hstep

/-- Settles O55, by the forms of a step: an idle step changes nothing, and the invariant does not speak of `ops`. -/
theorem stepKeepsTheInvariant : Obligations.StepKeepsTheInvariant := by
  intro s t hs h
  obtain rfl | ⟨p, rest, -, hform⟩ := step_next_form h
  · exact hs
  · exact hform.inv hs

end Sys2Proof.Machine
end

