-- ==== Sys2Proof/Proofs/LineEvents.lean ====
section
/-! What line events leave of a DMA controller, and which operations do more to one than deliver line events. An observation of
a controller that the transfer engine keeps is kept by every cascade (R382), so it can change only in a write of the DMA
window, a sync step or a reset. -/

namespace Sys2Proof.Machine

/-! ### Observations of the DMA controllers -/

/-- The observation `g` of every DMA controller is in `t` what it was in `s`. -/
def SameView {α : Type} (g : Dma → α) (s t : State) : Prop := t.dmas.map g = s.dmas.map g

section
variable {α : Type} {g : Dma → α}

theorem SameView.of_dmas_eq {s t : State} (h : t.dmas = s.dmas) : SameView g s t := congrArg (List.map g) h

theorem SameView.trans {s t u : State} (h : SameView g s t) (h' : SameView g t u) : SameView g s u := Eq.trans h' h

/-- A change of one controller that leaves its observation leaves all. -/
theorem SameView.modDma_at {s : State} {k : Nat} {f : Dma → Dma} (hf : ∀ d, s.dmas[k]? = some d → g (f d) = g d) :
    SameView g s (s.modDma k f) := by
  refine List.ext_getElem? fun i => ?_
  rw [List.getElem?_map, List.getElem?_map, State.modDma_dmas, List.getElem?_modify]
  cases hd : s.dmas[i]? with
  | none => rfl
  | some d =>
    by_cases hki : k = i
    · simp [hki, hf d (hki ▸ hd)]
    · simp [hki]

theorem SameView.modDma {f : Dma → Dma} (hf : ∀ d, g (f d) = g d) (k : Nat) (s : State) :
    SameView g s (s.modDma k f) :=
  .modDma_at fun d _ => hf d

/-- A controller seen afterwards was there before, with the same observation. -/
theorem SameView.exists_before {s t : State} (h : SameView g s t) {k : Nat} {d' : Dma} (hd' : t.dmas[k]? = some d') :
    ∃ d, s.dmas[k]? = some d ∧ g d' = g d := by
  have hk : (s.dmas.map g)[k]? = some (g d') := by rw [← h, List.getElem?_map, hd', Option.map_some]
  rw [List.getElem?_map] at hk
  obtain ⟨d, hd, hg⟩ := Option.map_eq_some_iff.1 hk
  exact ⟨d, hd, hg.symm⟩

theorem SameView.observation_eq {s t : State} (h : SameView g s t) {k : Nat} {d d' : Dma} (hd : s.dmas[k]? = some d)
    (hd' : t.dmas[k]? = some d') : g d' = g d := by
  obtain ⟨d₀, hd₀, hg⟩ := h.exists_before hd'
  obtain rfl := Option.some.inj (hd.symm.trans hd₀)
  exact hg

/-- What a line event and the transfer it starts do to a DMA controller (R260, R263–R265) leaves `g` as it was. -/
structure LineEventsKeep (g : Dma → α) : Prop where
  request : ∀ x v (d : Dma), g (d.modStream x fun m => { m with req := v }) = g d
  failure : ∀ x d, g (Dma.createRequestFailure x d) = g d
  burst : ∀ x d, g (Dma.finishBurst x d) = g d
  item : ∀ x d, g (Dma.finishItem x d) = g d

section
variable (hg : LineEventsKeep g)
include hg

/-- Copies reach no DMA controller (R384), so only the end of a transfer counts. -/
theorem selectTransfer_sameView {k x m} {w w' : Work} (h : selectTransfer k x m w = .ok w') :
    SameView g w.st w'.st := by
  obtain ⟨-, ⟨-, rfl⟩ | ⟨-, -, w₁, hcopy, rfl⟩ | ⟨-, -, w₁, hcopy, rfl⟩⟩ := selectTransfer_ok h
  · exact .modDma (hg.failure x) k w.st
  · exact (SameView.of_dmas_eq (copyItems_frame hcopy).dmas).trans (.modDma (hg.burst x) k w₁.st)
  · exact (SameView.of_dmas_eq (copyItem_frame hcopy).dmas).trans (.modDma (hg.item x) k w₁.st)

theorem dmaReq_sameView {k x v} {w w' : Work} (h : dmaReq k x v w = .ok w') : SameView g w.st w'.st := by
  have hlatch := SameView.modDma (hg.request x v) k w.st
  obtain ⟨d, -, ⟨-, -, -, hsel⟩ | ⟨-, rfl⟩⟩ := dmaReq_ok h
  · exact hlatch.trans (selectTransfer_sameView hg hsel)
  · exact hlatch

theorem deliver_sameView {n : Nat} {w : Work} {t : State} (h : deliver n w = .ok t) : SameView g w.st t :=
  deliver_keeps (P := SameView g w.st) (fun _ _ _ _ _ hreq hw => hw.trans (dmaReq_sameView hg hreq)) h rfl

end
end

/-! ### The operations that do more than deliver line events -/

/-- The operation writes register `r` of DMA controller `k`: as a word, or in one of its lanes (R106, R145). -/
def Instr.WritesDma (i : Instr) (k : Nat) (r : DmaReg) : Prop :=
  (∃ o v, i = Instr.dmaWr32 k o v r) ∨
    ∃ o v, DmaReg.ofOffset (registerOffset o) = r ∧ (i = .dmaWr8 k o v ∨ i = .dmaWr16 k o v)

/-- The DMA controllers change from `s` to `t` by the delivery of line events alone. -/
def OnlyLineEvents (s t : State) : Prop := ∃ n w, w.st.dmas = s.dmas ∧ deliver n w = .ok t

/-- What an operation that answers next does to the DMA controllers. -/
inductive DmaEffect (s t : State) (i : Instr) : Prop where
  /-- A write of the DMA window. -/
  | write (k : Nat) (r : DmaReg) (v : Word) (hi : Instr.WritesDma i k r)
      (h : settle (dmaWriteReg k r v ⟨s, []⟩) = .next t)
  /-- A sync step (R268). -/
  | sync (k : Nat) (hi : i = .dmaSync k) (h : t = s.modDma k Dma.sync)
  /-- A reset (R440). -/
  | reset (k : Nat) (hi : i = .dmaReset k) (h : t = s.modDma k fun d => Dma.reset d.site)
  /-- Every other operation. -/
  | lineEvents (h : OnlyLineEvents s t)

section
variable {s t : State} {i : Instr}

theorem OnlyLineEvents.addResult (n v) : OnlyLineEvents s (s.addResult n v) :=
  ⟨0, ⟨s.addResult n v, []⟩, rfl, rfl⟩

theorem dmaRead32_effect {k r} (h : dmaRead32 k r s = .next t) : DmaEffect s t i := by
  obtain ⟨d, -, h⟩ := onDma_next h
  cases h
  exact .lineEvents (.addResult _ _)

theorem dmaReadAt_effect {k n o} (h : dmaReadAt k n o s = .next t) : DmaEffect s t i := by
  unfold dmaReadAt at h
  split at h
  · obtain ⟨d, -, h⟩ := onDma_next h
    cases h
    exact .lineEvents (.addResult _ _)
  · cases h

theorem dmaWrite32_effect {k r v} (h : dmaWrite32 k r v s = .next t) (hi : ∃ o, i = Instr.dmaWr32 k o v r) :
    DmaEffect s t i := by
  obtain ⟨d, -, h⟩ := onDma_next h
  obtain ⟨o, hi⟩ := hi
  exact .write k r v (.inl ⟨o, v, hi⟩) h

theorem dmaWriteAt_effect {k n o v} (h : dmaWriteAt k n o v s = .next t) (hi : i = .dmaWr8 k o v ∨ i = .dmaWr16 k o v) :
    DmaEffect s t i := by
  unfold dmaWriteAt at h
  split at h
  · obtain ⟨d, -, h⟩ := onDma_next h
    exact .write k _ _ (.inr ⟨o, v, rfl, hi⟩) h
  · cases h

/-- A request event of the environment is the cascade that begins with it (R260, R382). -/
theorem dmaRequest_effect {k x v} (h : dmaRequest k x v s = .next t) : DmaEffect s t i := by
  unfold dmaRequest at h
  split at h
  · cases h
  · obtain ⟨d, -, h⟩ := onDma_next h
    obtain ⟨w, hreq, hdel⟩ := settle_next h
    exact .lineEvents ⟨w.st.cascadeLimit + 1, ⟨s, [⟨k, x, v⟩]⟩, rfl, by simp [deliver, hreq, hdel]⟩

/-- An I²C action touches a DMA controller only through its line events (R382). -/
theorem i2cStep_effect {j c c' e'} {s₀ : State} (h : i2cStep j c c' e' s₀ = .next t) (hs₀ : s₀.dmas = s.dmas) :
    DmaEffect s t i := by
  obtain ⟨w, hw, hdel⟩ := settle_next h
  cases hw
  exact .lineEvents ⟨_, _, hs₀, hdel⟩

theorem i2cRead32_effect {j r} (h : i2cRead32 j r s = .next t) : DmaEffect s t i := by
  obtain ⟨c, -, h⟩ := onI2c_next h
  exact i2cStep_effect h rfl

theorem i2cWrite32_effect {j r v} (h : i2cWrite32 j r v s = .next t) : DmaEffect s t i := by
  obtain ⟨c, -, h⟩ := onI2c_next h
  exact i2cStep_effect h rfl

theorem i2cReadAt_effect {j n o} (h : i2cReadAt j n o s = .next t) : DmaEffect s t i := by
  unfold i2cReadAt at h
  split at h
  · obtain ⟨c, -, h⟩ := onI2c_next h
    exact i2cStep_effect h rfl
  · cases h

theorem i2cWriteBus_effect {j n o v} (h : i2cWriteBus j n o v s = .next t) : DmaEffect s t i := by
  unfold i2cWriteBus at h
  split at h
  · obtain ⟨c, -, h⟩ := onI2c_next h
    exact i2cStep_effect h rfl
  · cases h

theorem i2cSync_effect {j} (h : execI2cSync j s = .next t) : DmaEffect s t i := by
  obtain ⟨c, -, h⟩ := onI2c_next h
  exact i2cStep_effect h rfl

theorem i2cReset_effect {j} (h : execI2cReset j s = .next t) : DmaEffect s t i := by
  obtain ⟨c, -, h⟩ := onI2c_next h
  exact i2cStep_effect h rfl

theorem dmaSync_effect {k} (h : exec (.dmaSync k) s = .next t) : DmaEffect s t (.dmaSync k) := by
  obtain ⟨d, -, h⟩ := onDma_next h
  cases h
  exact .sync k rfl rfl

theorem dmaReset_effect {k} (h : exec (.dmaReset k) s = .next t) : DmaEffect s t (.dmaReset k) := by
  obtain ⟨d, -, h⟩ := onDma_next h
  cases h
  exact .reset k rfl rfl

theorem misaligned_effect (h : misaligned s = .next t) : DmaEffect s t i := by
  cases h

/-- Every operation that answers next has one of the effects. A 32-bit write names its register, so that its offset is
immaterial; only the write of an unmapped offset carries one. -/
theorem exec_dmaEffect (h : exec i s = .next t) : DmaEffect s t i := by
  cases i
  case dmaReq => exact dmaRequest_effect h
  case dmaSync => exact dmaSync_effect h
  case dmaReset => exact dmaReset_effect h
  case dmaWr8 => exact dmaWriteAt_effect h (.inl rfl)
  case dmaWr16 => exact dmaWriteAt_effect h (.inr rfl)
  case dmaRd8 | dmaRd16 => exact dmaReadAt_effect h
  case i2cSync => exact i2cSync_effect h
  case i2cReset => exact i2cReset_effect h
  case i2cRd8 | i2cRd16 => exact i2cReadAt_effect h
  case dmaWr32Unmapped o v => exact dmaWrite32_effect h ⟨o, rfl⟩
  all_goals
    first
      | exact dmaWrite32_effect h ⟨0, rfl⟩
      | exact dmaRead32_effect h
      | exact i2cRead32_effect h
      | exact i2cWrite32_effect h
      | exact i2cWriteBus_effect h
      | exact misaligned_effect h

end

/-! ### The registers that a narrow write reaches -/

theorem registerOffset_toNat (o : Offset) : (registerOffset o).toNat = o.toNat / 4 * 4 := by
  have hshift : registerOffset o = (o >>> 2) <<< 2 := by
    refine BitVec.eq_of_getLsbD_eq fun i hi => ?_
    rw [registerOffset]
    interval_cases i <;> simp
  rw [hshift, BitVec.toNat_shiftLeft, BitVec.toNat_ushiftRight, Nat.shiftRight_eq_div_pow, Nat.shiftLeft_eq]
  omega

/-- Only sub-offset 0 of a stream holds its CR (R39). -/
theorem StreamReg.ofSub_cr {n : Nat} (h : StreamReg.ofSub n = some .cr) : n = 0 := by
  unfold StreamReg.ofSub at h
  split at h <;> simp_all

/-- What an offset says of a clear register or of a stream register that stands there (R39). -/
theorem DmaReg.ofOffset_cases (o : Offset) :
    (DmaReg.ofOffset o = .lifcr → o.toNat = 0x08) ∧ (DmaReg.ofOffset o = .hifcr → o.toNat = 0x0C) ∧
      ∀ x, DmaReg.ofOffset o = .stream x .cr → o.toNat = 0x10 + 0x18 * x.val := by
  unfold DmaReg.ofOffset
  split_ifs with h0 h4 h8 hC hstream
  · simp
  · simp
  · simp [h8]
  · simp [hC]
  · split
    · next r hr =>
      refine ⟨by simp, by simp, fun x hx => ?_⟩
      cases hx
      have hsub := StreamReg.ofSub_cr hr
      simp only
      omega
    · simp
  · simp

section
variable {i : Instr} {k : Nat}

/-- The operations that write a clear register are those of its word and of its lanes (R106, R202, R203). -/
theorem Instr.WritesDma.clear {r} (h : Instr.WritesDma i k r) (hr : r = .lifcr ∨ r = .hifcr) :
    (∃ v, i = .dmaWr32Lifcr k v ∨ i = .dmaWr32Hifcr k v) ∨
      ∃ o v, 0x008 ≤ o.toNat ∧ o.toNat ≤ 0x00F ∧ (i = .dmaWr8 k o v ∨ i = .dmaWr16 k o v) := by
  obtain ⟨o, v, hi⟩ | ⟨o, v, ho, hi⟩ := h
  · obtain rfl | rfl := hr
    · exact .inl ⟨v, .inl hi⟩
    · exact .inl ⟨v, .inr hi⟩
  · obtain ⟨hlifcr, hhifcr, -⟩ := DmaReg.ofOffset_cases (registerOffset o)
    rw [registerOffset_toNat] at hlifcr hhifcr
    have hword : o.toNat / 4 * 4 = 0x08 ∨ o.toNat / 4 * 4 = 0x0C :=
      hr.imp (fun e => hlifcr (ho.trans e)) fun e => hhifcr (ho.trans e)
    exact .inr ⟨o, v, by omega, by omega, hi⟩

/-- The operations that write SxCR are those of its word and of its lanes (R106, R221). -/
theorem Instr.WritesDma.streamCr {x : StreamId} (h : Instr.WritesDma i k (.stream x .cr)) :
    (∃ v, i = Instr.wrStream k x .cr v) ∨
      ∃ o v, o.toNat / 4 = (0x10 + 0x18 * x.val) / 4 ∧ (i = .dmaWr8 k o v ∨ i = .dmaWr16 k o v) := by
  obtain ⟨o, v, hi⟩ | ⟨o, v, ho, hi⟩ := h
  · exact .inl ⟨v, hi⟩
  · obtain ⟨-, -, hcr⟩ := DmaReg.ofOffset_cases (registerOffset o)
    have hword := hcr x ho
    rw [registerOffset_toNat] at hword
    exact .inr ⟨o, v, by omega, hi⟩

end

end Sys2Proof.Machine
end

