-- ==== Sys2Proof/Proofs/Irq.lean ====
section
/-! When an IRQ output changes (R35, R208, R268). Line events change none, so only the writes of the DMA window, the sync step
and the reset are looked at. -/

namespace Sys2Proof.Machine

theorem lineEventsKeep_irq : LineEventsKeep Dma.irq where
  request x _ d := Dma.modStream_irq x _ d
  failure x d := Dma.modStream_irq x _ d
  burst := Dma.finishBurst_irq
  item := Dma.finishItem_irq

/-- A clear raises no output (R208). -/
theorem Dma.clearIf_irq {v : Word} {x : StreamId} {d : Dma} {y : StreamId} (h : (d.clearIf v x).irq[y] = true) : d.irq[y] = true := by
  unfold Dma.clearIf Dma.clearFinished at h
  split at h
  · simp only [Fin.getElem_fin, Vector.getElem_set] at h
    split at h
    · cases h
    · exact h
  · exact h

theorem Dma.writeLifcr_irq {v} {d : Dma} {y : StreamId} (h : (d.writeLifcr v).irq[y] = true) : d.irq[y] = true :=
  Dma.clearIf_irq (Dma.clearIf_irq (Dma.clearIf_irq (Dma.clearIf_irq h)))

theorem Dma.writeHifcr_irq {v} {d : Dma} {y : StreamId} (h : (d.writeHifcr v).irq[y] = true) : d.irq[y] = true :=
  Dma.clearIf_irq (Dma.clearIf_irq (Dma.clearIf_irq (Dma.clearIf_irq h)))

/-- A sync step raises at most the output of the stream at the head of the queue, and lowers none (R268). -/
theorem Dma.sync_irq (d : Dma) (y : StreamId) : d.sync.irq[y] = (d.irq[y] || d.dq.head? == some y) := by
  unfold Dma.sync
  split
  · next hdq => simp [hdq]
  · next x rest hdq =>
    by_cases hxy : x = y
    · simp [hdq, hxy]
    · have hne : x.val ≠ y.val := fun e => hxy (Fin.ext e)
      simp [hdq, hxy, Vector.getElem_set_ne, hne]

theorem Dma.reset_irq (p : DmaSite) (y : StreamId) : (Dma.reset p).irq[y] = false := by
  simp [Dma.reset]

theorem writeStreamCr_irq {k x v} {w w' : Work} (h : writeStreamCr k x v w = .ok w') :
    SameView Dma.irq w.st w'.st := by
  have store (m : Stream) := SameView.modDma (Dma.modStream_irq x fun _ => m) k w.st
  obtain ⟨d, -, ⟨-, -, -, -, hsel⟩ | ⟨-, -, -, rfl⟩ | ⟨-, rfl⟩⟩ := writeStreamCr_ok h
  · exact (store _).trans (selectTransfer_sameView lineEventsKeep_irq hsel)
  · exact store _
  · exact store _

/-- A write of the DMA window keeps every output, or it is a write of a clear register and raises none. -/
theorem dmaWriteReg_irq {k r v} {w w' : Work} (h : dmaWriteReg k r v w = .ok w') :
    SameView Dma.irq w.st w'.st ∨
      (r = .lifcr ∨ r = .hifcr) ∧
        ∃ f, (∀ (d : Dma) (y : StreamId), (f d).irq[y] = true → d.irq[y] = true) ∧ w' = w.modDma k f := by
  obtain ⟨-, rfl⟩ | ⟨hr, rfl⟩ | ⟨hr, rfl⟩ | ⟨x, -, hcr⟩ | ⟨x, q, -, -, rfl⟩ := dmaWriteReg_ok h
  · exact .inl rfl
  · exact .inr ⟨.inl hr, _, fun _ _ => Dma.writeLifcr_irq, rfl⟩
  · exact .inr ⟨.inr hr, _, fun _ _ => Dma.writeHifcr_irq, rfl⟩
  · exact .inl (writeStreamCr_irq hcr)
  · exact .inl (.modDma (Dma.modStream_irq x _) k w.st)

/-- What an operation that answers next does to the outputs of DMA controller `k`: nothing, a sync step, a reset, or a clear
that raises none. -/
theorem exec_irq {i : Instr} {s t : State} {k : Nat} {d d' : Dma} (h : exec i s = .next t) (hd : s.dmas[k]? = some d)
    (hd' : t.dmas[k]? = some d') :
    d'.irq = d.irq ∨ (i = .dmaSync k ∧ d' = d.sync) ∨ (i = .dmaReset k ∧ d' = Dma.reset d.site) ∨
      (∃ r, (r = .lifcr ∨ r = .hifcr) ∧ Instr.WritesDma i k r) ∧ ∀ y : StreamId, d'.irq[y] = true → d.irq[y] = true := by
  cases exec_dmaEffect h with
  | write k₀ r v hi hset =>
    obtain ⟨w, hwrite, hdel⟩ := settle_next hset
    have hcascade : SameView Dma.irq w.st t := deliver_sameView lineEventsKeep_irq hdel
    obtain hsame | ⟨hr, f, hf, rfl⟩ := dmaWriteReg_irq hwrite
    · exact .inl ((hsame.trans hcascade).observation_eq hd hd')
    · obtain ⟨d₁, hd₁, hirq⟩ := hcascade.exists_before hd'
      obtain ⟨rfl, rfl⟩ | ⟨-, rfl⟩ := State.modDma_cases hd hd₁
      · exact .inr (.inr (.inr ⟨⟨r, hr, hi⟩, fun y hy => hf d y (hirq ▸ hy)⟩))
      · exact .inl hirq
  | sync k₀ hi ht =>
    subst ht
    obtain ⟨rfl, hsync⟩ | ⟨-, rfl⟩ := State.modDma_cases hd hd'
    · exact .inr (.inl ⟨hi, hsync⟩)
    · exact .inl rfl
  | reset k₀ hi ht =>
    subst ht
    obtain ⟨rfl, hreset⟩ | ⟨-, rfl⟩ := State.modDma_cases hd hd'
    · exact .inr (.inr (.inl ⟨hi, hreset⟩))
    · exact .inl rfl
  | lineEvents hev =>
    obtain ⟨n, w, hdmas, hdel⟩ := hev
    have hstart : SameView Dma.irq s w.st := .of_dmas_eq hdmas
    exact .inl ((hstart.trans (deliver_sameView lineEventsKeep_irq hdel)).observation_eq hd hd')

/-- Settles O58, by what an operation does to the outputs: only a sync step raises one, only a reset or a clear lowers
one. -/
theorem irqChangesOnlyBySyncClearOrReset : Obligations.IrqChangesOnlyBySyncClearOrReset := by
  intro s t i k d d' x h hd hd'
  obtain hsame | ⟨hi, rfl⟩ | ⟨hi, rfl⟩ | ⟨⟨r, hr, hi⟩, hclear⟩ := exec_irq h hd hd'
  · rw [hsame]
    exact ⟨fun hlow hhigh => by simp [hlow] at hhigh, fun hhigh hlow => by simp [hlow] at hhigh⟩
  · rw [Dma.sync_irq]
    refine ⟨fun hlow hhigh => ⟨hi, ?_⟩, fun hhigh hlow => ?_⟩
    · simpa [hlow] using hhigh
    · simp [hhigh] at hlow
  · rw [Dma.reset_irq]
    exact ⟨fun _ hhigh => (Bool.false_ne_true hhigh).elim, fun _ _ => .inl hi⟩
  · refine ⟨fun hlow hhigh => ?_, fun _ _ => .inr (hi.clear hr)⟩
    simp [hclear x hhigh] at hlow

end Sys2Proof.Machine
end

