-- ==== Sys2Proof/Proofs/Latch.lean ====
section
/-! When a LATCH changes (R32, R222). Line events change none, so only the writes of the DMA window and the reset are looked
at. -/

namespace Sys2Proof.Machine

/-- `LATCH` of stream `y` (R32). -/
def Dma.latch (y : StreamId) (d : Dma) : BitVec 16 := d.streams[y].latch

/-- A change of a stream keeps the latch of every stream if it keeps that stream's own. -/
theorem Dma.latch_modStream {x y : StreamId} {f : Stream → Stream} {d : Dma}
    (hf : x = y → (f d.streams[x]).latch = d.streams[x].latch) : (d.modStream x f).latch y = d.latch y := by
  unfold Dma.latch
  by_cases hxy : x = y
  · subst hxy; rw [Dma.modStream_self, hf rfl]
  · rw [Dma.modStream_other hxy]

theorem Dma.latch_complete (x y : StreamId) (d : Dma) : (d.complete x).latch y = d.latch y := rfl

theorem Dma.latch_finishBurst (x y : StreamId) (d : Dma) : (d.finishBurst x).latch y = d.latch y := by
  rw [Dma.finishBurst, Dma.latch_complete]
  refine Dma.latch_modStream fun _ => ?_
  split <;> rfl

theorem lineEventsKeep_latch (y : StreamId) : LineEventsKeep (Dma.latch y) where
  request _ _ _ := Dma.latch_modStream fun _ => rfl
  failure _ _ := Dma.latch_modStream fun _ => rfl
  burst x d := d.latch_finishBurst x y
  item x d := by
    unfold Dma.finishItem
    split
    · exact Dma.latch_modStream fun _ => rfl
    · exact d.latch_finishBurst x y

theorem Stream.writeReg_latch (q : StreamReg) (v : Word) (m : Stream) : (m.writeReg q v).latch = m.latch := by
  cases q with
  | ndtr | par | m0ar | m1ar =>
    simp only [Stream.writeReg]
    split <;> rfl
  | cr => rfl
  | fcr => rfl

theorem Dma.writeLifcr_latch (y : StreamId) (v : Word) (d : Dma) : (d.writeLifcr v).latch y = d.latch y := by
  simp [Dma.latch, Dma.writeLifcr]

theorem Dma.writeHifcr_latch (y : StreamId) (v : Word) (d : Dma) : (d.writeHifcr v).latch y = d.latch y := by
  simp [Dma.latch, Dma.writeHifcr]

theorem Dma.reset_latch (y : StreamId) (p : DmaSite) : (Dma.reset p).latch y = 0 := by
  simp [Dma.latch, Dma.reset, Stream.reset]

/-- What happens to the latches of stream `y` at its enable edge: controller `k` has the stream disabled in `s`, and in `t`
the latch is that NDT; the latch of `y` in every other controller is as it was (R222). -/
def EnableEdge (k : Nat) (y : StreamId) (s t : State) : Prop :=
  ∃ d m, s.dmas[k]? = some d ∧ d.streams[y].en = false ∧ m.latch = d.streams[y].ndt ∧
    SameView (Dma.latch y) (s.modDma k fun d => d.modStream y fun _ => m) t

/-- Seen from stream `y`, the enable edge of a stream is its own or changes no latch. -/
theorem enableEdge_or_other {k : Nat} {x y : StreamId} {s t : State} {d : Dma} {m : Stream} (hk : s.dmas[k]? = some d)
    (hdis : d.streams[x].en = false) (hm : m.latch = d.streams[x].ndt)
    (hsame : SameView (Dma.latch y) (s.modDma k fun d => d.modStream x fun _ => m) t) :
    SameView (Dma.latch y) s t ∨ x = y ∧ EnableEdge k y s t := by
  by_cases hxy : x = y
  · subst hxy
    exact .inr ⟨rfl, d, m, hk, hdis, hm, hsame⟩
  · refine .inl (SameView.trans (.modDma (fun d' => ?_) k s) hsame)
    exact Dma.latch_modStream fun e => absurd e hxy

/-- A write of SxCR keeps every latch of a stream, or it is that stream's enable edge (R221, R222). -/
theorem writeStreamCr_latch {k x v} {w w' : Work} (h : writeStreamCr k x v w = .ok w') (y : StreamId) :
    SameView (Dma.latch y) w.st w'.st ∨ x = y ∧ EnableEdge k y w.st w'.st := by
  obtain ⟨d, hk, ⟨hdis, -, -, -, hsel⟩ | ⟨hdis, -, -, rfl⟩ | ⟨-, rfl⟩⟩ := writeStreamCr_ok h
  · exact enableEdge_or_other hk hdis rfl (selectTransfer_sameView (lineEventsKeep_latch y) hsel)
  · exact enableEdge_or_other hk hdis rfl rfl
  · refine .inl (.modDma_at fun d' hk' => Dma.latch_modStream fun _ => ?_)
    obtain rfl := Option.some.inj (hk.symm.trans hk')
    rfl

theorem dmaWriteReg_latch {k r v} {w w' : Work} (h : dmaWriteReg k r v w = .ok w') (y : StreamId) :
    SameView (Dma.latch y) w.st w'.st ∨ r = .stream y .cr ∧ EnableEdge k y w.st w'.st := by
  obtain ⟨-, rfl⟩ | ⟨-, rfl⟩ | ⟨-, rfl⟩ | ⟨x, rfl, hcr⟩ | ⟨x, q, -, -, rfl⟩ := dmaWriteReg_ok h
  · exact .inl rfl
  · exact .inl (.modDma (Dma.writeLifcr_latch y v) k w.st)
  · exact .inl (.modDma (Dma.writeHifcr_latch y v) k w.st)
  · refine (writeStreamCr_latch hcr y).imp_right ?_
    rintro ⟨rfl, hedge⟩
    exact ⟨rfl, hedge⟩
  · exact .inl (.modDma (fun d => Dma.latch_modStream fun _ => Stream.writeReg_latch q v _) k w.st)

/-- A controller around an enable edge: its latch is as it was, or it is the controller of the edge. -/
theorem EnableEdge.latch_cases {k k' : Nat} {y : StreamId} {s t : State} (h : EnableEdge k' y s t) {d d' : Dma}
    (hd : s.dmas[k]? = some d) (hd' : t.dmas[k]? = some d') :
    d'.latch y = d.latch y ∨ k' = k ∧ d.streams[y].en = false ∧ d'.latch y = d.streams[y].ndt := by
  obtain ⟨d₀, m, hk', hdis, hm, hsame⟩ := h
  obtain ⟨d₁, hd₁, hlatch⟩ := hsame.exists_before hd'
  obtain ⟨rfl, rfl⟩ | ⟨-, rfl⟩ := State.modDma_cases hd hd₁
  · obtain rfl := Option.some.inj (hd.symm.trans hk')
    refine .inr ⟨rfl, hdis, ?_⟩
    rw [hlatch, Dma.latch, Dma.modStream_self, hm]
  · exact .inl hlatch

/-- What an operation that answers next does to the latch of stream `y` of DMA controller `k`: nothing, a reset, or an enable
edge by a write of its CR. -/
theorem exec_latch {i : Instr} {s t : State} {k : Nat} {d d' : Dma} (h : exec i s = .next t) (hd : s.dmas[k]? = some d)
    (hd' : t.dmas[k]? = some d') (y : StreamId) :
    d'.latch y = d.latch y ∨ (i = .dmaReset k ∧ d' = Dma.reset d.site) ∨
      (Instr.WritesDma i k (.stream y .cr) ∧ d.streams[y].en = false ∧ d'.latch y = d.streams[y].ndt) := by
  cases exec_dmaEffect h with
  | write k₀ r v hi hset =>
    obtain ⟨w, hwrite, hdel⟩ := settle_next hset
    have hcascade : SameView (Dma.latch y) w.st t := deliver_sameView (lineEventsKeep_latch y) hdel
    obtain hsame | ⟨rfl, d₀, m, hk₀, hdis, hm, hsame⟩ := dmaWriteReg_latch hwrite y
    · exact .inl ((hsame.trans hcascade).observation_eq hd hd')
    · have hedge : EnableEdge k₀ y s t := ⟨d₀, m, hk₀, hdis, hm, hsame.trans hcascade⟩
      obtain hlatch | ⟨rfl, hen, hlatch⟩ := hedge.latch_cases hd hd'
      · exact .inl hlatch
      · exact .inr (.inr ⟨hi, hen, hlatch⟩)
  | sync k₀ hi ht =>
    have hsame : SameView (Dma.latch y) s t := ht ▸ .modDma (fun d => by simp [Dma.latch]) k₀ s
    exact .inl (hsame.observation_eq hd hd')
  | reset k₀ hi ht =>
    subst ht
    obtain ⟨rfl, hreset⟩ | ⟨-, rfl⟩ := State.modDma_cases hd hd'
    · exact .inr (.inl ⟨hi, hreset⟩)
    · exact .inl rfl
  | lineEvents hev =>
    obtain ⟨n, w, hdmas, hdel⟩ := hev
    have hstart : SameView (Dma.latch y) s w.st := .of_dmas_eq hdmas
    exact .inl ((hstart.trans (deliver_sameView (lineEventsKeep_latch y) hdel)).observation_eq hd hd')

/-- Settles O59, by what an operation does to the latch: a change is a reset, which leaves 0, or an enable edge. -/
theorem latchChangesOnlyAtEnableEdge : Obligations.LatchChangesOnlyAtEnableEdge := by
  intro s t i k d d' x h hd hd' hne
  obtain hsame | ⟨hi, rfl⟩ | ⟨hi, hdis, hlatch⟩ := exec_latch h hd hd' x
  · exact absurd hsame hne
  · exact .inl ⟨hi, Dma.reset_latch x d.site⟩
  · exact .inr ⟨hdis, hlatch, hi.streamCr⟩

end Sys2Proof.Machine
end

