-- ==== Sys2Proof/Proofs/QuietEvents.lean ====
section
/-! Line events that start no transfer (R260, R303, R382): each only sets the latch `REQ` of its stream, so an I²C action whose
events are such completes. -/

namespace Sys2Proof.Machine

/-! ### Operations on a controller that the platform has -/

theorem onDma_some {s : State} {k : Nat} {d : Dma} (hd : s.dmas[k]? = some d)
    (f : Dma → Host.Outcome State Fault Refusal) : onDma k s f = f d := by
  rw [onDma, hd]

theorem onI2c_some {s : State} {j : Nat} {c : I2c} (hc : s.i2cs[j]? = some c)
    (f : I2c → Host.Outcome State Fault Refusal) : onI2c j s f = f c := by
  rw [onI2c, hc]

/-! ### Delivery -/

/-- What one line event that starts no transfer leaves: the latch of its stream takes the level (R260). -/
def State.latchRequest (v : ReqEvent) (s : State) : State :=
  s.modDma v.dma fun d => d.modStream v.stream fun m => { m with req := v.level }

theorem State.applyRequests_cons (v : ReqEvent) (evs : List ReqEvent) (s : State) :
    s.applyRequests (v :: evs) = (s.latchRequest v).applyRequests evs := rfl

/-- The latch `REQ` takes a level without enabling or disabling any stream. -/
theorem Dma.modStream_req_en (x y : StreamId) (b : Bool) (d : Dma) :
    (d.modStream x fun m => { m with req := b }).streams[y].en = d.streams[y].en := by
  by_cases hxy : x = y
  · subst hxy; rw [Dma.modStream_self]
  · rw [Dma.modStream_other hxy]

theorem State.QuietEvents.latchRequest {s : State} {evs : List ReqEvent} (h : s.QuietEvents evs) (e : ReqEvent) :
    (s.latchRequest e).QuietEvents evs := by
  intro v hv
  obtain ⟨d, hd, hen⟩ := h v hv
  by_cases hk : e.dma = v.dma
  · rw [← hk] at hd ⊢
    refine ⟨_, State.modDma_self _ hd, fun hrise => ?_⟩
    rw [Dma.modStream_req_en, hen hrise]
  · exact ⟨d, by simp [State.latchRequest, hk, hd], hen⟩

/-- A fall, and a rise at a disabled stream, only set the latch (R260). -/
theorem dmaReq_quiet {v : ReqEvent} {s : State} {rest : List ReqEvent} {d : Dma} (hd : s.dmas[v.dma]? = some d)
    (hen : v.level = true → d.streams[v.stream].en = false) :
    dmaReq v.dma v.stream v.level ⟨s, rest⟩ = .ok ⟨s.latchRequest v, rest⟩ := by
  simp only [dmaReq, hd]
  rw [if_neg]
  · rfl
  · intro hedge
    simp only [Bool.and_eq_true] at hedge
    obtain ⟨⟨-, hrise⟩, hon⟩ := hedge
    rw [hen hrise] at hon
    cases hon

theorem deliver_quiet {evs : List ReqEvent} {n : Nat} {s : State} (hq : s.QuietEvents evs) (hn : evs.length ≤ n) :
    deliver n ⟨s, evs⟩ = .ok (s.applyRequests evs) := by
  induction evs generalizing n s with
  | nil => exact deliver_nil n s
  | cons v rest ih =>
    obtain ⟨d, hd, hen⟩ := hq v List.mem_cons_self
    have hrest : s.QuietEvents rest := fun u hu => hq u (List.mem_cons_of_mem v hu)
    cases n with
    | zero => simp at hn
    | succ n =>
      rw [deliver, dmaReq_quiet hd hen, State.applyRequests_cons]
      exact ih (hrest.latchRequest v) (Nat.le_of_succ_le_succ hn)

/-! ### I²C transactions that start no transfer -/

theorem i2cStep_noDispatch {s : State} {j : Nat} {c c' : I2c} {e' : Children} (h : s.NoDispatch (lineEvents c c')) :
    i2cStep j c c' e' s = .next (s.afterI2c j c c' e') := by
  obtain ⟨hquiet, hlimit⟩ := h
  have hdel : deliver s.cascadeLimit ⟨{ s with i2cs := s.i2cs.set j c', child := e' }, lineEvents c c'⟩ =
      .ok (s.afterI2c j c c' e') := deliver_quiet hquiet hlimit
  simp [i2cStep, settle, Work.commitI2c, hdel]

/-- An I²C action that changes neither the controller nor the children changes nothing. -/
theorem i2cStep_same {s : State} {j : Nat} {c : I2c} (hc : s.i2cs[j]? = some c) :
    i2cStep j c c s.child s = .next s := by
  rw [i2cStep_quiet (lineEvents_same rfl rfl), set_self hc]

/-- A 32-bit read of an I²C register whose line changes start no transfer (R107, R303). -/
theorem i2cRead32_noDispatch {s : State} {j : Nat} {c c' : I2c} {r : I2cReg} {v : Word} (hc : s.i2cs[j]? = some c)
    (hread : c.readReg r = (v, c')) (h : s.NoDispatch (lineEvents c c')) :
    i2cRead32 j r s = .next (State.afterI2c (s.addResult .word v) j c c' s.child) := by
  rw [i2cRead32, onI2c_some hc, hread]
  exact i2cStep_noDispatch (s := s.addResult .word v) h

/-- A 32-bit write of an I²C register whose line changes start no transfer (R108, R303). -/
theorem i2cWrite32_noDispatch {s : State} {j : Nat} {c c' : I2c} {r : I2cReg} {v : Word} {e' : Children}
    (hc : s.i2cs[j]? = some c) (hwrite : i2cWriteReg j r v c s.child = (c', e'))
    (h : s.NoDispatch (lineEvents c c')) :
    i2cWrite32 j r v s = .next (s.afterI2c j c c' e') := by
  rw [i2cWrite32, onI2c_some hc, hwrite]
  exact i2cStep_noDispatch h

end Sys2Proof.Machine
end

