-- ==== Sys2Proof/Proofs/Memory.lean ====
section
/-! Transactions on the two register windows (R102–R109): which are aligned, the lanes of the narrow ones, and what a step makes
of the presented operation (R111). -/

namespace Sys2Proof.Machine

/-! ### Alignment (R104) -/

theorem lowTwoBits_toNat (o : Offset) : (o.extractLsb' 0 2).toNat = o.toNat % 4 := by
  simp

theorem isWord_iff (o : Offset) : o.isWord = true ↔ o.toNat % 4 = 0 := by
  rw [Offset.isWord, beq_iff_eq, ← BitVec.toNat_inj, lowTwoBits_toNat]
  rfl

theorem not_isWord_iff {o : Offset} : (!o.isWord) = true ↔ o.toNat % 4 ≠ 0 := by
  rw [Ne, ← isWord_iff]
  simp

theorem isTwo_iff (o : Offset) : o.isTwo = true ↔ o.toNat % 4 = 2 := by
  rw [Offset.isTwo, beq_iff_eq, ← BitVec.toNat_inj, lowTwoBits_toNat]
  rfl

/-- A half-word access is aligned exactly at the even offsets. -/
theorem aligned_half_iff (o : Offset) : aligned .half o = true ↔ o.toNat % 2 = 0 := by
  simp [aligned, widthBytes]

/-- The offset check of the 16-bit rows is their alignment (R144). -/
theorem aligned_half_of_not_odd {o : Offset} (h : (!o.isOdd) = true) : aligned .half o = true :=
  aligned_half (by simpa using h)

/-! ### Lanes (R102) -/

/-- The bits of a merged write: the data operand inside the lane, the register's own value outside. -/
theorem mergeLane_bit (n : Width) (o : Offset) (r v : Word) {i : Nat} (hi : i < 32) :
    (mergeLane n o r v).getLsbD i =
      if 8 * (o.toNat % 4) ≤ i ∧ i < 8 * (o.toNat % 4) + 8 * widthBytes n then v.getLsbD (i - 8 * (o.toNat % 4))
      else r.getLsbD i := by
  rw [mergeLane, clip, laneShift]
  generalize 8 * (o.toNat % 4) = p
  simp only [BitVec.getLsbD_or, BitVec.getLsbD_and, BitVec.getLsbD_not, BitVec.getLsbD_shiftLeft, widthMask_bit, hi,
    decide_true, Bool.true_and]
  by_cases hbelow : i < p
  · simp [hbelow, Nat.not_le.2 hbelow]
  · have hin : i - p < 8 * widthBytes n ↔ i < p + 8 * widthBytes n := by omega
    by_cases habove : i < p + 8 * widthBytes n <;> simp [hbelow, Nat.le_of_not_lt hbelow, hin, habove]

theorem clip_eq_extract (n : Width) (v : Word) : clip n v = (v.extractLsb' 0 (8 * widthBytes n)).setWidth 32 := by
  refine BitVec.eq_of_getLsbD_eq fun i hi => ?_
  rw [clip, BitVec.getLsbD_and, widthMask_bit, BitVec.getLsbD_setWidth, BitVec.getLsbD_extractLsb', Nat.zero_add,
    decide_eq_true hi, Bool.true_and, Bool.and_comm]

/-! ### Narrow transactions on the DMA window (R105, R106) -/

theorem exec_dmaRd8 (k o) (s : State) : exec (.dmaRd8 k o) s = dmaReadAt k .byte o s := rfl
theorem exec_dmaRd16 (k o) (s : State) : exec (.dmaRd16 k o) s = dmaReadAt k .half o s := rfl
theorem exec_dmaWr8 (k o v) (s : State) : exec (.dmaWr8 k o v) s = dmaWriteAt k .byte o v s := rfl
theorem exec_dmaWr16 (k o v) (s : State) : exec (.dmaWr16 k o v) s = dmaWriteAt k .half o v s := rfl

section
variable {s : State} {k : Nat} {d : Dma} {n : Width} {o : Offset}

theorem dmaReadAt_next (hd : s.dmas[k]? = some d) (ha : aligned n o = true) :
    dmaReadAt k n o s = .next (s.addResult n (readLane n o (d.readReg (DmaReg.ofOffset (registerOffset o))))) := by
  rw [dmaReadAt, if_pos ha, onDma_some hd]

/-- An aligned narrow write is the 32-bit write of the merged value. -/
theorem dmaWriteAt_eq_merge (v : Word) (hd : s.dmas[k]? = some d) (ha : aligned n o = true) :
    dmaWriteAt k n o v s =
      dmaWrite32 k (DmaReg.ofOffset (registerOffset o))
        (mergeLane n o (d.readReg (DmaReg.ofOffset (registerOffset o))) v) s := by
  rw [dmaWriteAt, if_pos ha, onDma_some hd, dmaWrite32, onDma_some hd]

theorem exec_dmaRd32_next (r : DmaReg) (hd : s.dmas[k]? = some d) :
    exec (Instr.dmaRd32 k o r) s = .next (s.addResult .word (d.readReg r)) := by
  rw [exec_dmaRd32, dmaRead32, onDma_some hd]

end

/-- Settles O25, by the bits of `readLane`. -/
theorem dmaNarrowReadsProject : Obligations.DmaNarrowReadsProject := by
  intro s k d o hd
  simp only [exec_dmaRd8, exec_dmaRd16]
  refine ⟨_, _, exec_dmaRd32_next _ hd, dmaReadAt_next hd (aligned_byte o), readLane_bit .byte o _, fun hwf => ?_⟩
  exact ⟨_, dmaReadAt_next hd (aligned_half_of_not_odd hwf), readLane_bit .half o _⟩

/-- Settles O26, by the bits of `mergeLane`. -/
theorem dmaNarrowWritesMerge : Obligations.DmaNarrowWritesMerge := by
  intro s k d o v hd
  simp only [exec_dmaWr8, exec_dmaWr16, exec_dmaWr32]
  refine ⟨_, _, exec_dmaRd32_next _ hd, dmaWriteAt_eq_merge v hd (aligned_byte o), fun _ => mergeLane_bit .byte o _ v,
    fun hwf => ?_⟩
  exact ⟨_, dmaWriteAt_eq_merge v hd (aligned_half_of_not_odd hwf), fun _ => mergeLane_bit .half o _ v⟩

/-! ### Writes of the DMA window that start no transfer -/

/-- What a register write that starts no transfer keeps of its controller: the construction parameters, the queue, every
LATCH and every REQ. -/
structure Dma.HiddenKept (d d' : Dma) : Prop where
  site : d'.site = d.site
  dq : d'.dq = d.dq
  latch : ∀ x : StreamId, d'.streams[x].latch = d.streams[x].latch
  req : ∀ x : StreamId, d'.streams[x].req = d.streams[x].req

theorem Dma.HiddenKept.refl (d : Dma) : d.HiddenKept d := ⟨rfl, rfl, fun _ => rfl, fun _ => rfl⟩

theorem Dma.HiddenKept.of_streams_eq {d d' : Dma} (hsite : d'.site = d.site) (hdq : d'.dq = d.dq)
    (h : d'.streams = d.streams) : d.HiddenKept d' :=
  ⟨hsite, hdq, fun x => by rw [h], fun x => by rw [h]⟩

/-- A change of one stream that keeps its LATCH and REQ keeps the hidden state of the controller. -/
theorem Dma.HiddenKept.modStream {x : StreamId} {f : Stream → Stream} {d : Dma}
    (hlatch : (f d.streams[x]).latch = d.streams[x].latch) (hreq : (f d.streams[x]).req = d.streams[x].req) :
    d.HiddenKept (d.modStream x f) := by
  refine ⟨rfl, rfl, fun y => ?_, fun y => ?_⟩
  all_goals
    by_cases hxy : x = y
    · subst hxy; rwa [Dma.modStream_self]
    · rw [Dma.modStream_other hxy]

theorem Dma.hiddenKept_writeLifcr (v : Word) (d : Dma) : d.HiddenKept (d.writeLifcr v) :=
  .of_streams_eq (by simp) (by simp [Dma.writeLifcr]) (by simp [Dma.writeLifcr])

theorem Dma.hiddenKept_writeHifcr (v : Word) (d : Dma) : d.HiddenKept (d.writeHifcr v) :=
  .of_streams_eq (by simp) (by simp [Dma.writeHifcr]) (by simp [Dma.writeHifcr])

theorem Stream.writeReg_req (q : StreamReg) (v : Word) (m : Stream) : (m.writeReg q v).req = m.req := by
  cases q with
  | ndtr | par | m0ar | m1ar =>
    simp only [Stream.writeReg]
    split <;> rfl
  | cr => rfl
  | fcr => rfl

/-- A write of the CR of an enabled stream only stores its fields (R221, R223). -/
theorem writeStreamCr_enabled {k : Nat} {x : StreamId} {v : Word} {w : Work} {d : Dma} (hd : w.st.dmas[k]? = some d)
    (hen : d.streams[x].en = true) :
    writeStreamCr k x v w = .ok (w.modDma k fun d' => d'.modStream x fun _ => d.streams[x].storeCr v) := by
  simp only [writeStreamCr, hd]
  rw [if_neg (by rw [hen]; exact Bool.false_ne_true)]

theorem Work.modDma_id (k : Nat) (w : Work) : w.modDma k id = w := by
  simp [Work.modDma, State.modDma]

/-- A write of a register that is not the CR of a disabled stream changes its controller alone, and none of its hidden
state. -/
theorem dmaWriteReg_changes {k : Nat} {r : DmaReg} (v : Word) {w : Work} {d : Dma} (hd : w.st.dmas[k]? = some d)
    (hcr : ∀ x, r = .stream x .cr → d.streams[x].en = true) :
    ∃ f : Dma → Dma, dmaWriteReg k r v w = .ok (w.modDma k f) ∧ d.HiddenKept (f d) := by
  have hstore (x q) : d.HiddenKept (d.modStream x (Stream.writeReg q v)) :=
    .modStream (Stream.writeReg_latch q v _) (Stream.writeReg_req q v _)
  cases r with
  | lisr | hisr | unmapped => exact ⟨id, by rw [w.modDma_id k]; rfl, .refl d⟩
  | lifcr => exact ⟨_, rfl, d.hiddenKept_writeLifcr v⟩
  | hifcr => exact ⟨_, rfl, d.hiddenKept_writeHifcr v⟩
  | stream x q =>
    cases q with
    | cr => exact ⟨_, writeStreamCr_enabled hd (hcr x rfl), .modStream rfl rfl⟩
    | ndtr | par | m0ar | m1ar | fcr => exact ⟨_, rfl, hstore x _⟩

theorem dmaWrite32_next {s : State} {k : Nat} {r : DmaReg} (v : Word) {d : Dma} (hd : s.dmas[k]? = some d)
    (hcr : ∀ x, r = .stream x .cr → d.streams[x].en = true) :
    ∃ d' : Dma, dmaWrite32 k r v s = .next { s with dmas := s.dmas.set k d' } ∧ d.HiddenKept d' := by
  obtain ⟨f, hwrite, hkept⟩ := dmaWriteReg_changes v (w := ⟨s, []⟩) hd hcr
  refine ⟨f d, ?_, hkept⟩
  rw [dmaWrite32, onDma_some hd, hwrite, Work.modDma, settle_nil, State.modDma_eq f hd]

/-- An aligned narrow write completes unless it reaches the CR of a disabled stream. -/
theorem dmaWriteAt_next {s : State} {k : Nat} {n : Width} {o : Offset} (v : Word) {d : Dma}
    (hd : s.dmas[k]? = some d) (ha : aligned n o = true)
    (hcr : ∀ x, DmaReg.ofOffset (registerOffset o) = .stream x .cr → d.streams[x].en = true) :
    ∃ d' : Dma, dmaWriteAt k n o v s = .next { s with dmas := s.dmas.set k d' } ∧ d'.site = d.site ∧ d'.dq = d.dq ∧
      ∀ x : StreamId, d'.streams[x].latch = d.streams[x].latch ∧ d'.streams[x].req = d.streams[x].req := by
  rw [dmaWriteAt_eq_merge v hd ha]
  obtain ⟨d', hnext, hkept⟩ := dmaWrite32_next _ hd hcr
  exact ⟨d', hnext, hkept.site, hkept.dq, fun x => ⟨hkept.latch x, hkept.req x⟩⟩

/-- Settles O27: the merged write only changes the addressed controller. -/
theorem dmaNarrowWritesComplete : Obligations.DmaNarrowWritesComplete := by
  intro s k d o v hd hcr
  simp only [exec_dmaWr8, exec_dmaWr16]
  exact ⟨dmaWriteAt_next v hd (aligned_byte o) hcr, fun hwf => dmaWriteAt_next v hd (aligned_half_of_not_odd hwf) hcr⟩

/-! ### Narrow transactions on the I²C window (R107–R109) -/

theorem exec_i2cRd8 (j o) (s : State) : exec (.i2cRd8 j o) s = i2cReadAt j .byte o s := rfl
theorem exec_i2cRd16 (j o) (s : State) : exec (.i2cRd16 j o) s = i2cReadAt j .half o s := rfl
theorem exec_i2cWr8Aligned (j o v) (s : State) : exec (.i2cWr8Aligned j o v) s = i2cWriteBus j .byte o v s := rfl
theorem exec_i2cWr16Aligned (j o v) (s : State) : exec (.i2cWr16Aligned j o v) s = i2cWriteBus j .half o v s := rfl
theorem exec_i2cWr8Unaligned (j o v) (s : State) : exec (.i2cWr8Unaligned j o v) s = i2cWriteBus j .byte o v s := rfl
theorem exec_i2cWr16Unaligned (j o v) (s : State) : exec (.i2cWr16Unaligned j o v) s = i2cWriteBus j .half o v s := rfl

section
variable {s : State} {j : Nat} {c : I2c} {n : Width} {o : Offset}

/-- An aligned read at any width has the effect of the register's read, and answers its lanes. -/
theorem i2cReadAt_noDispatch {c' : I2c} {r : Word} (hc : s.i2cs[j]? = some c) (ha : aligned n o = true)
    (hread : c.readReg (I2cReg.ofOffset (registerOffset o)) = (r, c')) (h : s.NoDispatch (lineEvents c c')) :
    i2cReadAt j n o s = .next (State.afterI2c (s.addResult n (readLane n o r)) j c c' s.child) := by
  rw [i2cReadAt, if_pos ha, onI2c_some hc, I2c.readAt, hread]
  exact i2cStep_noDispatch (s := s.addResult n _) h

/-- A write at a word offset is the 32-bit write of the value that its width carries (R108). -/
theorem i2cWriteBus_at_word (v : Word) (ho : o.isWord = true) :
    i2cWriteBus j n o v s = i2cWrite32 j (I2cReg.ofOffset o) (clip n v) s := by
  have hword := (isWord_iff o).1 ho
  have ha : aligned n o = true := by
    cases n <;> simp only [aligned, widthBytes, beq_iff_eq] <;> omega
  simp only [i2cWriteBus, if_pos ha, i2cWriteAt, if_pos hword, i2cWrite32]

/-- An aligned write beside the word offsets is ignored (R109). -/
theorem i2cWriteBus_ignored (v : Word) (hc : s.i2cs[j]? = some c) (ha : aligned n o = true) (ho : o.toNat % 4 ≠ 0) :
    i2cWriteBus j n o v s = .next s := by
  rw [i2cWriteBus, if_pos ha, onI2c_some hc, i2cWriteAt, if_neg ho]
  exact i2cStep_same hc

end

/-- Settles O47: at every width the controller is left as the register's read leaves it. -/
theorem i2cNarrowReadsHaveTheFullEffect : Obligations.I2cNarrowReadsHaveTheFullEffect := by
  intro s j c c' o r hc hread hquiet
  simp only [exec_i2cRd32, exec_i2cRd8, exec_i2cRd16]
  refine ⟨i2cRead32_noDispatch hc hread hquiet, ⟨_, ?_, readLane_bit .byte o r⟩,
    fun hwf => ⟨_, ?_, readLane_bit .half o r⟩⟩
  · exact i2cReadAt_noDispatch hc (aligned_byte o) hread hquiet
  · exact i2cReadAt_noDispatch hc (aligned_half_of_not_odd hwf) hread hquiet

theorem i2cWr8Aligned_eq_wr32 {j : Nat} {o : Offset} {v : Word} (hwf : WellFormed (.i2cWr8Aligned j o v)) (s : State) :
    exec (.i2cWr8Aligned j o v) s = i2cWrite32 j (I2cReg.ofOffset o) ((v.extractLsb' 0 8).setWidth 32) s := by
  rw [exec_i2cWr8Aligned, i2cWriteBus_at_word v hwf, clip_eq_extract]
  rfl

theorem i2cWr16Aligned_eq_wr32 {j : Nat} {o : Offset} {v : Word} (hwf : WellFormed (.i2cWr16Aligned j o v)) (s : State) :
    exec (.i2cWr16Aligned j o v) s = i2cWrite32 j (I2cReg.ofOffset o) ((v.extractLsb' 0 16).setWidth 32) s := by
  rw [exec_i2cWr16Aligned, i2cWriteBus_at_word v hwf, clip_eq_extract]
  rfl

/-- Settles O48, by the two cases of an aligned write: at a word offset and beside. -/
theorem i2cNarrowWritesZeroExtendOrAreIgnored : Obligations.I2cNarrowWritesZeroExtendOrAreIgnored := by
  intro s j c o v hc
  refine ⟨fun hwf => ?_, fun hwf => ?_, fun hwf => ?_, fun hwf => ?_⟩
  · rw [i2cWr8Aligned_eq_wr32 hwf, exec_i2cWr32]
  · rw [i2cWr16Aligned_eq_wr32 hwf, exec_i2cWr32]
  · rw [exec_i2cWr8Unaligned]
    exact i2cWriteBus_ignored v hc (aligned_byte o) (not_isWord_iff.1 hwf)
  · have htwo := (isTwo_iff o).1 hwf
    rw [exec_i2cWr16Unaligned]
    exact i2cWriteBus_ignored v hc ((aligned_half_iff o).2 (by omega)) (by omega)

/-- Settles O49: the 32-bit write that a narrow write at a word offset is completes. -/
theorem i2cAlignedNarrowWritesComplete : Obligations.I2cAlignedNarrowWritesComplete := by
  intro s j c c' o v e' hc
  refine ⟨fun hwf hwrite hquiet => ?_, fun hwf hwrite hquiet => ?_⟩
  · rw [i2cWr8Aligned_eq_wr32 hwf]
    exact i2cWrite32_noDispatch hc hwrite hquiet
  · rw [i2cWr16Aligned_eq_wr32 hwf]
    exact i2cWrite32_noDispatch hc hwrite hquiet

/-! ### Steps (R111, R142) and misaligned transactions (R104) -/

theorem step_of_decode_ok {s : State} {p : Operation} {rest : List Operation} {i : Instr} (hs : s.ops = p :: rest)
    (hp : decode p = .ok i) : step s = exec i { s with ops := rest } := by
  simp only [step, hs, hp]

theorem step_of_decode_reserved {s : State} {p : Operation} {rest : List Operation} (hs : s.ops = p :: rest)
    (hp : decode p = .error .reservedDescriptor) : step s = .refused .reservedDescriptor := by
  simp only [step, hs, hp]

theorem step_idle {s : State} (hs : s.ops = []) : step s = .next s := by
  simp only [step, hs]

/-- Settles O5, by the three ways a step goes. -/
theorem stepRunsTheDecodedOperation : Obligations.StepRunsTheDecodedOperation :=
  ⟨fun _ _ _ hs => ⟨fun _ => step_of_decode_ok hs, step_of_decode_reserved hs⟩, fun _ => step_idle⟩

/-- Settles O28: each of the twelve runs `misaligned`, which looks at no operand and at no state. -/
theorem misalignedTransactionsAreRefused : Obligations.MisalignedTransactionsAreRefused := by
  intro s n o v i hi
  have hrun : exec i s = misaligned s := by
    simp only [List.mem_cons, List.not_mem_nil, or_false] at hi
    obtain rfl | rfl | rfl | rfl | rfl | rfl | rfl | rfl | rfl | rfl | rfl | rfl := hi <;> rfl
  rw [hrun, misaligned]

end Sys2Proof.Machine
end

