-- ==== Sys2Proof/Proofs/Encoding.lean ====
section
/-! The descriptor format (R140–R146, decision D2): each field as arithmetic on the descriptor's value, the descriptor that
given fields make, and from them that decoder and encoder agree. With it the refusal of absent instances (R140, R68). -/

namespace Sys2Proof.Machine

/-! ### The fields of a descriptor (R140) -/

/-- Field BLK of a block (R140). -/
def blockCode : Block → Nat
  | .dma => 0
  | .i2c => 1

/-- Field SZ of a transaction width; of an event when there is none (R140). -/
def sizeCode : Option Width → Nat
  | some .byte => 0
  | some .half => 1
  | some .word => 2
  | none => 3

/-- The descriptor with the given fields and bits 31–15 zero (R140). -/
def descriptor (b : Block) (n : Option Width) (w : Bool) (o : Offset) : Word :=
  withOffset (BitVec.ofNat 32 (0x2000 * blockCode b + 0x800 * sizeCode n + 0x400 * w.toNat)) o

/-- Each field fits in its bits. -/
theorem field_bounds (b : Block) (n : Option Width) (w : Bool) (o : Offset) :
    blockCode b < 2 ∧ sizeCode n < 4 ∧ w.toNat < 2 ∧ o.toNat < 0x400 := by
  refine ⟨?_, ?_, w.toNat_lt, o.isLt⟩
  · cases b <;> decide
  · rcases n with _ | _ | _ | _ <;> decide

theorem withOffset_toNat (q : Nat) (hq : 0x400 * q < 2 ^ 32) (o : Offset) :
    (withOffset (BitVec.ofNat 32 (0x400 * q)) o).toNat = 0x400 * q + o.toNat := by
  rw [withOffset, BitVec.toNat_or, BitVec.toNat_ofNat, Nat.mod_eq_of_lt hq,
    BitVec.toNat_setWidth_of_le (by decide)]
  exact (Nat.two_pow_add_eq_or_of_lt (i := 10) o.isLt q).symm

theorem descriptor_toNat (b : Block) (n : Option Width) (w : Bool) (o : Offset) :
    (descriptor b n w o).toNat = 0x2000 * blockCode b + 0x800 * sizeCode n + 0x400 * w.toNat + o.toNat := by
  have hbounds := field_bounds b n w o
  have hq : 0x2000 * blockCode b + 0x800 * sizeCode n + 0x400 * w.toNat =
      0x400 * (8 * blockCode b + 2 * sizeCode n + w.toNat) := by omega
  rw [descriptor, hq, withOffset_toNat _ (by omega)]

theorem extract_eq_iff (t : Word) (i len c : Nat) (hc : c < 2 ^ len) :
    t.extractLsb' i len = BitVec.ofNat len c ↔ t.toNat / 2 ^ i % 2 ^ len = c := by
  rw [← BitVec.toNat_inj, BitVec.extractLsb'_toNat, BitVec.toNat_ofNat, Nat.mod_eq_of_lt hc,
    Nat.shiftRight_eq_div_pow]

theorem reservedBits_zero_iff (t : Word) : t.extractLsb' 15 17 = 0#17 ↔ t.toNat < 2 ^ 15 := by
  rw [extract_eq_iff t 15 17 0 (by decide)]
  have := t.isLt
  omega

theorem blockField_eq_some_iff (t : Word) (b : Block) :
    blockField t = some b ↔ t.toNat / 2 ^ 13 % 4 = blockCode b := by
  simp only [blockField, extract_eq_iff t 13 2 0 (by decide), extract_eq_iff t 13 2 1 (by decide)]
  cases b <;> simp only [blockCode] <;> split_ifs <;> simp <;> omega

theorem blockField_eq_none_iff (t : Word) : blockField t = none ↔ 2 ≤ t.toNat / 2 ^ 13 % 4 := by
  simp only [blockField, extract_eq_iff t 13 2 0 (by decide), extract_eq_iff t 13 2 1 (by decide)]
  split_ifs <;> simp <;> omega

theorem sizeCode_sizeField (t : Word) : sizeCode (sizeField t) = t.toNat / 2 ^ 11 % 4 := by
  simp only [sizeField, extract_eq_iff t 11 2 0 (by decide), extract_eq_iff t 11 2 1 (by decide),
    extract_eq_iff t 11 2 2 (by decide)]
  split_ifs <;> simp only [sizeCode] <;> omega

theorem sizeCode_injective : Function.Injective sizeCode := by
  rintro (_ | _ | _ | _) (_ | _ | _ | _) <;> simp [sizeCode]

theorem bool_toNat_injective : Function.Injective Bool.toNat := by
  intro a b
  revert a b
  decide

theorem writeField_toNat (t : Word) : (writeField t).toNat = t.toNat / 2 ^ 10 % 2 := by
  rw [writeField, BitVec.getLsbD, Nat.toNat_testBit]

theorem offsetField_toNat (t : Word) : (offsetField t).toNat = t.toNat % 2 ^ 10 := by
  rw [offsetField, BitVec.extractLsb'_toNat, Nat.shiftRight_zero]

section
variable (b : Block) (n : Option Width) (w : Bool) (o : Offset)

@[simp] theorem blockField_descriptor : blockField (descriptor b n w o) = some b := by
  have hbounds := field_bounds b n w o
  rw [blockField_eq_some_iff, descriptor_toNat]
  omega

@[simp] theorem sizeField_descriptor : sizeField (descriptor b n w o) = n := by
  have hbounds := field_bounds b n w o
  refine sizeCode_injective ?_
  rw [sizeCode_sizeField, descriptor_toNat]
  omega

@[simp] theorem writeField_descriptor : writeField (descriptor b n w o) = w := by
  have hbounds := field_bounds b n w o
  refine bool_toNat_injective ?_
  rw [writeField_toNat, descriptor_toNat]
  omega

@[simp] theorem offsetField_descriptor : offsetField (descriptor b n w o) = o := by
  have hbounds := field_bounds b n w o
  refine BitVec.eq_of_toNat_eq ?_
  rw [offsetField_toNat, descriptor_toNat]
  omega

theorem descriptor_lt : (descriptor b n w o).toNat < 2 ^ 15 := by
  have hbounds := field_bounds b n w o
  rw [descriptor_toNat]
  omega

end

/-! ### Decoding by fields -/

/-- Below bit 15 the fields are all that a descriptor holds. -/
theorem eq_descriptor_of_lt {t : Word} {b : Block} (ht : t.toNat < 2 ^ 15) (hb : blockField t = some b) :
    t = descriptor b (sizeField t) (writeField t) (offsetField t) := by
  have hblk := (blockField_eq_some_iff t b).1 hb
  refine BitVec.eq_of_toNat_eq ?_
  rw [descriptor_toNat, ← hblk, sizeCode_sizeField, writeField_toNat, offsetField_toNat]
  omega

section
variable (k : Nat) {t : Word} (d : Word)

theorem decode_of_lt (ht : t.toNat < 2 ^ 15) :
    decode ⟨k, t, d⟩ = decodeFields k (blockField t) (sizeField t) (writeField t) (offsetField t) d :=
  if_pos ((reservedBits_zero_iff t).2 ht)

theorem decode_of_ge (ht : 2 ^ 15 ≤ t.toNat) : decode ⟨k, t, d⟩ = .error .reservedDescriptor :=
  if_neg fun h0 => absurd ((reservedBits_zero_iff t).1 h0) (Nat.not_lt.2 ht)

theorem decode_descriptor (b : Block) (n : Option Width) (w : Bool) (o : Offset) :
    decode ⟨k, descriptor b n w o, d⟩ = decodeFields k (some b) n w o d := by
  rw [decode_of_lt k d (descriptor_lt b n w o), blockField_descriptor, sizeField_descriptor, writeField_descriptor,
    offsetField_descriptor]

/-- A descriptor is rejected for a bit above 14 or for its block, or it is made of fields (R140, R142). -/
theorem decode_cases (t : Word) :
    (decode ⟨k, t, d⟩ = .error .reservedDescriptor ∧ (2 ^ 15 ≤ t.toNat ∨ 2 ≤ t.toNat / 2 ^ 13 % 4)) ∨
      ∃ b n w o, t = descriptor b n w o := by
  by_cases ht : t.toNat < 2 ^ 15
  · cases hb : blockField t with
    | none => exact .inl ⟨by rw [decode_of_lt k d ht, hb]; rfl, .inr ((blockField_eq_none_iff t).1 hb)⟩
    | some b => exact .inr ⟨b, _, _, _, eq_descriptor_of_lt ht hb⟩
  · exact .inl ⟨decode_of_ge k d (Nat.not_lt.1 ht), .inl (Nat.not_lt.1 ht)⟩

end

/-! ### Offsets (R39, R60, R144) -/

theorem isOdd_iff (o : Offset) : o.isOdd = true ↔ o.toNat % 2 = 1 := by
  rw [Offset.isOdd, BitVec.getLsbD, Nat.testBit_zero, decide_eq_true_iff]

theorem isWord_of_not_odd_two {o : Offset} (hodd : ¬o.isOdd = true) (htwo : ¬o.isTwo = true) : o.isWord = true := by
  rw [isOdd_iff] at hodd
  rw [isTwo_iff] at htwo
  rw [isWord_iff]
  omega

theorem ite_of_not {α : Type} {b : Bool} (h : (!b) = true) (x y : α) : (if b = true then x else y) = y := by
  cases b
  · rfl
  · cases h

/-- The decoder's three-way choice by `OFF[1:0]` takes its second branch at 2. -/
theorem oddTwoWord_of_two {α : Type} {o : Offset} (h : o.isTwo = true) (x y z : α) :
    (if o.isOdd = true then x else if o.isTwo = true then y else z) = y := by
  rw [if_neg, if_pos h]
  rw [isTwo_iff] at h
  rw [isOdd_iff]
  omega

/-- The decoder's three-way choice by `OFF[1:0]` takes its third branch at 0. -/
theorem oddTwoWord_of_word {α : Type} {o : Offset} (h : o.isWord = true) (x y z : α) :
    (if o.isOdd = true then x else if o.isTwo = true then y else z) = z := by
  rw [isWord_iff] at h
  rw [if_neg, if_neg]
  · rw [isTwo_iff]
    omega
  · rw [isOdd_iff]
    omega

theorem StreamReg.sub_of_ofSub {n : Nat} {r : StreamReg} (h : StreamReg.ofSub n = some r) : r.sub = n := by
  unfold StreamReg.ofSub at h
  split at h <;> cases h <;> rfl

theorem StreamReg.ofSub_ne_none {n : Nat} (hlt : n < 0x18) (h4 : n % 4 = 0) : StreamReg.ofSub n ≠ none := by
  revert n
  decide

/-- Where a stream register stands: `0x10 + 0x18·x + sub(X)` (R39). -/
def streamOffset (x : StreamId) (r : StreamReg) : Offset := BitVec.ofNat 10 (0x10 + 0x18 * x.val + r.sub)

/-- Where a register of the DMA window stands (R39, R145); an unmapped offset `o` is its own. -/
def DmaReg.offset (o : Offset) : DmaReg → Offset
  | .lisr => 0x00
  | .hisr => 0x04
  | .lifcr => 0x08
  | .hifcr => 0x0C
  | .stream x r => streamOffset x r
  | .unmapped => o

/-- Where a register of the I²C window stands (R60, R146); an unmapped offset `o` is its own. -/
def I2cReg.offset (o : Offset) : I2cReg → Offset
  | .cr1 => 0x00
  | .cr2 => 0x04
  | .dr => 0x10
  | .sr1 => 0x14
  | .sr2 => 0x18
  | .unmapped => o

theorem DmaReg.offset_ofOffset (o : Offset) : DmaReg.offset o (DmaReg.ofOffset o) = o := by
  unfold DmaReg.ofOffset
  split_ifs with h0 h4 h8 hC hstream
  · exact BitVec.eq_of_toNat_eq h0.symm
  · exact BitVec.eq_of_toNat_eq h4.symm
  · exact BitVec.eq_of_toNat_eq h8.symm
  · exact BitVec.eq_of_toNat_eq hC.symm
  · split
    · next r hr =>
      refine BitVec.eq_of_toNat_eq ?_
      simp only [DmaReg.offset, streamOffset, BitVec.toNat_ofNat, StreamReg.sub_of_ofSub hr]
      omega
    · rfl
  · rfl

theorem I2cReg.offset_ofOffset (o : Offset) : I2cReg.offset o (I2cReg.ofOffset o) = o := by
  unfold I2cReg.ofOffset
  split_ifs with h00 h04 h10 h14 h18
  · exact BitVec.eq_of_toNat_eq h00.symm
  · exact BitVec.eq_of_toNat_eq h04.symm
  · exact BitVec.eq_of_toNat_eq h10.symm
  · exact BitVec.eq_of_toNat_eq h14.symm
  · exact BitVec.eq_of_toNat_eq h18.symm
  · rfl

/-- The word offsets of the DMA window without a register are those from 0xD0 on (R144, R209). -/
theorem DmaReg.ofOffset_eq_unmapped_iff {o : Offset} (ho : o.isWord = true) :
    DmaReg.ofOffset o = .unmapped ↔ 0xD0 ≤ o.toNat := by
  rw [isWord_iff] at ho
  unfold DmaReg.ofOffset
  split_ifs with h0 h4 h8 hC hstream
  · simp [h0]
  · simp [h4]
  · simp [h8]
  · simp [hC]
  · split
    · simp only [reduceCtorEq, false_iff]
      omega
    · next hnone => exact absurd hnone (StreamReg.ofSub_ne_none (by omega) (by omega))
  · simp only [true_iff]
    omega

theorem I2cReg.ofOffset_eq_unmapped_iff (o : Offset) : I2cReg.ofOffset o = .unmapped ↔ (!o.isI2cReg) = true := by
  unfold I2cReg.ofOffset Offset.isI2cReg
  split_ifs <;> simp [*]

/-! ### Decoding what was encoded -/

section
variable (k : Nat) (n : Width) (o : Offset) (d : Word)

theorem decode_dmaRead : decode ⟨k, descriptor .dma (some n) false o, d⟩ = .ok (decodeDmaRead k n o) :=
  decode_descriptor ..

theorem decode_dmaWrite : decode ⟨k, descriptor .dma (some n) true o, d⟩ = .ok (decodeDmaWrite k n o d) :=
  decode_descriptor ..

theorem decode_i2cRead : decode ⟨k, descriptor .i2c (some n) false o, d⟩ = .ok (decodeI2cRead k n o) :=
  decode_descriptor ..

theorem decode_i2cWrite : decode ⟨k, descriptor .i2c (some n) true o, d⟩ = .ok (decodeI2cWrite k n o d) :=
  decode_descriptor ..

end

section
variable {k : Nat} {o : Offset} {d : Word}

theorem decodeDmaRead_unmapped (h : WellFormed (.dmaRd32Unmapped k o)) :
    decodeDmaRead k .word o = .dmaRd32Unmapped k o := by
  obtain ⟨hword, hoff⟩ := Bool.and_eq_true_iff.1 h
  rw [decodeDmaRead, oddTwoWord_of_word hword, (DmaReg.ofOffset_eq_unmapped_iff hword).2 (of_decide_eq_true hoff)]
  rfl

theorem decodeDmaWrite_unmapped (h : WellFormed (.dmaWr32Unmapped k o d)) :
    decodeDmaWrite k .word o d = .dmaWr32Unmapped k o d := by
  obtain ⟨hword, hoff⟩ := Bool.and_eq_true_iff.1 h
  rw [decodeDmaWrite, oddTwoWord_of_word hword, (DmaReg.ofOffset_eq_unmapped_iff hword).2 (of_decide_eq_true hoff)]
  rfl

theorem decodeI2cRead_unmapped (h : WellFormed (.i2cRd32Unmapped k o)) :
    decodeI2cRead k .word o = .i2cRd32Unmapped k o := by
  obtain ⟨hword, hoff⟩ := Bool.and_eq_true_iff.1 h
  rw [decodeI2cRead, oddTwoWord_of_word hword, (I2cReg.ofOffset_eq_unmapped_iff o).2 hoff]
  rfl

theorem decodeI2cWrite_unmapped (h : WellFormed (.i2cWr32Unmapped k o d)) :
    decodeI2cWrite k .word o d = .i2cWr32Unmapped k o d := by
  obtain ⟨hword, hoff⟩ := Bool.and_eq_true_iff.1 h
  rw [decodeI2cWrite, oddTwoWord_of_word hword, (I2cReg.ofOffset_eq_unmapped_iff o).2 hoff]
  rfl

end

/-! ### Events (R143, R260) -/

/-- The offset field of a request event (R143, R260). -/
def eventOffset (x : StreamId) (v : Bool) : Offset := BitVec.ofNat 10 (8 * v.toNat + x.val)

theorem eventLine_val (o : Offset) : (eventLine o).val = o.toNat % 8 := by
  simp [eventLine]

theorem eventLevel_toNat (o : Offset) : (eventLevel o).toNat = o.toNat / 8 % 2 := by
  rw [eventLevel, BitVec.getLsbD, Nat.toNat_testBit]

theorem eventOffset_toNat (x : StreamId) (v : Bool) : (eventOffset x v).toNat = 8 * v.toNat + x.val := by
  revert x v
  decide

theorem isRequestOffset_iff (o : Offset) : o.extractLsb' 4 6 = 0#6 ↔ o.toNat < 16 := by
  rw [← BitVec.toNat_inj, BitVec.extractLsb'_toNat, Nat.shiftRight_eq_div_pow]
  have := o.isLt
  simp only [BitVec.toNat_ofNat]
  omega

theorem reqDescriptor_toNat (x : StreamId) (v : Bool) : (reqDescriptor x v).toNat = 0x1800 + 8 * v.toNat + x.val := by
  revert x v
  decide

theorem reqDescriptor_eq_descriptor (x : StreamId) (v : Bool) :
    reqDescriptor x v = descriptor .dma none false (eventOffset x v) := by
  refine BitVec.eq_of_toNat_eq ?_
  rw [reqDescriptor_toNat, descriptor_toNat, eventOffset_toNat, Nat.add_assoc]
  rfl

theorem eventOffset_of_fields {o : Offset} (ho : o.toNat < 16) : eventOffset (eventLine o) (eventLevel o) = o := by
  refine BitVec.eq_of_toNat_eq ?_
  rw [eventOffset_toNat, eventLine_val, eventLevel_toNat]
  omega

theorem eventLine_eventOffset (x : StreamId) (v : Bool) : eventLine (eventOffset x v) = x := by
  refine Fin.ext ?_
  rw [eventLine_val, eventOffset_toNat]
  omega

theorem eventLevel_eventOffset (x : StreamId) (v : Bool) : eventLevel (eventOffset x v) = v := by
  have hv := v.toNat_lt
  refine bool_toNat_injective ?_
  rw [eventLevel_toNat, eventOffset_toNat]
  omega

/-- Which offsets are events of a block (R143): request events of a DMA, sync and reset of both. -/
def IsEventOffset (b : Block) (o : Offset) : Prop := (b = .dma ∧ o.toNat < 16) ∨ o = 0x10#10 ∨ o = 0x20#10

theorem decodeEvent_request (k : Nat) {o : Offset} (ho : o.toNat < 16) :
    decodeEvent k .dma o = .ok (.dmaReq k (eventLine o) (eventLevel o)) :=
  if_pos ((isRequestOffset_iff o).2 ho)

theorem decodeEvent_reserved_iff (k : Nat) (b : Block) (o : Offset) :
    decodeEvent k b o = .error .reservedDescriptor ↔ ¬IsEventOffset b o := by
  cases b <;> simp only [decodeEvent, isRequestOffset_iff, IsEventOffset] <;> split_ifs <;> simp [*]

theorem decode_encode_dmaReq (k : Nat) (x : StreamId) (v : Bool) :
    decode (encode (.dmaReq k x v)) = .ok (.dmaReq k x v) := by
  have hlt : (eventOffset x v).toNat < 16 := by
    have hv := v.toNat_lt
    rw [eventOffset_toNat]
    omega
  calc decode (encode (.dmaReq k x v))
      = decode ⟨k, descriptor .dma none false (eventOffset x v), 0⟩ := by rw [encode, reqDescriptor_eq_descriptor]
    _ = decodeEvent k .dma (eventOffset x v) := decode_descriptor ..
    _ = .ok (.dmaReq k x v) := by rw [decodeEvent_request k hlt, eventLine_eventOffset, eventLevel_eventOffset]

/-- Settles O1, by cases on the operation: a row with a full mask is read back by evaluation, a row with an offset by the
fields of its descriptor and the offsets that its row admits. -/
theorem decodeOfEncodeIsIdentity : Obligations.DecodeOfEncodeIsIdentity := by
  intro i hwf
  cases i with
  | dmaRd32Unmapped k o => exact (decode_dmaRead k .word o 0).trans (congrArg _ (decodeDmaRead_unmapped hwf))
  | dmaWr32Unmapped k o d => exact (decode_dmaWrite k .word o d).trans (congrArg _ (decodeDmaWrite_unmapped hwf))
  | dmaRd8 k o => exact decode_dmaRead k .byte o 0
  | dmaWr8 k o d => exact decode_dmaWrite k .byte o d
  | dmaRd16 k o => exact (decode_dmaRead k .half o 0).trans (congrArg _ (ite_of_not hwf ..))
  | dmaWr16 k o d => exact (decode_dmaWrite k .half o d).trans (congrArg _ (ite_of_not hwf ..))
  | dmaRd32MisalignedOdd k o => exact (decode_dmaRead k .word o 0).trans (congrArg _ (if_pos hwf))
  | dmaRd32Misaligned2 k o => exact (decode_dmaRead k .word o 0).trans (congrArg _ (oddTwoWord_of_two hwf ..))
  | dmaRd16Misaligned k o => exact (decode_dmaRead k .half o 0).trans (congrArg _ (if_pos hwf))
  | dmaWr32MisalignedOdd k o d => exact (decode_dmaWrite k .word o d).trans (congrArg _ (if_pos hwf))
  | dmaWr32Misaligned2 k o d => exact (decode_dmaWrite k .word o d).trans (congrArg _ (oddTwoWord_of_two hwf ..))
  | dmaWr16Misaligned k o d => exact (decode_dmaWrite k .half o d).trans (congrArg _ (if_pos hwf))
  | dmaReq k x v => exact decode_encode_dmaReq k x v
  | i2cRd32Unmapped j o => exact (decode_i2cRead j .word o 0).trans (congrArg _ (decodeI2cRead_unmapped hwf))
  | i2cWr32Unmapped j o d => exact (decode_i2cWrite j .word o d).trans (congrArg _ (decodeI2cWrite_unmapped hwf))
  | i2cRd8 j o => exact decode_i2cRead j .byte o 0
  | i2cRd16 j o => exact (decode_i2cRead j .half o 0).trans (congrArg _ (ite_of_not hwf ..))
  | i2cWr8Aligned j o d => exact (decode_i2cWrite j .byte o d).trans (congrArg _ (if_pos hwf))
  | i2cWr8Unaligned j o d => exact (decode_i2cWrite j .byte o d).trans (congrArg _ (ite_of_not hwf ..))
  | i2cWr16Aligned j o d => exact (decode_i2cWrite j .half o d).trans (congrArg _ (oddTwoWord_of_word hwf ..))
  | i2cWr16Unaligned j o d => exact (decode_i2cWrite j .half o d).trans (congrArg _ (oddTwoWord_of_two hwf ..))
  | i2cRd32MisalignedOdd j o => exact (decode_i2cRead j .word o 0).trans (congrArg _ (if_pos hwf))
  | i2cRd32Misaligned2 j o => exact (decode_i2cRead j .word o 0).trans (congrArg _ (oddTwoWord_of_two hwf ..))
  | i2cRd16Misaligned j o => exact (decode_i2cRead j .half o 0).trans (congrArg _ (if_pos hwf))
  | i2cWr32MisalignedOdd j o d => exact (decode_i2cWrite j .word o d).trans (congrArg _ (if_pos hwf))
  | i2cWr32Misaligned2 j o d => exact (decode_i2cWrite j .word o d).trans (congrArg _ (oddTwoWord_of_two hwf ..))
  | i2cWr16Misaligned j o d => exact (decode_i2cWrite j .half o d).trans (congrArg _ (if_pos hwf))
  | _ => exact (decode_of_lt _ _ (by decide)).trans rfl

/-! ### Encoding what was decoded -/

/-- `i` is a well-formed operation whose encoding has the given fields and the data operand `d` (R140, R141). -/
def EncodesTo (i : Instr) (k : Nat) (b : Block) (n : Option Width) (w : Bool) (o : Offset) (d : Word) : Prop :=
  WellFormed i ∧ encode i = ⟨k, descriptor b n w o, d⟩

theorem rdStream_encodesTo (k : Nat) (x : StreamId) (r : StreamReg) :
    EncodesTo (Instr.rdStream k x r) k .dma (some .word) false (streamOffset x r) 0 := by
  fin_cases x <;> cases r <;> exact ⟨rfl, rfl⟩

theorem wrStream_encodesTo (k : Nat) (x : StreamId) (r : StreamReg) (d : Word) :
    EncodesTo (Instr.wrStream k x r d) k .dma (some .word) true (streamOffset x r) d := by
  fin_cases x <;> cases r <;> exact ⟨rfl, rfl⟩

section
variable (k : Nat) (o : Offset) (d : Word)

theorem dmaRd32_encodesTo {r : DmaReg} (h : r = .unmapped → WellFormed (.dmaRd32Unmapped k o)) :
    EncodesTo (Instr.dmaRd32 k o r) k .dma (some .word) false (DmaReg.offset o r) 0 := by
  cases r with
  | stream x r => exact rdStream_encodesTo k x r
  | unmapped => exact ⟨h rfl, rfl⟩
  | _ => rw [DmaReg.offset]; exact ⟨rfl, rfl⟩

theorem dmaWr32_encodesTo {r : DmaReg} (h : r = .unmapped → WellFormed (.dmaWr32Unmapped k o d)) :
    EncodesTo (Instr.dmaWr32 k o d r) k .dma (some .word) true (DmaReg.offset o r) d := by
  cases r with
  | stream x r => exact wrStream_encodesTo k x r d
  | unmapped => exact ⟨h rfl, rfl⟩
  | _ => rw [DmaReg.offset]; exact ⟨rfl, rfl⟩

theorem i2cRd32_encodesTo {r : I2cReg} (h : r = .unmapped → WellFormed (.i2cRd32Unmapped k o)) :
    EncodesTo (Instr.i2cRd32 k o r) k .i2c (some .word) false (I2cReg.offset o r) 0 := by
  cases r with
  | unmapped => exact ⟨h rfl, rfl⟩
  | _ => rw [I2cReg.offset]; exact ⟨rfl, rfl⟩

theorem i2cWr32_encodesTo {r : I2cReg} (h : r = .unmapped → WellFormed (.i2cWr32Unmapped k o d)) :
    EncodesTo (Instr.i2cWr32 k o d r) k .i2c (some .word) true (I2cReg.offset o r) d := by
  cases r with
  | unmapped => exact ⟨h rfl, rfl⟩
  | _ => rw [I2cReg.offset]; exact ⟨rfl, rfl⟩

variable {o}

/-- The check of both 32-bit rows for an unmapped offset of the DMA window (R144). -/
theorem dmaUnmapped_check (ho : o.isWord = true) (hr : DmaReg.ofOffset o = .unmapped) :
    (o.isWord && decide (0xD0 ≤ o.toNat)) = true :=
  Bool.and_eq_true_iff.2 ⟨ho, decide_eq_true ((DmaReg.ofOffset_eq_unmapped_iff ho).1 hr)⟩

/-- The check of both 32-bit rows for an unmapped offset of the I²C window (R144). -/
theorem i2cUnmapped_check (ho : o.isWord = true) (hr : I2cReg.ofOffset o = .unmapped) :
    (o.isWord && !o.isI2cReg) = true :=
  Bool.and_eq_true_iff.2 ⟨ho, (I2cReg.ofOffset_eq_unmapped_iff o).1 hr⟩

variable (n : Width) (o)

theorem decodeDmaRead_encodesTo : EncodesTo (decodeDmaRead k n o) k .dma (some n) false o 0 := by
  cases n <;> dsimp only [decodeDmaRead]
  case byte => exact ⟨rfl, rfl⟩
  case half =>
    split_ifs with hodd
    · exact ⟨hodd, rfl⟩
    · exact ⟨Bool.not_iff_not.2 hodd, rfl⟩
  case word =>
    split_ifs with hodd htwo
    · exact ⟨hodd, rfl⟩
    · exact ⟨htwo, rfl⟩
    · have h := dmaRd32_encodesTo k o (dmaUnmapped_check (isWord_of_not_odd_two hodd htwo))
      rwa [DmaReg.offset_ofOffset] at h

theorem decodeDmaWrite_encodesTo : EncodesTo (decodeDmaWrite k n o d) k .dma (some n) true o d := by
  cases n <;> dsimp only [decodeDmaWrite]
  case byte => exact ⟨rfl, rfl⟩
  case half =>
    split_ifs with hodd
    · exact ⟨hodd, rfl⟩
    · exact ⟨Bool.not_iff_not.2 hodd, rfl⟩
  case word =>
    split_ifs with hodd htwo
    · exact ⟨hodd, rfl⟩
    · exact ⟨htwo, rfl⟩
    · have h := dmaWr32_encodesTo k o d (dmaUnmapped_check (isWord_of_not_odd_two hodd htwo))
      rwa [DmaReg.offset_ofOffset] at h

theorem decodeI2cRead_encodesTo : EncodesTo (decodeI2cRead k n o) k .i2c (some n) false o 0 := by
  cases n <;> dsimp only [decodeI2cRead]
  case byte => exact ⟨rfl, rfl⟩
  case half =>
    split_ifs with hodd
    · exact ⟨hodd, rfl⟩
    · exact ⟨Bool.not_iff_not.2 hodd, rfl⟩
  case word =>
    split_ifs with hodd htwo
    · exact ⟨hodd, rfl⟩
    · exact ⟨htwo, rfl⟩
    · have h := i2cRd32_encodesTo k o (i2cUnmapped_check (isWord_of_not_odd_two hodd htwo))
      rwa [I2cReg.offset_ofOffset] at h

theorem decodeI2cWrite_encodesTo : EncodesTo (decodeI2cWrite k n o d) k .i2c (some n) true o d := by
  cases n <;> dsimp only [decodeI2cWrite]
  case byte =>
    split_ifs with hword
    · exact ⟨hword, rfl⟩
    · exact ⟨Bool.not_iff_not.2 hword, rfl⟩
  case half =>
    split_ifs with hodd htwo
    · exact ⟨hodd, rfl⟩
    · exact ⟨htwo, rfl⟩
    · exact ⟨isWord_of_not_odd_two hodd htwo, rfl⟩
  case word =>
    split_ifs with hodd htwo
    · exact ⟨hodd, rfl⟩
    · exact ⟨htwo, rfl⟩
    · have h := i2cWr32_encodesTo k o d (i2cUnmapped_check (isWord_of_not_odd_two hodd htwo))
      rwa [I2cReg.offset_ofOffset] at h

variable {k o}

theorem decodeEvent_encodesTo {b : Block} {i : Instr} (h : decodeEvent k b o = .ok i) :
    EncodesTo i k b none false o 0 := by
  cases b with
  | dma =>
    dsimp only [decodeEvent] at h
    split_ifs at h with hreq hsync hreset <;> obtain rfl := Except.ok.inj h
    · refine ⟨rfl, ?_⟩
      rw [encode, reqDescriptor_eq_descriptor, eventOffset_of_fields ((isRequestOffset_iff o).1 hreq)]
    · exact hsync ▸ ⟨rfl, rfl⟩
    · exact hreset ▸ ⟨rfl, rfl⟩
  | i2c =>
    dsimp only [decodeEvent] at h
    split_ifs at h with hsync hreset <;> obtain rfl := Except.ok.inj h
    · exact hsync ▸ ⟨rfl, rfl⟩
    · exact hreset ▸ ⟨rfl, rfl⟩

/-- What fields decode to encodes to these fields, with the data operand that a write carries (R141). -/
theorem decodeFields_encodesTo {b : Block} {n : Option Width} {w : Bool} {i : Instr}
    (h : decodeFields k (some b) n w o d = .ok i) : EncodesTo i k b n w o (if w then d else 0) := by
  cases n with
  | none =>
    cases w with
    | false => exact decodeEvent_encodesTo h
    | true => cases h
  | some n =>
    cases b <;> cases w <;> obtain rfl := Except.ok.inj h
    · exact decodeDmaRead_encodesTo ..
    · exact decodeDmaWrite_encodesTo ..
    · exact decodeI2cRead_encodesTo ..
    · exact decodeI2cWrite_encodesTo ..

end

/-- Settles O2: the descriptor is made of its fields, and what fields decode to encodes to their descriptor. -/
theorem encodeOfDecodeIsDescriptor : Obligations.EncodeOfDecodeIsDescriptor := by
  rintro ⟨k, t, d⟩ i h
  obtain ⟨hrejected, -⟩ | ⟨b, n, w, o, rfl⟩ := decode_cases k d t
  · rw [hrejected] at h
    cases h
  · rw [decode_descriptor] at h
    obtain ⟨hwf, hencode⟩ := decodeFields_encodesTo d h
    refine ⟨hwf, ?_⟩
    have hwrite : (descriptor b n w o).getLsbD 10 = w := writeField_descriptor b n w o
    rw [hencode, hwrite]

/-! ### Reserved descriptors (R142, R143) -/

/-- Fields of a transaction are never rejected; those of an event exactly if its offset is no event or it is a write. -/
theorem decodeFields_reserved_iff (k : Nat) (b : Block) (n : Option Width) (w : Bool) (o : Offset) (d : Word) :
    decodeFields k (some b) n w o d = .error .reservedDescriptor ↔ n = none ∧ (w = true ∨ ¬IsEventOffset b o) := by
  cases n with
  | none =>
    cases w with
    | false => simpa [decodeFields] using decodeEvent_reserved_iff k b o
    | true => simp [decodeFields]
  | some n => cases b <;> cases w <;> simp [decodeFields]

/-- The events of R143 by the values of their descriptors. -/
theorem isEventOffset_iff (b : Block) (o : Offset) :
    IsEventOffset b o ↔
      (0x1800 ≤ (descriptor b none false o).toNat ∧ (descriptor b none false o).toNat ≤ 0x180F) ∨
        (descriptor b none false o).toNat ∈ [0x1810, 0x1820, 0x3810, 0x3820] := by
  have ho := o.isLt
  rw [IsEventOffset, descriptor_toNat, ← BitVec.toNat_inj, ← BitVec.toNat_inj]
  cases b <;> simp [blockCode, sizeCode] <;> omega

/-- Settles O3: a descriptor that is not made of fields is rejected for its high bits; one that is, exactly if it has the SZ of
an event and is none that R143 names. -/
theorem rejectedDescriptorsAreTheReserved : Obligations.RejectedDescriptorsAreTheReserved := by
  rintro ⟨k, t, d⟩
  obtain ⟨hrejected, hhigh⟩ | ⟨b, n, w, o, rfl⟩ := decode_cases k d t
  · exact iff_of_true hrejected (hhigh.imp id .inl)
  · have hlow : ¬2 ^ 15 ≤ (descriptor b n w o).toNat := Nat.not_le.2 (descriptor_lt b n w o)
    have hblk : ¬2 ≤ (descriptor b n w o).toNat / 2 ^ 13 % 4 := fun h => by
      have := (blockField_eq_none_iff _).2 h
      simp at this
    have hsz : (descriptor b n w o).toNat / 2 ^ 11 % 4 = 3 ↔ n = none := by
      rw [← sizeCode_sizeField, sizeField_descriptor]
      exact sizeCode_injective.eq_iff (b := none)
    simp only [decode_descriptor, decodeFields_reserved_iff, hlow, hblk, hsz, false_or]
    refine and_congr_right ?_
    rintro rfl
    cases w with
    | false => rw [← not_or, ← isEventOffset_iff]; simp
    | true =>
      have hval := descriptor_toNat b none true o
      have hbounds := field_bounds b none true o
      simp only [sizeCode, Bool.toNat_true] at hval
      refine iff_of_true (.inl rfl) ⟨by omega, ?_⟩
      simp only [List.mem_cons, List.not_mem_nil, or_false]
      omega

/-! ### The worked encodings (R152) -/

/-- Settles O4: each word is below bit 15, and its fields name the operation. -/
theorem workedEncodingsDecode : Obligations.WorkedEncodingsDecode := by
  intro v
  refine ⟨?_, ?_, ?_, ?_, ?_, ?_, ?_, ?_, ?_, ?_, ?_, ?_, ?_⟩ <;> exact (decode_of_lt 0 v (by decide)).trans rfl

/-! ### Absent instances (R140, R68) -/

theorem onDma_none {s : State} {k : Nat} (hk : s.dmas[k]? = none) (f : Dma → Host.Outcome State Fault Refusal) :
    onDma k s f = .refused .noSuchInstance := by
  rw [onDma, hk]

theorem onI2c_none {s : State} {j : Nat} (hj : s.i2cs[j]? = none) (f : I2c → Host.Outcome State Fault Refusal) :
    onI2c j s f = .refused .noSuchInstance := by
  rw [onI2c, hj]

section
variable {s : State} {k : Nat} {n : Width} {o : Offset}

theorem dmaReadAt_absent (hk : s.dmas[k]? = none) (ha : aligned n o = true) :
    dmaReadAt k n o s = .refused .noSuchInstance := by
  rw [dmaReadAt, if_pos ha, onDma_none hk]

theorem dmaWriteAt_absent (hk : s.dmas[k]? = none) (ha : aligned n o = true) (v : Word) :
    dmaWriteAt k n o v s = .refused .noSuchInstance := by
  rw [dmaWriteAt, if_pos ha, onDma_none hk]

theorem i2cReadAt_absent (hk : s.i2cs[k]? = none) (ha : aligned n o = true) :
    i2cReadAt k n o s = .refused .noSuchInstance := by
  rw [i2cReadAt, if_pos ha, onI2c_none hk]

theorem i2cWriteBus_absent (hk : s.i2cs[k]? = none) (ha : aligned n o = true) (v : Word) :
    i2cWriteBus k n o v s = .refused .noSuchInstance := by
  rw [i2cWriteBus, if_pos ha, onI2c_none hk]

end

theorem aligned_half_of_word {o : Offset} (h : o.isWord = true) : aligned .half o = true := by
  rw [isWord_iff] at h
  rw [aligned_half_iff]
  omega

theorem aligned_half_of_two {o : Offset} (h : o.isTwo = true) : aligned .half o = true := by
  rw [isTwo_iff] at h
  rw [aligned_half_iff]
  omega

/-- Settles O29: the offsets that a row admits are aligned, so each operation looks the controller up and finds none. -/
theorem absentInstancesAreRefused : Obligations.AbsentInstancesAreRefused := by
  intro s k o x v b
  refine ⟨fun hk => ⟨fun r => ⟨?_, ?_⟩, fun i hi hwf => ?_, ?_⟩, fun hk => ⟨fun r => ⟨?_, ?_⟩, fun i hi hwf => ?_⟩⟩
  · rw [exec_dmaRd32]
    exact onDma_none hk _
  · rw [exec_dmaWr32]
    exact onDma_none hk _
  · simp only [List.mem_cons, List.not_mem_nil, or_false] at hi
    obtain rfl | rfl | rfl | rfl | rfl | rfl := hi
    · exact dmaReadAt_absent hk (aligned_byte o)
    · exact dmaWriteAt_absent hk (aligned_byte o) v
    · exact dmaReadAt_absent hk (aligned_half_of_not_odd hwf)
    · exact dmaWriteAt_absent hk (aligned_half_of_not_odd hwf) v
    · exact onDma_none hk _
    · exact onDma_none hk _
  · calc exec (.dmaReq k x b) s = dmaRequest k x b s := rfl
      _ = .refused (if s.wired k x then .reservedDescriptor else .noSuchInstance) := by
        rw [dmaRequest, onDma_none hk]
        split_ifs <;> rfl
  · rw [exec_i2cRd32]
    exact onI2c_none hk _
  · rw [exec_i2cWr32]
    exact onI2c_none hk _
  · simp only [List.mem_cons, List.not_mem_nil, or_false] at hi
    obtain rfl | rfl | rfl | rfl | rfl | rfl | rfl | rfl := hi
    · exact i2cReadAt_absent hk (aligned_byte o)
    · exact i2cReadAt_absent hk (aligned_half_of_not_odd hwf)
    · exact i2cWriteBus_absent hk (aligned_byte o) v
    · exact i2cWriteBus_absent hk (aligned_byte o) v
    · exact i2cWriteBus_absent hk (aligned_half_of_word hwf) v
    · exact i2cWriteBus_absent hk (aligned_half_of_two hwf) v
    · exact onI2c_none hk _
    · exact onI2c_none hk _

end Sys2Proof.Machine
end

