-- ==== Sys2Proof/Proofs/DmaInterrupt.lean ====
section
/-! The status and clear registers of the DMA window (R200–R210): the bits that a status register shows, what a clear register
clears, and the registers that only hold a word, read 0 or ignore writes. -/

namespace Sys2Proof.Machine

/-! ### 32-bit accesses of the DMA window -/

/-- A 32-bit write that raises no line event ends with the state that it wrote. -/
theorem exec_dmaWr32_next {s t : State} {k : Nat} {o : Offset} {v : Word} {r : DmaReg} {d : Dma}
    (hd : s.dmas[k]? = some d) (hwrite : dmaWriteReg k r v ⟨s, []⟩ = .ok ⟨t, []⟩) :
    exec (Instr.dmaWr32 k o v r) s = .next t := by
  rw [exec_dmaWr32, dmaWrite32, onDma_some hd, hwrite, settle_nil]

theorem streamDescriptor_eq (x : StreamId) (r : StreamReg) :
    BitVec.ofNat 32 (0x1000 + 0x10 + 0x18 * x.val + r.sub) =
      descriptor .dma (some .word) false (streamOffset x r) := by
  revert x
  cases r <;> decide

/-- The descriptor of the 32-bit read at a stream register is decoded as that row, whatever the data operand (R39, R141). -/
theorem decode_rdStream (k : Nat) (x : StreamId) (r : StreamReg) (v : Word) :
    decode ⟨k, BitVec.ofNat 32 (0x1000 + 0x10 + 0x18 * x.val + r.sub), v⟩ = .ok (Instr.rdStream k x r) := by
  obtain ⟨hwf, hencode⟩ := rdStream_encodesTo k x r
  calc decode ⟨k, BitVec.ofNat 32 (0x1000 + 0x10 + 0x18 * x.val + r.sub), v⟩
      = .ok (decodeDmaRead k .word (streamOffset x r)) := by rw [streamDescriptor_eq, decode_dmaRead]
    _ = decode (encode (Instr.rdStream k x r)) := by rw [hencode, decode_dmaRead]
    _ = .ok (Instr.rdStream k x r) := decodeOfEncodeIsIdentity _ hwf

/-! ### The status registers (R200, R201) -/

theorem bitAt_bit (b : Bool) (p : Nat) {i : Nat} (hi : i < 32) : (bitAt b p).getLsbD i = (i == p && b) := by
  cases b
  · simp [bitAt]
  · rw [bitAt, if_pos rfl, Bool.and_true, ← BitVec.twoPow_eq, BitVec.getLsbD_twoPow, Bool.eq_iff_iff]
    simp
    omega

/-- The bits of a status register that shows four finished bits (R40, R41). -/
theorem statusWord_bit (b₀ b₁ b₂ b₃ : Bool) {i : Nat} (hi : i < 32) :
    (bitAt b₀ 5 ||| bitAt b₁ 11 ||| bitAt b₂ 21 ||| bitAt b₃ 27).getLsbD i =
      ((i == 5 && b₀) || (i == 11 && b₁) || (i == 21 && b₂) || (i == 27 && b₃)) := by
  simp only [BitVec.getLsbD_or, bitAt_bit _ _ hi]

/-- Settles O7: a read only adds the register's value, and that is the OR of the four finished bits at their positions. -/
theorem statusRegistersShowFinishedBits : Obligations.StatusRegistersShowFinishedBits := by
  intro s k d v hd
  exact ⟨decode_dmaRead k .word 0x000 v, decode_dmaRead k .word 0x004 v, d.lisrValue, d.hisrValue,
    exec_dmaRd32_next (o := 0) .lisr hd, exec_dmaRd32_next (o := 0) .hisr hd,
    fun _ hp => ⟨statusWord_bit _ _ _ _ hp, statusWord_bit _ _ _ _ hp⟩⟩

/-! ### The clear registers (R202, R203, R208) -/

/-- `d'` is `d` with the finished bits and IRQ outputs of the streams in `p` cleared, and nothing else changed. -/
structure Dma.Clears (p : StreamId → Bool) (d d' : Dma) : Prop where
  site : d'.site = d.site
  streams : d'.streams = d.streams
  dq : d'.dq = d.dq
  fin : ∀ x : StreamId, d'.fin[x] = (d.fin[x] && !p x)
  irq : ∀ x : StreamId, d'.irq[x] = (d.irq[x] && !p x)

theorem Dma.Clears.trans {p q : StreamId → Bool} {d d' d'' : Dma} (h : d.Clears p d') (h' : d'.Clears q d'') :
    d.Clears (fun x => p x || q x) d'' where
  site := h'.site.trans h.site
  streams := h'.streams.trans h.streams
  dq := h'.dq.trans h.dq
  fin x := by rw [h'.fin, h.fin, Bool.not_or, Bool.and_assoc]
  irq x := by rw [h'.irq, h.irq, Bool.not_or, Bool.and_assoc]

theorem Dma.Clears.congr {p q : StreamId → Bool} {d d' : Dma} (h : d.Clears p d') (hpq : ∀ x, p x = q x) :
    d.Clears q d' :=
  funext hpq ▸ h

theorem vector_set_false (l : Vector Bool 8) (x y : StreamId) : (l.set x false)[y] = (l[y] && !(x == y)) := by
  by_cases hxy : x = y
  · simp [hxy]
  · have hne : x.val ≠ y.val := fun e => hxy (Fin.ext e)
    simp [hxy, Vector.getElem_set_ne, hne]

/-- One step of a clear write clears its stream if the written word has a 1 at the stream's position (R208). -/
theorem Dma.clears_clearIf (v : Word) (x : StreamId) (d : Dma) :
    d.Clears (fun y => x == y && v.getLsbD (finPosition x)) (d.clearIf v x) := by
  rw [Dma.clearIf]
  split_ifs with hbit
  · simp only [hbit, Bool.and_true]
    exact ⟨rfl, rfl, rfl, vector_set_false d.fin x, vector_set_false d.irq x⟩
  · exact ⟨rfl, rfl, rfl, by simp [hbit], by simp [hbit]⟩

/-- The four steps of LIFCR together: streams 0 to 3 (R202). -/
theorem Dma.clears_writeLifcr (v : Word) (d : Dma) :
    d.Clears (fun x => decide (x.val < 4) && v.getLsbD ([5, 11, 21, 27].getD x.val 0)) (d.writeLifcr v) := by
  refine ((((clears_clearIf v 0 d).trans (clears_clearIf v 1 _)).trans (clears_clearIf v 2 _)).trans
    (clears_clearIf v 3 _)).congr fun x => ?_
  fin_cases x <;> simp [finPosition]

/-- The four steps of HIFCR together: streams 4 to 7 (R203). -/
theorem Dma.clears_writeHifcr (v : Word) (d : Dma) :
    d.Clears (fun x => decide (4 ≤ x.val) && v.getLsbD ([5, 11, 21, 27].getD (x.val - 4) 0)) (d.writeHifcr v) := by
  refine ((((clears_clearIf v 4 d).trans (clears_clearIf v 5 _)).trans (clears_clearIf v 6 _)).trans
    (clears_clearIf v 7 _)).congr fun x => ?_
  fin_cases x <;> simp [finPosition]

/-- Settles O8: a clear write stores the controller with the addressed streams cleared. -/
theorem clearRegistersClearFinishedAndIrq : Obligations.ClearRegistersClearFinishedAndIrq := by
  intro s k d v hd
  have hlo := d.clears_writeLifcr v
  have hhi := d.clears_writeHifcr v
  refine ⟨decode_dmaWrite k .word 0x008 v, decode_dmaWrite k .word 0x00C v, d.writeLifcr v, d.writeHifcr v, ?_, ?_,
    hlo.site, hlo.streams, hlo.dq, hhi.site, hhi.streams, hhi.dq,
    fun x => ⟨hlo.fin x, hlo.irq x, hhi.fin x, hhi.irq x⟩⟩
  · rw [← State.modDma_eq (Dma.writeLifcr v) hd]
    exact exec_dmaWr32_next (o := 0) (r := .lifcr) hd rfl
  · rw [← State.modDma_eq (Dma.writeHifcr v) hd]
    exact exec_dmaWr32_next (o := 0) (r := .hifcr) hd rfl

/-! ### The other registers (R204–R207, R209, R210, R230, R232) -/

/-- Settles O9: each read adds the register's value, and each ignored write leaves the state. -/
theorem auxiliaryDmaRegistersHoldOrIgnore : Obligations.AuxiliaryDmaRegistersHoldOrIgnore := by
  intro s k d x o v hd
  have hread (r : DmaReg) := exec_dmaRd32_next (o := o) r hd
  have hignored (r : DmaReg) (h : dmaWriteReg k r v ⟨s, []⟩ = .ok ⟨s, []⟩) := exec_dmaWr32_next (o := o) hd h
  exact ⟨fun r _ => decode_rdStream k x r v, hread (.stream x .m1ar), hread (.stream x .fcr), hread .lifcr, hread .hifcr,
    hread .unmapped, hignored .lisr rfl, hignored .hisr rfl, hignored .unmapped rfl⟩

end Sys2Proof.Machine
end

