-- ==== Sys2Proof/Proofs/Burst.lean ====
section
/-! Item copies and whole bursts over the system bus (R112, R264, R266, R267): what `n` items leave of the bus, and what a
finished burst leaves of its controller. -/

namespace Sys2Proof.Machine

/-! ### Item copies (R266) -/

theorem Bus.afterItems_zero (k : Nat) (m : Stream) (b : Bus) : b.afterItems k m 0 = b := by
  simp [Bus.afterItems, Bus.drawMany, itemLog]

/-- The bus after one item more: item `n` moves the next answer. -/
theorem Bus.afterItems_succ (k : Nat) (m : Stream) (n : Nat) (b : Bus) :
    b.afterItems k m (n + 1) = { (b.afterItems k m n).draw.2 with
      log := (b.afterItems k m n).log ++
        [.read k (srcAddr m n) (copyWidth m) (clip (copyWidth m) (b.afterItems k m n).draw.1),
          .write k (dstAddr m n) (copyWidth m) (clip (copyWidth m) (b.afterItems k m n).draw.1)] } := by
  simp [Bus.afterItems, Bus.drawMany_succ, Bus.draw_withLog, itemLog, List.mapIdx_append, Bus.drawMany_length]

/-- The last of `count + 1` items is copied after the others. -/
theorem copyItems_succ (k : Nat) (m : Stream) (count i : Nat) (w : Work) :
    copyItems k m (count + 1) i w =
      (copyItems k m count i w).bind
        (copyItem k (srcAddr m (i + count)) (dstAddr m (i + count)) (copyWidth m)) := by
  induction count generalizing i w with
  | zero => cases h : copyItem k (srcAddr m i) (dstAddr m i) (copyWidth m) w <;> simp [copyItems, Except.bind, h]
  | succ count ih =>
    rw [copyItems, copyItems]
    cases copyItem k (srcAddr m i) (dstAddr m i) (copyWidth m) w with
    | error r => rfl
    | ok w' => exact (ih (i + 1) w').trans (by rw [Nat.succ_add_eq_add_succ])

/-- Items whose accesses all go to the system bus change the bus alone. -/
theorem copyItems_bus {k : Nat} {m : Stream} {n : Nat} {w : Work}
    (h : ∀ i, i < n → w.st.route (srcAddr m i) (copyWidth m) = .bus ∧ w.st.route (dstAddr m i) (copyWidth m) = .bus) :
    copyItems k m n 0 w = .ok { w with st := { w.st with bus := w.st.bus.afterItems k m n } } := by
  induction n with
  | zero => rw [Bus.afterItems_zero]; rfl
  | succ n ih =>
    have hroute : State.route { w.st with bus := w.st.bus.afterItems k m n } = w.st.route := State.route_congr rfl rfl
    obtain ⟨hsrc, hdst⟩ := h n n.lt_succ_self
    rw [copyItems_succ, ih fun i hi => h i (Nat.lt_succ_of_lt hi), Nat.zero_add, Bus.afterItems_succ]
    exact copyItem_bus (by rw [hroute, hsrc]) (by rw [hroute, hdst])

/-! ### Bursts (R264, R267) -/

/-- The end of the last item of an enabled stream: EN stays exactly if CIRC, and NDT is reloaded or 0 (R264, R265). -/
theorem Stream.reload_of_enabled {m : Stream} (hen : m.en = true) :
    (if m.circ then { m with ndt := m.latch } else { m with ndt := 0, en := false }) =
      { m with ndt := if m.circ then m.latch else 0, en := m.circ } := by
  cases hcirc : m.circ <;> simp [hen]

/-- What the end of a burst leaves of its controller, when its enabled stream stood as `m` at dispatch (R264, R267). -/
def Dma.burstEnded (x : StreamId) (m : Stream) (d : Dma) : Dma :=
  { d with
    streams := d.streams.set x { m with ndt := if m.circ then m.latch else 0, en := m.circ }
    fin := d.fin.set x true
    dq := if m.tcie then d.dq ++ [x] else d.dq }

theorem Dma.finishBurst_stored {m : Stream} (hen : m.en = true) (x : StreamId) (d : Dma) :
    (d.modStream x fun _ => m).finishBurst x = d.burstEnded x m := by
  rw [Dma.finishBurst, Dma.complete, Dma.modStream_self, Dma.modStream, Dma.modStream_self, Stream.reload_of_enabled hen,
    Dma.modStream, Vector.set_set]
  rfl

/-- A dispatched M→M stream with items to move, all over the system bus, runs its whole burst. -/
theorem selectTransfer_burst {k : Nat} {x : StreamId} {m : Stream} {w : Work} (hdir : m.dir = 2#2) (hndt : m.ndt ≠ 0)
    (h : ∀ i, i < m.ndt.toNat →
      w.st.route (srcAddr m i) (copyWidth m) = .bus ∧ w.st.route (dstAddr m i) (copyWidth m) = .bus) :
    selectTransfer k x m w = .ok
      (Work.modDma k (Dma.finishBurst x) { w with st := { w.st with bus := w.st.bus.afterItems k m m.ndt.toNat } }) := by
  rw [selectTransfer, if_neg (by rw [hdir]; decide), if_pos hdir, doMemoryTransfer, if_neg hndt, copyItems_bus h]

/-- A stream stored enabled and dispatched at once as an M→M burst over the system bus: only the bus and its controller
change. -/
theorem selectTransfer_stored_burst {s : State} {k : Nat} {x : StreamId} {d : Dma} {m : Stream}
    (hd : s.dmas[k]? = some d) (hen : m.en = true) (hdir : m.dir = 2#2) (hndt : m.ndt ≠ 0)
    (h : ∀ i, i < m.ndt.toNat →
      s.route (srcAddr m i) (copyWidth m) = .bus ∧ s.route (dstAddr m i) (copyWidth m) = .bus) :
    selectTransfer k x m ⟨s.modDma k fun d => d.modStream x fun _ => m, []⟩ = .ok ⟨{ s with
      bus := s.bus.afterItems k m m.ndt.toNat
      dmas := s.dmas.set k (d.burstEnded x m) }, []⟩ := by
  have hroute : (s.modDma k fun d => d.modStream x fun _ => m).route = s.route :=
    State.route_congr (map_site_modify (Dma.modStream_site x _) k s.dmas) rfl
  rw [selectTransfer_burst hdir hndt (by rwa [hroute]), ← Dma.finishBurst_stored hen, Work.modDma, State.modDma,
    State.modDma_bus, State.modDma_dmas, List.modify_modify_eq, modify_eq_set _ hd]
  rfl

end Sys2Proof.Machine
end

