-- ==== Sys2Proof/Proofs/DmaStream.lean ====
section
/-! The stream registers of the DMA window (R220–R233): what their reads show, which writes are stored, and what the enable
edge of a CR write does. -/

namespace Sys2Proof.Machine

/-! ### Decoding and execution of the stream register rows -/

/-- The operation that encodes to a descriptor is decoded from it (R140, R141). -/
theorem EncodesTo.decode {i : Instr} {k : Nat} {b : Block} {n : Option Width} {w : Bool} {o : Offset} {d : Word}
    (h : EncodesTo i k b n w o d) : decode ⟨k, descriptor b n w o, d⟩ = .ok i := by
  obtain ⟨hwf, hencode⟩ := h
  rw [← hencode, decodeOfEncodeIsIdentity i hwf]

theorem streamWriteDescriptor_eq (x : StreamId) (r : StreamReg) :
    BitVec.ofNat 32 (0x1400 + 0x10 + 0x18 * x.val + r.sub) = descriptor .dma (some .word) true (streamOffset x r) := by
  revert x
  cases r <;> decide

/-- The descriptor of the 32-bit write at a stream register is decoded as that row (R39, R141). -/
theorem decode_wrStream (k : Nat) (x : StreamId) (r : StreamReg) (v : Word) :
    decode ⟨k, BitVec.ofNat 32 (0x1400 + 0x10 + 0x18 * x.val + r.sub), v⟩ = .ok (Instr.wrStream k x r v) := by
  rw [streamWriteDescriptor_eq, (wrStream_encodesTo k x r v).decode]

section
variable {s : State} {k : Nat} {d : Dma} {x : StreamId} {v : Word}

theorem exec_rdStream_next (x : StreamId) (r : StreamReg) (hd : s.dmas[k]? = some d) :
    exec (Instr.rdStream k x r) s = .next (s.addResult .word (d.streams[x].readReg r)) :=
  exec_dmaRd32_next (o := 0) (.stream x r) hd

/-- A stream register write whose work raises no line event ends with the state that the work leaves. -/
theorem exec_wrStream_next {t : State} {r : StreamReg} (hd : s.dmas[k]? = some d)
    (hwrite : dmaWriteReg k (.stream x r) v ⟨s, []⟩ = .ok ⟨t, []⟩) : exec (Instr.wrStream k x r v) s = .next t :=
  exec_dmaWr32_next (o := 0) (r := .stream x r) hd hwrite

end

/-! ### Reads (R220, R224, R226, R228) -/

/-- The bits of SxCR: each field at its position, 0 elsewhere (R44). -/
theorem Stream.crValue_bit (m : Stream) (i : Nat) :
    m.crValue.getLsbD i =
      if i < 1 then m.en else if i < 4 then false else if i < 5 then m.tcie else if i < 6 then false
      else if i < 8 then m.dir.getLsbD (i - 6) else if i < 9 then m.circ else if i < 10 then m.pinc
      else if i < 11 then m.minc else if i < 13 then m.psize.getLsbD (i - 11)
      else if i < 15 then m.msize.getLsbD (i - 13) else false := by
  rw [Stream.crValue]
  change BitVec.getLsbD (w := 17 + 2 + 2 + 1 + 1 + 1 + 2 + 1 + 1 + 3 + 1) _ i = _
  simp only [BitVec.getLsbD_append, BitVec.getLsbD_ofBool, BitVec.getLsbD_zero]
  by_cases hi : i < 15
  · interval_cases i <;> simp
  · simp (disch := omega) only [if_neg]

/-- A two-bit field of a word is known by its two bits. -/
theorem extract_two_eq {w : Word} {p : Nat} {q : BitVec 2} (h₀ : w.getLsbD p = q.getLsbD 0)
    (h₁ : w.getLsbD (p + 1) = q.getLsbD 1) : w.extractLsb' p 2 = q := by
  refine BitVec.eq_of_getLsbD_eq fun i hi => ?_
  rw [BitVec.getLsbD_extractLsb', decide_eq_true hi, Bool.true_and]
  interval_cases i
  · exact h₀
  · exact h₁

theorem Stream.crValue_zero (m : Stream) {p : Nat} (hp : p ∈ [1, 2, 3, 5] ∨ 15 ≤ p) : m.crValue.getLsbD p = false := by
  rw [Stream.crValue_bit]
  obtain hp | hp := hp
  · fin_cases hp <;> rfl
  · simp (disch := omega) only [if_neg]

/-- Settles O10: a read only adds the register's value, and the value of SxCR shows each field at its position. -/
theorem streamRegistersReadTheirFields : Obligations.StreamRegistersReadTheirFields := by
  intro s k d x w hd
  have hread (r : StreamReg) := exec_rdStream_next x r hd
  have hbit := d.streams[x].crValue_bit
  refine ⟨fun r _ => decode_rdStream k x r w, ⟨d.streams[x].crValue, hread .cr, ?_⟩, hread .ndtr, hread .par,
    hread .m0ar⟩
  exact ⟨hbit 0, hbit 4, extract_two_eq (hbit 6) (hbit 7), hbit 8, hbit 9, hbit 10, extract_two_eq (hbit 11) (hbit 12),
    extract_two_eq (hbit 13) (hbit 14), fun p hp => d.streams[x].crValue_zero hp⟩

/-! ### Writes of NDTR, PAR, M0AR, M1AR and FCR (R225, R227, R229, R231, R233) -/

section
variable {s : State} {k : Nat} {d : Dma} {x : StreamId} {v : Word} {m : Stream}

/-- A write of a register other than CR changes its stream alone, as `Stream.writeReg` says. -/
theorem exec_wrStream_writeReg {r : StreamReg} {m' : Stream} (hr : r ≠ .cr) (hd : s.dmas[k]? = some d)
    (hm : d.streams[x] = m) (hm' : m.writeReg r v = m') :
    exec (Instr.wrStream k x r v) s = .next { s with
      dmas := s.dmas.set k { d with streams := d.streams.set x m' } } := by
  subst hm hm'
  have hstore : dmaWriteReg k (.stream x r) v ⟨s, []⟩ =
      .ok ⟨s.modDma k fun d => d.modStream x (Stream.writeReg r v), []⟩ := by
    cases r with
    | cr => exact absurd rfl hr
    | ndtr | par | m0ar | m1ar | fcr => rfl
  rw [exec_wrStream_next hd hstore, State.modDma_eq _ hd, Dma.modStream]

theorem Stream.writeReg_enabled {r : StreamReg} (hr : r ≠ .fcr) (hen : m.en = true) : m.writeReg r v = m := by
  cases r with
  | cr => rfl
  | ndtr | par | m0ar | m1ar => exact if_pos hen
  | fcr => exact absurd rfl hr

end

/-- Settles O11: each write stores what `Stream.writeReg` makes of the stream. -/
theorem streamRegisterWritesRespectEnable : Obligations.StreamRegisterWritesRespectEnable := by
  intro s k d x v m hd hm
  have hwrite {r : StreamReg} {m' : Stream} (hr : r ≠ .cr) (hm' : m.writeReg r v = m') :=
    exec_wrStream_writeReg hr hd hm hm'
  refine ⟨fun r => decode_wrStream k x r v, fun hen r hr => ?_, fun hen => ?_, hwrite (by decide) rfl⟩
  · obtain ⟨hcr, hfcr⟩ : r ≠ .cr ∧ r ≠ .fcr := by revert r; decide
    rw [hwrite hcr (Stream.writeReg_enabled hfcr hen), ← hm]
    simp [set_self hd]
  · have hoff : ¬m.en = true := by rw [hen]; decide
    have hndt : m.writeReg .ndtr v = { m with ndt := v.extractLsb' 0 16 } := by
      rw [← BitVec.setWidth_eq_extractLsb' (by decide)]
      exact if_neg hoff
    exact ⟨hwrite (by decide) hndt, hwrite (by decide) (if_neg hoff), hwrite (by decide) (if_neg hoff),
      hwrite (by decide) (if_neg hoff)⟩

/-! ### The write of CR (R221–R223) -/

section
variable {k : Nat} {d : Dma} {x : StreamId} {v : Word} {m : Stream}

/-- What a write of SxCR makes of its stream before any burst: every field stored, and LATCH = NDT at a 0→1 edge of EN. -/
def Stream.writeCr (v : Word) (m : Stream) : Stream :=
  { m.storeCr v with latch := if m.en = false ∧ v.getLsbD 0 = true then m.ndt else m.latch }

theorem Stream.writeCr_of_edge (hen : m.en = false) (hv : v.getLsbD 0 = true) : m.writeCr v = (m.storeCr v).latchNdt := by
  rw [Stream.writeCr, if_pos ⟨hen, hv⟩]
  rfl

theorem Stream.writeCr_of_not_edge (h : ¬(m.en = false ∧ v.getLsbD 0 = true)) : m.writeCr v = m.storeCr v := by
  rw [Stream.writeCr, if_neg h]
  rfl

/-- A CR write that does not enable a ready M→M stream only stores. -/
theorem writeStreamCr_store {w : Work} (hd : w.st.dmas[k]? = some d) (hm : d.streams[x] = m)
    (h : ¬(m.en = false ∧ v.getLsbD 0 = true ∧ v.extractLsb' 6 2 = 2#2 ∧ m.req = true)) :
    writeStreamCr k x v w = .ok (w.modDma k fun d => d.modStream x fun _ => m.writeCr v) := by
  simp only [writeStreamCr, hd, hm]
  by_cases hedge : m.en = false ∧ v.getLsbD 0 = true
  · obtain ⟨hen, hv⟩ := hedge
    have hready : ¬((m.storeCr v).dir = 2#2 ∧ (m.storeCr v).req = true) := fun hready => h ⟨hen, hv, hready⟩
    rw [if_pos (by simp [hen, hv]), Stream.writeCr_of_edge hen hv]
    exact if_neg hready
  · rw [if_neg (by simpa using hedge), Stream.writeCr_of_not_edge hedge]

/-- A CR write that enables a ready M→M stream dispatches it as it stands after the store and the latch. -/
theorem writeStreamCr_dispatch {w : Work} (hd : w.st.dmas[k]? = some d) (hm : d.streams[x] = m) (hen : m.en = false)
    (hreq : m.req = true) (hv : v.getLsbD 0 = true) (hdir : v.extractLsb' 6 2 = 2#2) :
    writeStreamCr k x v w =
      selectTransfer k x (m.writeCr v) (w.modDma k fun d => d.modStream x fun _ => m.writeCr v) := by
  have hready : (m.storeCr v).dir = 2#2 ∧ (m.storeCr v).req = true := ⟨hdir, hreq⟩
  simp only [writeStreamCr, hd, hm]
  rw [if_pos (by simp [hen, hv]), Stream.writeCr_of_edge hen hv]
  exact if_pos hready

end

/-- Settles O12: without a burst, a CR write leaves its stream as `Stream.writeCr` says. -/
theorem crWriteStoresFieldsAndLatchesAtEdge : Obligations.CrWriteStoresFieldsAndLatchesAtEdge := by
  intro s k d x v m hd hm hnoBurst
  rw [exec_wrStream_next (r := .cr) hd (writeStreamCr_store hd hm hnoBurst), State.modDma_eq _ hd]
  rfl

/-- Settles O17: the enable edge dispatches the stored stream, whose burst runs over the bus and ends it. -/
theorem enableOfReadyMemoryStreamRunsBurst : Obligations.EnableOfReadyMemoryStreamRunsBurst := by
  intro s k d x v m m' hd hm hen hreq hv hdir hndt hm' hroute
  have hstored : m.writeCr v = m' := by
    rw [Stream.writeCr_of_edge hen hv, hm', Stream.latchNdt, Stream.storeCr, hv, hdir]
  have hdispatch := writeStreamCr_dispatch (w := ⟨s, []⟩) hd hm hen hreq hv hdir
  subst hm'
  rw [hstored] at hdispatch
  exact exec_wrStream_next (r := .cr) hd
    (hdispatch.trans (selectTransfer_stored_burst hd rfl rfl hndt hroute))

end Sys2Proof.Machine
end

