-- ==== Sys2Proof/Proofs/RequestEvent.lean ====
section
/-! The request event (R260, R382, R383): which event dispatches a transfer, and what a dispatched item, burst or empty transfer
leaves (R262–R267, R271). -/

namespace Sys2Proof.Machine

/-! ### Item addresses (R262) -/

/-- The bytes of an item by its size code; code 3 is used as 1 byte (R37). -/
theorem widthBytes_itemWidth (code : BitVec 2) :
    widthBytes (itemWidth code) = if code = 1#2 then 2 else if code = 2#2 then 4 else 1 := by
  rw [itemWidth]
  split_ifs <;> rfl

/-- The address of one side on naturals modulo 2^32 (R262, R113). -/
theorem sideAddr_toNat (q : Side) (n : Nat) :
    (sideAddr q n).toNat = (q.base.toNat + if q.inc then n * widthBytes q.size else 0) % 2 ^ 32 := by
  rw [sideAddr]
  split_ifs
  · simp
  · rw [Nat.add_zero, Nat.mod_eq_of_lt q.base.isLt]

theorem sides_of_mem_to_peripheral {m : Stream} (h : m.dir = 1#2) :
    sourceSide m = memorySide m ∧ destSide m = peripheralSide m :=
  ⟨if_pos h, if_pos h⟩

theorem sides_of_other_direction {m : Stream} (h : m.dir ≠ 1#2) :
    sourceSide m = peripheralSide m ∧ destSide m = memorySide m :=
  ⟨if_neg h, if_neg h⟩

/-- Settles O13: the direction picks the two sides, and each side's address is that of `sideAddr_toNat`. -/
theorem itemAddressesFollowDirection : Obligations.ItemAddressesFollowDirection := by
  intro m i size done par mem
  have hpar : (sideAddr (peripheralSide m) (itemsDone m + i)).toNat = par := by
    rw [sideAddr_toNat, peripheralSide, widthBytes_itemWidth]
    rfl
  have hmem : (sideAddr (memorySide m) (itemsDone m + i)).toNat = mem := by
    rw [sideAddr_toNat, memorySide, widthBytes_itemWidth]
    rfl
  have hother (h : m.dir ≠ 1#2) : (srcAddr m i).toNat = par ∧ (dstAddr m i).toNat = mem := by
    obtain ⟨hsrc, hdst⟩ := sides_of_other_direction h
    rw [srcAddr, dstAddr, hsrc, hdst]
    exact ⟨hpar, hmem⟩
  refine ⟨fun h => hother (by rw [h]; decide), fun h => ?_, fun h => hother (by rw [h]; decide),
    widthBytes_itemWidth m.psize⟩
  obtain ⟨hsrc, hdst⟩ := sides_of_mem_to_peripheral h
  rw [srcAddr, dstAddr, hsrc, hdst]
  exact ⟨hmem, hpar⟩

/-! ### The request event (R260, R383) -/

section
variable {s : State} {k : Nat} {d : Dma} {x : StreamId} {v : Bool} {m : Stream}

theorem exec_dmaReq (k x v) (s : State) : exec (.dmaReq k x v) s = dmaRequest k x v s := rfl

/-- A request event that answers next did its work and delivered every line event. -/
theorem exec_dmaReq_ok {t : State} (h : exec (.dmaReq k x v) s = .next t) :
    ∃ w, dmaReq k x v ⟨s, []⟩ = .ok w ∧ deliver w.st.cascadeLimit w = .ok t := by
  rw [exec_dmaReq] at h
  unfold dmaRequest at h
  split at h
  · cases h
  · obtain ⟨-, -, h⟩ := onDma_next h
    exact settle_next h

/-- At an input that no line drives, the event of the environment is DMA_REQ and its cascade. -/
theorem exec_dmaReq_unwired (hd : s.dmas[k]? = some d) (hw : s.wired k x = false) :
    exec (.dmaReq k x v) s = settle (dmaReq k x v ⟨s, []⟩) := by
  rw [exec_dmaReq, dmaRequest, if_neg (by rw [hw]; decide), onDma_some hd]

/-- A request event whose work raises no line event ends with the state that the work leaves. -/
theorem exec_dmaReq_next {t : State} (hd : s.dmas[k]? = some d) (hw : s.wired k x = false)
    (hreq : dmaReq k x v ⟨s, []⟩ = .ok ⟨t, []⟩) : exec (.dmaReq k x v) s = .next t := by
  rw [exec_dmaReq_unwired hd hw, hreq, settle_nil]

/-- Changing a stream as a function of its fields is storing the changed stream. -/
theorem State.modDma_modStream (hd : s.dmas[k]? = some d) (hm : d.streams[x] = m) (f : Stream → Stream) :
    (s.modDma k fun d => d.modStream x f) = s.modDma k fun d => d.modStream x fun _ => f m := by
  rw [State.modDma_eq _ hd, State.modDma_eq _ hd, Dma.modStream, Dma.modStream, hm]

/-- Two changes of a controller, the second after bus accesses, store it as both leave it. -/
theorem Work.modDma_after_bus (f g : Dma → Dma) (b : Bus) (evs : List ReqEvent) (hd : s.dmas[k]? = some d) :
    Work.modDma k g ⟨{ s.modDma k f with bus := b }, evs⟩ =
      ⟨{ s with bus := b, dmas := s.dmas.set k (g (f d)) }, evs⟩ := by
  have hmods : (s.dmas.modify k f).modify k g = s.dmas.set k (g (f d)) := by
    rw [List.modify_modify_eq, modify_eq_set _ hd, Function.comp_apply]
  simp only [Work.modDma, State.modDma, hmods]

/-- A rising edge of an enabled stream dispatches it with the latch set. -/
theorem dmaReq_rising {evs : List ReqEvent} (hd : s.dmas[k]? = some d) (hm : d.streams[x] = m) (hreq : m.req = false)
    (hen : m.en = true) :
    dmaReq k x true ⟨s, evs⟩ =
      selectTransfer k x { m with req := true }
        ⟨s.modDma k fun d => d.modStream x fun _ => { m with req := true }, evs⟩ := by
  simp only [dmaReq, hd, hm]
  rw [if_pos (by rw [hreq, hen]; rfl), ← State.modDma_modStream hd hm fun m => { m with req := true }]
  rfl

/-- An event that is no rising edge of an enabled stream only sets the latch. -/
theorem dmaReq_no_edge {evs : List ReqEvent} (hd : s.dmas[k]? = some d) (hm : d.streams[x] = m)
    (h : ¬(m.req = false ∧ v = true ∧ m.en = true)) :
    dmaReq k x v ⟨s, evs⟩ = .ok ⟨s.modDma k fun d => d.modStream x fun _ => { m with req := v }, evs⟩ := by
  simp only [dmaReq, hd, hm]
  rw [if_neg (by simpa [and_assoc] using h), ← State.modDma_modStream hd hm fun m => { m with req := v }]
  rfl

/-- The operation of an event that is no rising edge of an enabled stream. -/
theorem exec_dmaReq_no_edge (hd : s.dmas[k]? = some d) (hm : d.streams[x] = m) (hw : s.wired k x = false)
    (h : ¬(m.req = false ∧ v = true ∧ m.en = true)) :
    exec (.dmaReq k x v) s = .next { s with
      dmas := s.dmas.set k { d with streams := d.streams.set x { m with req := v } } } := by
  rw [exec_dmaReq_next hd hw (dmaReq_no_edge hd hm h), State.modDma_eq _ hd, Dma.modStream]

end

/-- Settles O19: without an edge nothing is dispatched. -/
theorem requestWithoutEdgeOnlySetsLatch : Obligations.RequestWithoutEdgeOnlySetsLatch :=
  fun _ _ _ _ _ _ hd hm hw h => exec_dmaReq_no_edge hd hm hw h

/-! ### Empty transfers (R263) -/

section
variable {s : State} {k : Nat} {d : Dma} {x : StreamId} {m : Stream}

/-- A stream stored and dispatched at once with nothing to move is only disabled. -/
theorem selectTransfer_stored_empty (hd : s.dmas[k]? = some d) (hdir : m.dir ≠ 3#2) (hndt : m.ndt = 0) :
    selectTransfer k x m ⟨s.modDma k fun d => d.modStream x fun _ => m, []⟩ = .ok ⟨{ s with
      dmas := s.dmas.set k { d with streams := d.streams.set x { m with en := false } } }, []⟩ := by
  have hfail : (d.modStream x fun _ => m).createRequestFailure x =
      { d with streams := d.streams.set x { m with en := false } } := by
    rw [Dma.createRequestFailure, Dma.modStream, Dma.modStream_self, Dma.modStream, Vector.set_set]
  have hselect (w : Work) : selectTransfer k x m w = .ok (w.modDma k (Dma.createRequestFailure x)) := by
    rw [selectTransfer, if_neg hdir, doMemoryTransfer, doPeripheralTransfer, if_pos hndt, if_pos hndt, ite_self]
  rw [hselect, ← hfail]
  exact congrArg _ (Work.modDma_after_bus _ _ s.bus [] hd)

end

/-- Settles O20: a rising request, and the enabling write of a ready M→M stream, each dispatch the stored stream, which has
nothing to move. -/
theorem emptyStreamFailsItsTransfer : Obligations.EmptyStreamFailsItsTransfer := by
  intro s k d x v m hd hm hndt
  refine ⟨fun hw hreq hen hdir => ?_, fun hen hreq hv hdir => ?_⟩
  · exact exec_dmaReq_next hd hw
      ((dmaReq_rising hd hm hreq hen).trans (selectTransfer_stored_empty hd hdir hndt))
  · have hstored : m.writeCr v = { m with
        en := true
        tcie := v.getLsbD 4
        dir := 2#2
        circ := v.getLsbD 8
        pinc := v.getLsbD 9
        minc := v.getLsbD 10
        psize := v.extractLsb' 11 2
        msize := v.extractLsb' 13 2
        latch := 0 } := by
      rw [Stream.writeCr_of_edge hen hv, Stream.latchNdt, Stream.storeCr, hv, hdir, hndt]
    have hdispatch := writeStreamCr_dispatch (w := ⟨s, []⟩) hd hm hen hreq hv hdir
    rw [hstored] at hdispatch
    refine exec_wrStream_next (r := .cr) hd (hdispatch.trans ?_)
    exact selectTransfer_stored_empty hd (show (2#2 : BitVec 2) ≠ 3#2 by decide) hndt

/-! ### Bursts (R264) -/

/-- Settles O18: the rising edge dispatches the stream with its latch set, whose burst runs over the bus and ends it. -/
theorem risingRequestRunsMemoryBurst : Obligations.RisingRequestRunsMemoryBurst := by
  intro s k d x m hd hm hw hreq hen hdir hndt hroute
  exact exec_dmaReq_next hd hw
    ((dmaReq_rising hd hm hreq hen).trans (selectTransfer_stored_burst hd hen hdir hndt hroute))

/-! ### Single items (R265) -/

/-- What the end of an item leaves of its controller, when its enabled stream stood as `m` at dispatch: the last item ends the
transfer as a burst does, any other counts NDT down (R265). -/
def Dma.itemEnded (x : StreamId) (m : Stream) (d : Dma) : Dma :=
  if m.ndt = 1#16 then d.burstEnded x m else { d with streams := d.streams.set x { m with ndt := m.ndt - 1 } }

section
variable {s : State} {k : Nat} {d : Dma} {x : StreamId} {m : Stream}

theorem Dma.itemEnded_last (h : m.ndt = 1#16) : d.itemEnded x m = d.burstEnded x m := if_pos h

theorem Dma.itemEnded_more (h : m.ndt ≠ 1#16) :
    d.itemEnded x m = { d with streams := d.streams.set x { m with ndt := m.ndt - 1 } } := if_neg h

theorem Dma.finishItem_stored (hen : m.en = true) : (d.modStream x fun _ => m).finishItem x = d.itemEnded x m := by
  rw [Dma.finishItem, Dma.modStream_self]
  by_cases hlast : m.ndt = 1#16
  · rw [if_neg (by rw [hlast]; decide), Dma.itemEnded_last hlast]
    exact Dma.finishBurst_stored hen x d
  · rw [if_pos (by rwa [Ne, sub_eq_zero]), Dma.itemEnded_more hlast, Dma.modStream, Dma.modStream_self, Dma.modStream,
      Vector.set_set]

/-- A stream stored enabled and dispatched at once for one item over the system bus: only the bus and its controller
change. -/
theorem selectTransfer_stored_item (hd : s.dmas[k]? = some d) (hen : m.en = true) (hdir : m.dir = 0#2 ∨ m.dir = 1#2)
    (hndt : m.ndt ≠ 0) (hsrc : s.route (srcAddr m 0) (copyWidth m) = .bus)
    (hdst : s.route (dstAddr m 0) (copyWidth m) = .bus) :
    selectTransfer k x m ⟨s.modDma k fun d => d.modStream x fun _ => m, []⟩ = .ok ⟨{ s with
      bus := s.bus.afterItems k m 1
      dmas := s.dmas.set k (d.itemEnded x m) }, []⟩ := by
  have hroute : (s.modDma k fun d => d.modStream x fun _ => m).route = s.route :=
    State.route_congr (map_site_modify (Dma.modStream_site x _) k s.dmas) rfl
  obtain ⟨hreserved, hburst⟩ : m.dir ≠ 3#2 ∧ m.dir ≠ 2#2 := by
    obtain h | h := hdir <;> rw [h] <;> decide
  rw [selectTransfer, if_neg hreserved, if_neg hburst, doPeripheralTransfer, if_neg hndt,
    copyItem_bus (by rwa [hroute]) (by rwa [hroute]), ← Dma.finishItem_stored hen, Bus.afterItems_succ,
    Bus.afterItems_zero]
  exact congrArg _ (Work.modDma_after_bus _ _ _ [] hd)

/-- A rising request of an enabled P→M or M→P stream moves one item. -/
theorem exec_dmaReq_item (hd : s.dmas[k]? = some d) (hm : d.streams[x] = m) (hw : s.wired k x = false)
    (hreq : m.req = false) (hen : m.en = true) (hdir : m.dir = 0#2 ∨ m.dir = 1#2) (hndt : m.ndt ≠ 0)
    (hsrc : s.route (srcAddr m 0) (copyWidth m) = .bus) (hdst : s.route (dstAddr m 0) (copyWidth m) = .bus) :
    exec (.dmaReq k x true) s = .next { s with
      bus := s.bus.afterItems k m 1
      dmas := s.dmas.set k (d.itemEnded x { m with req := true }) } :=
  exec_dmaReq_next hd hw
    ((dmaReq_rising hd hm hreq hen).trans (selectTransfer_stored_item hd hen hdir hndt hsrc hdst))

end

/-- Settles O15, by whether the item is the last. -/
theorem risingRequestMovesOneItem : Obligations.RisingRequestMovesOneItem := by
  intro s k d x m hd hm hw hreq hen hdir hndt hsrc hdst
  rw [exec_dmaReq_item hd hm hw hreq hen hdir hndt hsrc hdst, Dma.itemEnded]
  by_cases hlast : m.ndt = 1#16
  · simp [hlast, Dma.burstEnded]
  · have hmore : (m.ndt != 1#16) = true := bne_iff_ne.2 hlast
    simp [hlast, hmore, hen]

end Sys2Proof.Machine
end

