-- ==== Sys2Proof/Proofs/Pulses.lean ====
section
/-! Pulses of a request input (R151, R271): each moves one item, so NDT of them complete the transfer. -/

namespace Sys2Proof.Machine

/-! ### Runs of operations (R389) -/

/-- The step that a presented operation takes is the operation's own: encoding and decoding lose nothing (R111, R140). -/
theorem step_present_encode {i : Instr} (hwf : WellFormed i) (s : State) : step (s.present (encode i)) = exec i s :=
  step_of_decode_ok rfl (decodeOfEncodeIsIdentity i hwf)

/-- A run that answers next goes on with the remaining operations. -/
theorem runOps_append {l l' : List Operation} {s t : State} (h : runOps l s = .next t) :
    runOps (l ++ l') s = runOps l' t := by
  induction l generalizing s with
  | nil => cases h; rfl
  | cons p rest ih =>
    rw [List.cons_append]
    simp only [runOps] at h ⊢
    split at h
    · next s' hstep => exact ih h
    · cases h
    · cases h

/-- A pulse is a rise and a fall of its request input. -/
theorem runOps_pulse {s t u : State} {k : Nat} {x : StreamId} (hrise : exec (.dmaReq k x true) s = .next t)
    (hfall : exec (.dmaReq k x false) t = .next u) : runOps (pulse k x) s = .next u := by
  simp only [pulse, runOps, step_present_encode (i := .dmaReq k x _) rfl, hrise, hfall]

/-! ### What pulses leave (R271) -/

/-- What `n` pulses leave of the stream that stood as `m` and has items left after them: NDT counts down. -/
def Stream.counted (m : Stream) (n : Nat) : Stream := { m with ndt := m.ndt - BitVec.ofNat 16 n }

/-- What `n` pulses leave of their controller: the transfer ended if they are as many as NDT, else NDT counted down (R271). -/
def Dma.afterPulses (x : StreamId) (m : Stream) (n : Nat) (d : Dma) : Dma :=
  if n = m.ndt.toNat then d.burstEnded x m else { d with streams := d.streams.set x (m.counted n) }

/-- What `n` pulses leave of the state. -/
def State.afterPulses (k : Nat) (x : StreamId) (m : Stream) (n : Nat) (d : Dma) (s : State) : State :=
  { s with
    bus := s.bus.afterItems k m n
    dmas := s.dmas.set k (d.afterPulses x m n) }

section
variable {s : State} {k : Nat} {d : Dma} {x : StreamId} {m : Stream} {n : Nat}

theorem Stream.counted_zero (m : Stream) : m.counted 0 = m := by
  simp [Stream.counted]

theorem Stream.counted_ndt (h : n ≤ m.ndt.toNat) : (m.counted n).ndt.toNat = m.ndt.toNat - n := by
  have := m.ndt.isLt
  rw [Stream.counted, BitVec.toNat_sub_of_le (by rw [BitVec.le_def, BitVec.toNat_ofNat]; omega), BitVec.toNat_ofNat]
  omega

theorem Stream.counted_ndt_eq_iff {j : Nat} (h : n ≤ m.ndt.toNat) (hj : j < 2 ^ 16) :
    (m.counted n).ndt = BitVec.ofNat 16 j ↔ n + j = m.ndt.toNat := by
  rw [← BitVec.toNat_inj, Stream.counted_ndt h, BitVec.toNat_ofNat, Nat.mod_eq_of_lt hj]
  omega

/-- The next item of a counted stream is item `n` of the whole transfer (R262). -/
theorem Stream.counted_itemsDone (h : n ≤ m.ndt.toNat) (hlatch : m.ndt.toNat ≤ m.latch.toNat) :
    itemsDone (m.counted n) + 0 = itemsDone m + n := by
  have hlatch' : (m.counted n).latch = m.latch := rfl
  rw [itemsDone, itemsDone, hlatch', Stream.counted_ndt h]
  omega

theorem Stream.counted_addresses (h : n ≤ m.ndt.toNat) (hlatch : m.ndt.toNat ≤ m.latch.toNat) :
    srcAddr (m.counted n) 0 = srcAddr m n ∧ dstAddr (m.counted n) 0 = dstAddr m n := by
  rw [srcAddr, srcAddr, dstAddr, dstAddr, Stream.counted_itemsDone h hlatch]
  exact ⟨rfl, rfl⟩

/-- One item of the counted stream is one item more of the whole transfer. -/
theorem Bus.afterItems_counted (b : Bus) (h : n ≤ m.ndt.toNat) (hlatch : m.ndt.toNat ≤ m.latch.toNat) :
    (b.afterItems k m n).afterItems k (m.counted n) 1 = b.afterItems k m (n + 1) := by
  obtain ⟨hsrc, hdst⟩ := Stream.counted_addresses h hlatch
  rw [Bus.afterItems_succ, Bus.afterItems_zero, Bus.afterItems_succ, hsrc, hdst]
  rfl

/-- The fall of a pulse takes back the latch that its rise set; what the item left of the stream stays. -/
theorem Dma.itemEnded_fall (hreq : m.req = false) :
    ((d.itemEnded x { m with req := true }).modStream x fun m' => { m' with req := false }) = d.itemEnded x m := by
  by_cases hlast : m.ndt = 1#16
  · rw [Dma.itemEnded_last hlast, Dma.itemEnded_last (m := { m with req := true }) hlast]
    simp [Dma.burstEnded, Dma.modStream, hreq]
  · rw [Dma.itemEnded_more hlast, Dma.itemEnded_more (m := { m with req := true }) hlast]
    simp [Dma.modStream, hreq]

/-- A pulse of the request input of an enabled P→M or M→P stream moves one item and leaves the latch low. -/
theorem runOps_pulse_item (hd : s.dmas[k]? = some d) (hm : d.streams[x] = m) (hw : s.wired k x = false)
    (hreq : m.req = false) (hen : m.en = true) (hdir : m.dir = 0#2 ∨ m.dir = 1#2) (hndt : m.ndt ≠ 0)
    (hsrc : s.route (srcAddr m 0) (copyWidth m) = .bus) (hdst : s.route (dstAddr m 0) (copyWidth m) = .bus) :
    runOps (pulse k x) s = .next { s with
      bus := s.bus.afterItems k m 1
      dmas := s.dmas.set k (d.itemEnded x m) } := by
  have hrise := exec_dmaReq_item hd hm hw hreq hen hdir hndt hsrc hdst
  have hk : k < s.dmas.length := (List.getElem?_eq_some_iff.1 hd).1
  rw [runOps_pulse hrise (exec_dmaReq_no_edge (List.getElem?_set_self hk) rfl hw (by simp)), List.set_set,
    ← Dma.itemEnded_fall hreq]
  rfl

theorem Dma.afterPulses_more (h : n < m.ndt.toNat) :
    d.afterPulses x m n = { d with streams := d.streams.set x (m.counted n) } :=
  if_neg (Nat.ne_of_lt h)

theorem Dma.afterPulses_zero (hm : d.streams[x] = m) (hndt : m.ndt ≠ 0) : d.afterPulses x m 0 = d := by
  have hpos : 0 < m.ndt.toNat := Nat.pos_of_ne_zero fun h => hndt (BitVec.eq_of_toNat_eq h)
  rw [Dma.afterPulses_more hpos, Stream.counted_zero, ← hm]
  simp

theorem Dma.afterPulses_site : (d.afterPulses x m n).site = d.site := by
  rw [Dma.afterPulses]
  split_ifs <;> rfl

/-- Pulses change no window, so accesses go where they went. -/
theorem State.afterPulses_route (hd : s.dmas[k]? = some d) : (s.afterPulses k x m n d).route = s.route := by
  have hsite : (s.dmas.map Dma.site)[k]? = some d.site := by rw [List.getElem?_map, hd, Option.map_some]
  refine State.route_congr ?_ rfl
  rw [State.afterPulses, List.map_set, Dma.afterPulses_site, set_self hsite]

/-- One item of the counted stream ends where one pulse more ends (R265, R271). -/
theorem Dma.itemEnded_counted (h : n < m.ndt.toNat) :
    (d.afterPulses x m n).itemEnded x (m.counted n) = d.afterPulses x m (n + 1) := by
  have hone : (m.counted n).ndt = 1#16 ↔ n + 1 = m.ndt.toNat := Stream.counted_ndt_eq_iff h.le (by decide)
  rw [Dma.afterPulses_more h]
  by_cases hlast : n + 1 = m.ndt.toNat
  · rw [Dma.itemEnded_last (hone.2 hlast), Dma.afterPulses, if_pos hlast, Dma.burstEnded, Dma.burstEnded, Vector.set_set]
    rfl
  · rw [Dma.itemEnded_more (mt hone.1 hlast), Dma.afterPulses_more (Nat.lt_of_le_of_ne h hlast), Vector.set_set]
    simp [Stream.counted, BitVec.ofNat_add, BitVec.sub_sub]

/-- The pulses up to NDT of them, one after the other. -/
theorem runOps_pulses (hd : s.dmas[k]? = some d) (hm : d.streams[x] = m) (hw : s.wired k x = false)
    (hreq : m.req = false) (hen : m.en = true) (hdir : m.dir = 0#2 ∨ m.dir = 1#2)
    (hlatch : m.ndt.toNat ≤ m.latch.toNat) (hn : n ≤ m.ndt.toNat) (hndt : m.ndt ≠ 0)
    (hroute : ∀ i, i < n →
      s.route (srcAddr m i) (copyWidth m) = .bus ∧ s.route (dstAddr m i) (copyWidth m) = .bus) :
    runOps (List.replicate n (pulse k x)).flatten s = .next (s.afterPulses k x m n d) := by
  induction n with
  | zero => rw [State.afterPulses, Bus.afterItems_zero, Dma.afterPulses_zero hm hndt, set_self hd]; rfl
  | succ n ih =>
    have hk : k < s.dmas.length := (List.getElem?_eq_some_iff.1 hd).1
    have hd' : (s.afterPulses k x m n d).dmas[k]? = some (d.afterPulses x m n) := List.getElem?_set_self hk
    have hm' : (d.afterPulses x m n).streams[x] = m.counted n := by rw [Dma.afterPulses_more hn]; simp
    have hndt' : (m.counted n).ndt ≠ 0 :=
      mt (Stream.counted_ndt_eq_iff (j := 0) (Nat.le_of_succ_le hn) (by decide)).1 (Nat.ne_of_lt hn)
    obtain ⟨hsrc, hdst⟩ := hroute n n.lt_succ_self
    obtain ⟨hsrc', hdst'⟩ := Stream.counted_addresses (Nat.le_of_succ_le hn) hlatch
    rw [List.replicate_succ', List.flatten_append, List.flatten_singleton,
      runOps_append (ih (by omega) fun i hi => hroute i (by omega)),
      runOps_pulse_item hd' hm' hw hreq hen hdir hndt' (by rw [hsrc', State.afterPulses_route hd]; exact hsrc)
        (by rw [hdst', State.afterPulses_route hd]; exact hdst), Dma.itemEnded_counted hn]
    simp only [State.afterPulses, List.set_set, Bus.afterItems_counted _ (Nat.le_of_succ_le hn) hlatch]

end

/-- Settles O16, by whether the pulses are all that the transfer needs. -/
theorem pulsesMoveOneItemEach : Obligations.PulsesMoveOneItemEach := by
  intro s k d x m n hd hm hw hreq hen hdir hlatch hn hndt hroute
  rw [runOps_pulses hd hm hw hreq hen hdir hlatch hn hndt hroute, State.afterPulses, Dma.afterPulses]
  by_cases hall : n = m.ndt.toNat
  · simp [hall, Dma.burstEnded]
  · have hmore : (n != m.ndt.toNat) = true := bne_iff_ne.2 hall
    simp [hall, hmore, hen, Stream.counted]

end Sys2Proof.Machine
end

