-- ==== Sys2Proof/Proofs/RequestRefusals.lean ====
section
/-! What a request event is refused for (R270, R380, R382–R385): the first refused access of its items ends the whole step, and so
do more line events than `CASCADE_LIMIT`. -/

namespace Sys2Proof.Machine

/-! ### Refused items (R384, R385) -/

/-- Item `i` of `m` is not copied, and why: its source is refused, or its source is allowed and its destination refused. -/
def State.RefusesItem (s : State) (m : Stream) (i : Nat) (r : Refusal) : Prop :=
  s.RefusesAccess (srcAddr m i) (copyWidth m) r ∨
    s.AllowsAccess (srcAddr m i) (copyWidth m) ∧ s.RefusesAccess (dstAddr m i) (copyWidth m) r

/-- Both accesses of item `i` of `m` are performed. -/
def State.AllowsItem (s : State) (m : Stream) (i : Nat) : Prop :=
  s.AllowsAccess (srcAddr m i) (copyWidth m) ∧ s.AllowsAccess (dstAddr m i) (copyWidth m)

section
variable {k : Nat} {x : StreamId} {m : Stream} {i : Nat} {r : Refusal} {w : Work}

/-- Which items are refused and which are copied depends on the platform only. -/
theorem SamePlatform.refusesItem {s t : State} (h : SamePlatform s t) (hs : s.RefusesItem m i r) : t.RefusesItem m i r := by
  obtain ⟨hdmas, hi2cs, -⟩ := h
  simpa only [State.RefusesItem, State.refusesAccess_congr hdmas hi2cs, State.allowsAccess_congr hdmas hi2cs] using hs

theorem SamePlatform.allowsItem {s t : State} (h : SamePlatform s t) (hs : s.AllowsItem m i) : t.AllowsItem m i := by
  obtain ⟨hdmas, hi2cs, -⟩ := h
  simpa only [State.AllowsItem, State.allowsAccess_congr hdmas hi2cs] using hs

theorem copyItem_refused (h : w.st.RefusesItem m i r) :
    copyItem k (srcAddr m i) (dstAddr m i) (copyWidth m) w = .error r := by
  obtain hsrc | ⟨hsrc, hdst⟩ := h
  · exact copyItem_source_refused hsrc
  · exact copyItem_dest_refused hsrc hdst

/-- Items whose accesses are all allowed are copied. -/
theorem copyItems_allowed {n : Nat} (h : ∀ i, i < n → w.st.AllowsItem m i) : ∃ w', copyItems k m n 0 w = .ok w' := by
  induction n with
  | zero => exact ⟨w, rfl⟩
  | succ n ih =>
    obtain ⟨w', hcopy⟩ := ih fun i hi => h i (Nat.lt_succ_of_lt hi)
    obtain ⟨hsrc, hdst⟩ := (copyItems_frame hcopy).samePlatform.allowsItem (h n n.lt_succ_self)
    rw [copyItems_succ, hcopy, Nat.zero_add]
    exact copyItem_allowed k hsrc hdst

/-- The first refused item refuses the copy of all. -/
theorem copyItems_refused {n : Nat} (hi : i < n) (hbefore : ∀ i', i' < i → w.st.AllowsItem m i')
    (h : w.st.RefusesItem m i r) : copyItems k m n 0 w = .error r := by
  induction n, hi using Nat.le_induction with
  | base =>
    obtain ⟨w', hcopy⟩ := copyItems_allowed (k := k) hbefore
    rw [copyItems_succ, hcopy, Nat.zero_add]
    exact copyItem_refused ((copyItems_frame hcopy).samePlatform.refusesItem h)
  | succ n _ ih => rw [copyItems_succ, ih]; rfl

/-- A dispatched transfer is refused for the first refused one of its items: its only one, or any of a burst. -/
theorem selectTransfer_refused (hdir : m.dir ≠ 3#2) (hi : i < m.ndt.toNat) (hmoved : i = 0 ∨ m.dir = 2#2)
    (hbefore : ∀ i', i' < i → w.st.AllowsItem m i') (h : w.st.RefusesItem m i r) :
    selectTransfer k x m w = .error r := by
  have hndt : m.ndt ≠ 0 := by
    intro hzero
    rw [hzero] at hi
    exact Nat.not_lt_zero i hi
  rw [selectTransfer, if_neg hdir]
  by_cases hburst : m.dir = 2#2
  · rw [if_pos hburst, doMemoryTransfer, if_neg hndt, copyItems_refused hi hbefore h]
  · obtain rfl := hmoved.resolve_right hburst
    rw [if_neg hburst, doPeripheralTransfer, if_neg hndt, copyItem_refused h]

end

/-! ### Too many line events (R382) -/

theorem deliver_too_many {evs : List ReqEvent} {n : Nat} {s : State} (hq : s.QuietEvents evs) (hn : n < evs.length) :
    deliver n ⟨s, evs⟩ = .error .cascadeLimit := by
  induction evs generalizing n s with
  | nil => exact absurd hn (Nat.not_lt_zero n)
  | cons v rest ih =>
    obtain ⟨d, hd, hen⟩ := hq v List.mem_cons_self
    have hrest : s.QuietEvents rest := fun u hu => hq u (List.mem_cons_of_mem v hu)
    cases n with
    | zero => rfl
    | succ n =>
      rw [deliver, dmaReq_quiet hd hen]
      exact ih (hrest.latchRequest v) (Nat.lt_of_succ_lt_succ hn)

/-! ### Refused request events -/

section
variable {s : State} {k : Nat} {d : Dma} {x : StreamId} {v : Bool} {m : Stream}

theorem exec_dmaReq_wired (hw : s.wired k x = true) : exec (.dmaReq k x v) s = .refused .reservedDescriptor :=
  if_pos hw

/-- A refused dispatch refuses the event that started it. -/
theorem exec_dmaReq_refused {r : Refusal} (hd : s.dmas[k]? = some d) (hm : d.streams[x] = m) (hw : s.wired k x = false)
    (hreq : m.req = false) (hen : m.en = true)
    (h : ∀ w : Work, SamePlatform s w.st → selectTransfer k x { m with req := true } w = .error r) :
    exec (.dmaReq k x true) s = .refused r := by
  rw [exec_dmaReq_unwired hd hw, dmaReq_rising hd hm hreq hen, h, settle]
  exact .modDma (Dma.modStream_site x _) k s

/-- The first refused item of a dispatched transfer refuses the event; the latch that the event sets moves no address. -/
theorem exec_dmaReq_item_refused {i : Nat} {r : Refusal} (hd : s.dmas[k]? = some d) (hm : d.streams[x] = m)
    (hw : s.wired k x = false) (hreq : m.req = false) (hen : m.en = true) (hdir : m.dir ≠ 3#2) (hi : i < m.ndt.toNat)
    (hmoved : i = 0 ∨ m.dir = 2#2) (hbefore : ∀ i', i' < i → s.AllowsItem m i') (h : s.RefusesItem m i r) :
    exec (.dmaReq k x true) s = .refused r :=
  exec_dmaReq_refused hd hm hw hreq hen fun _ hp =>
    selectTransfer_refused (m := { m with req := true }) hdir hi hmoved (fun i' hi' => hp.allowsItem (hbefore i' hi'))
      (hp.refusesItem h)

/-- Quiet line events beyond the limit refuse the event whose work raised them. -/
theorem exec_dmaReq_too_many {w : Work} (hd : s.dmas[k]? = some d) (hw : s.wired k x = false)
    (hreq : dmaReq k x v ⟨s, []⟩ = .ok w) (hq : w.st.QuietEvents w.pending) (hlimit : s.cascadeLimit < w.pending.length) :
    exec (.dmaReq k x v) s = .refused .cascadeLimit := by
  have hdel : deliver w.st.cascadeLimit w = .error .cascadeLimit := by
    rw [dmaReq_cascadeLimit hreq]
    exact deliver_too_many hq hlimit
  simp only [exec_dmaReq_unwired hd hw, hreq, settle, hdel]

end

/-- Settles O21: a wired input is refused before anything is done, the reserved direction at the dispatch, an access at the
first item that has a refused one, and the line events at their delivery. -/
theorem requestRefusals : Obligations.RequestRefusals := by
  intro s k d x v m hd hm
  refine ⟨exec_dmaReq_wired, fun hw hreq hen => ⟨fun hdir => ?_, fun i hdir hi hmoved hbefore => ?_⟩,
    fun hw w hreq hq hlimit => exec_dmaReq_too_many hd hw hreq hq hlimit⟩
  · exact exec_dmaReq_refused hd hm hw hreq hen fun _ _ => if_pos hdir
  · have hrefused {r : Refusal} (h : s.RefusesItem m i r) :=
      exec_dmaReq_item_refused hd hm hw hreq hen hdir hi hmoved hbefore h
    exact ⟨fun r hsrc => hrefused (.inl hsrc), fun hsrc r hdst => hrefused (.inr ⟨hsrc, hdst⟩)⟩

end Sys2Proof.Machine
end

