-- ==== Sys2Proof/Proofs/RequestFrame.lean ====
section
/-! What a request event leaves of the other streams (R260, R383): the events of its cascade go to wired inputs only, and each
event changes its own stream only. -/

namespace Sys2Proof.Machine

/-! ### Line events go to wired inputs (R382, R383) -/

/-- The construction parameters decide what is wired. -/
theorem SamePlatform.wired {s t : State} (h : SamePlatform s t) : t.wired = s.wired := by
  obtain ⟨-, hi2cs, -⟩ := h
  have hany (u : State) (k : Nat) (x : StreamId) : u.wired k x =
      (u.i2cs.map I2c.site).any fun site => site.txReq == some (k, x) || site.rxReq == some (k, x) := by
    rw [List.any_map]
    rfl
  funext k x
  rw [hany, hany, hi2cs]

theorem mem_lineEvent {wire : Option (Nat × StreamId)} {old new : Bool} {v : ReqEvent} (h : v ∈ lineEvent wire old new) :
    wire = some (v.dma, v.stream) := by
  unfold lineEvent at h
  split at h
  · cases h
  · split at h
    · obtain rfl := List.mem_singleton.1 h
      rfl
    · cases h

/-- Every event of an action goes to an input that a line of its controller drives. -/
theorem State.wired_of_mem_lineEvents {s : State} {j : Nat} {c c' : I2c} {v : ReqEvent} (hc : s.i2cs[j]? = some c)
    (h : v ∈ lineEvents c c') : s.wired v.dma v.stream = true := by
  refine List.any_eq_true.2 ⟨c, List.mem_of_getElem? hc, ?_⟩
  obtain h | h := List.mem_append.1 h
  · simp [mem_lineEvent h]
  · simp [mem_lineEvent h]

/-- Every pending line event goes to a wired input. -/
def Work.PendingWired (w : Work) : Prop := ∀ v ∈ w.pending, w.st.wired v.dma v.stream = true

theorem Work.PendingWired.modDma {w : Work} {k : Nat} {f : Dma → Dma} (h : w.PendingWired)
    (hf : ∀ d, (f d).site = d.site) : (w.modDma k f).PendingWired := by
  intro v hv
  rw [Work.modDma_st, (SamePlatform.modDma hf k w.st).wired]
  exact h v hv

theorem Work.PendingWired.commitI2c {w : Work} {j : Nat} {c c' : I2c} {e' : Children} (h : w.PendingWired)
    (hc : w.st.i2cs[j]? = some c) (hsite : c'.site = c.site) : (w.commitI2c j c c' e').PendingWired := by
  intro v hv
  rw [(SamePlatform.commitI2c hc hsite e').wired]
  obtain hv | hv := List.mem_append.1 hv
  · exact h v hv
  · exact State.wired_of_mem_lineEvents hc hv

theorem memRead_pendingWired {k a n v} {w w' : Work} (h : memRead k a n w = .ok (v, w')) (hw : w.PendingWired) :
    w'.PendingWired := by
  obtain ⟨-, -, rfl⟩ | ⟨j, c, hroute, -, -, rfl⟩ := memRead_ok h
  · exact hw
  · exact Work.PendingWired.commitI2c (w := w.logBus _) hw (State.route_i2c hroute).1 (I2c.readAt_site ..)

theorem memWrite_pendingWired {k a n v} {w w' : Work} (h : memWrite k a n v w = .ok w') (hw : w.PendingWired) :
    w'.PendingWired := by
  obtain ⟨-, rfl⟩ | ⟨j, c, hroute, -, rfl⟩ := memWrite_ok h
  · exact hw
  · exact Work.PendingWired.commitI2c (w := w.logBus _) hw (State.route_i2c hroute).1 (i2cWriteAt_site ..)

theorem copyItem_pendingWired {k a b n} {w w' : Work} (h : copyItem k a b n w = .ok w') (hw : w.PendingWired) :
    w'.PendingWired := by
  obtain ⟨v, w₁, hread, hwrite⟩ := copyItem_ok h
  exact memWrite_pendingWired hwrite (memRead_pendingWired hread hw)

theorem copyItems_pendingWired {k m count i} {w w' : Work} (h : copyItems k m count i w = .ok w') (hw : w.PendingWired) :
    w'.PendingWired := by
  induction count generalizing i w with
  | zero => cases h; exact hw
  | succ n ih =>
    rw [copyItems] at h
    split at h
    · next w₁ hitem => exact ih h (copyItem_pendingWired hitem hw)
    · cases h

theorem selectTransfer_pendingWired {k x m} {w w' : Work} (h : selectTransfer k x m w = .ok w') (hw : w.PendingWired) :
    w'.PendingWired := by
  obtain ⟨-, ⟨-, rfl⟩ | ⟨-, -, w₁, hcopy, rfl⟩ | ⟨-, -, w₁, hcopy, rfl⟩⟩ := selectTransfer_ok h
  · exact hw.modDma (Dma.createRequestFailure_site x)
  · exact (copyItems_pendingWired hcopy hw).modDma (Dma.finishBurst_site x)
  · exact (copyItem_pendingWired hcopy hw).modDma (Dma.finishItem_site x)

theorem dmaReq_pendingWired {k x v} {w w' : Work} (h : dmaReq k x v w = .ok w') (hw : w.PendingWired) :
    w'.PendingWired := by
  have hlatch := hw.modDma (k := k) (Dma.modStream_site x fun m => { m with req := v })
  obtain ⟨d, -, ⟨-, -, -, hsel⟩ | ⟨-, rfl⟩⟩ := dmaReq_ok h
  · exact selectTransfer_pendingWired hsel hlatch
  · exact hlatch

/-! ### One event changes its own stream only (R260, R263–R265) -/

/-- What controllers show of stream `y`: its fields, FIN and IRQ, and whether it waits in the queue. -/
def Dma.streamView (y : StreamId) (d : Dma) : Stream × Bool × Bool × Bool :=
  (d.streams[y], d.fin[y], d.irq[y], decide (y ∈ d.dq))

theorem Dma.streamView_eq_iff {y : StreamId} {d d' : Dma} :
    d'.streamView y = d.streamView y ↔
      d'.streams[y] = d.streams[y] ∧ d'.fin[y] = d.fin[y] ∧ d'.irq[y] = d.irq[y] ∧ (y ∈ d'.dq ↔ y ∈ d.dq) := by
  simp only [Dma.streamView, Prod.mk.injEq, decide_eq_decide]

section
variable {x y : StreamId} (hxy : x ≠ y)
include hxy

theorem Dma.modStream_streamView (f : Stream → Stream) (d : Dma) : (d.modStream x f).streamView y = d.streamView y :=
  Dma.streamView_eq_iff.2 ⟨Dma.modStream_other hxy f d, rfl, rfl, .rfl⟩

theorem Dma.complete_streamView (d : Dma) : (d.complete x).streamView y = d.streamView y := by
  refine Dma.streamView_eq_iff.2 ⟨rfl, ?_, rfl, ?_⟩
  · exact Vector.getElem_set_ne x.isLt y.isLt fun e => hxy (Fin.ext e)
  · rw [Dma.complete_dq]
    split_ifs
    · simp [hxy.symm]
    · rfl

theorem Dma.finishBurst_streamView (d : Dma) : (d.finishBurst x).streamView y = d.streamView y :=
  (Dma.complete_streamView hxy _).trans (Dma.modStream_streamView hxy _ d)

theorem Dma.finishItem_streamView (d : Dma) : (d.finishItem x).streamView y = d.streamView y := by
  rw [Dma.finishItem]
  split_ifs
  · exact Dma.modStream_streamView hxy _ d
  · exact Dma.finishBurst_streamView hxy d

theorem Dma.createRequestFailure_streamView (d : Dma) : (d.createRequestFailure x).streamView y = d.streamView y :=
  Dma.modStream_streamView hxy _ d

end

/-- Stream `y` of controller `k` shows in `t` what it showed in `s`. -/
def SameStream (k : Nat) (y : StreamId) (s t : State) : Prop :=
  t.dmas[k]?.map (Dma.streamView y) = s.dmas[k]?.map (Dma.streamView y)

theorem SameStream.of_dmas_eq {k : Nat} {y : StreamId} {s t : State} (h : t.dmas = s.dmas) : SameStream k y s t := by
  rw [SameStream, h]

theorem SameStream.trans {k : Nat} {y : StreamId} {s t u : State} (h : SameStream k y s t) (h' : SameStream k y t u) :
    SameStream k y s u :=
  Eq.trans h' h

section
variable {k k' : Nat} {x y : StreamId} (hne : (k', y) ≠ (k, x))
include hne

/-- A change at another stream leaves the view: either it is at another controller, or it leaves its other streams. -/
theorem SameStream.modDma {f : Dma → Dma} (hf : x ≠ y → ∀ d, (f d).streamView y = d.streamView y) (s : State) :
    SameStream k' y s (s.modDma k f) := by
  rw [SameStream, State.modDma_dmas, List.getElem?_modify]
  by_cases hk : k = k'
  · have hxy : x ≠ y := fun e => hne (by rw [hk, e])
    cases s.dmas[k']? with
    | none => rfl
    | some d => simp [hk, hf hxy d]
  · simp [hk]

theorem selectTransfer_sameStream {m} {w w' : Work} (h : selectTransfer k x m w = .ok w') :
    SameStream k' y w.st w'.st := by
  obtain ⟨-, ⟨-, rfl⟩ | ⟨-, -, w₁, hcopy, rfl⟩ | ⟨-, -, w₁, hcopy, rfl⟩⟩ := selectTransfer_ok h
  · exact .modDma hne Dma.createRequestFailure_streamView w.st
  · exact (SameStream.of_dmas_eq (copyItems_frame hcopy).dmas).trans (.modDma hne Dma.finishBurst_streamView w₁.st)
  · exact (SameStream.of_dmas_eq (copyItem_frame hcopy).dmas).trans (.modDma hne Dma.finishItem_streamView w₁.st)

theorem dmaReq_sameStream {v} {w w' : Work} (h : dmaReq k x v w = .ok w') : SameStream k' y w.st w'.st := by
  have hlatch := SameStream.modDma hne (fun hxy => Dma.modStream_streamView hxy fun m => { m with req := v }) w.st
  obtain ⟨d, -, ⟨-, -, -, hsel⟩ | ⟨-, rfl⟩⟩ := dmaReq_ok h
  · exact hlatch.trans (selectTransfer_sameStream hne hsel)
  · exact hlatch

end

/-! ### The cascade (R382) -/

/-- A cascade whose pending events all go to wired inputs leaves every unwired stream: no event of it, and none that it raises,
is for that stream. -/
theorem deliver_sameStream {n k : Nat} {y : StreamId} {w : Work} {t : State} (h : deliver n w = .ok t)
    (hpending : w.PendingWired) (hy : w.st.wired k y = false) : SameStream k y w.st t := by
  induction n generalizing w with
  | zero =>
    obtain ⟨s, _ | ⟨v, rest⟩⟩ := w
    · cases h; exact rfl
    · cases h
  | succ n ih =>
    obtain ⟨s, _ | ⟨v, rest⟩⟩ := w
    · cases h; exact rfl
    · rw [deliver] at h
      split at h
      · next w₁ hreq =>
        have hne : (k, y) ≠ (v.dma, v.stream) := by
          rintro ⟨⟩
          exact Bool.false_ne_true (hy.symm.trans (hpending v List.mem_cons_self))
        have hpending₁ := dmaReq_pendingWired hreq fun u hu => hpending u (List.mem_cons_of_mem v hu)
        have hy₁ : w₁.st.wired k y = false := by rw [(dmaReq_samePlatform hreq).wired]; exact hy
        exact (dmaReq_sameStream hne hreq).trans (ih h hpending₁ hy₁)
      · cases h

/-- Settles O60: the event itself is for another stream, and so are the events of its cascade. -/
theorem requestLeavesUnwiredStreamsAlone : Obligations.RequestLeavesUnwiredStreamsAlone := by
  intro s t k k' x y v d d' h hne hy hd hd'
  obtain ⟨w, hreq, hdel⟩ := exec_dmaReq_ok h
  have hpending : w.PendingWired := dmaReq_pendingWired hreq fun _ hu => absurd hu List.not_mem_nil
  have hy' : w.st.wired k' y = false := by rw [(dmaReq_samePlatform hreq).wired]; exact hy
  have hsame : SameStream k' y s t := (dmaReq_sameStream hne hreq).trans (deliver_sameStream hdel hpending hy')
  rw [SameStream, hd, hd', Option.map_some, Option.map_some] at hsame
  exact Dma.streamView_eq_iff.1 (Option.some.inj hsame)

end Sys2Proof.Machine
end

