-- ==== Sys2Proof/Proofs/DmaSync.lean ====
section
/-! The sync step of the DMA controller (R268): what one step makes of the queue and the IRQ outputs, and how a drain empties
the queue (R151, R386). -/

namespace Sys2Proof.Machine

/-! ### One sync step (R268) -/

section
variable {s : State} {k : Nat} {d : Dma} {x : StreamId} {rest : List StreamId}

/-- A sync step stores what `Dma.sync` makes of the controller. -/
theorem exec_dmaSync_next (hd : s.dmas[k]? = some d) :
    exec (.dmaSync k) s = .next { s with dmas := s.dmas.set k d.sync } := by
  rw [← State.modDma_eq Dma.sync hd]
  exact onDma_some hd _

theorem Dma.sync_of_empty (h : d.dq = []) : d.sync = d := by
  rw [Dma.sync, h]

theorem Dma.sync_of_head (h : d.dq = x :: rest) : d.sync = { d with dq := rest, irq := d.irq.set x true } := by
  rw [Dma.sync, h]

end

/-- Settles O22, by whether the queue is empty. -/
theorem dmaSyncAssertsTheHeadIrq : Obligations.DmaSyncAssertsTheHeadIrq := by
  intro s k d hd
  refine ⟨fun hempty => ?_, fun x rest hhead => ?_⟩
  · rw [exec_dmaSync_next hd, Dma.sync_of_empty hempty, set_self hd]
  · rw [exec_dmaSync_next hd, Dma.sync_of_head hhead]

/-! ### Draining the queue (R151, R386) -/

section
variable {s : State} {k : Nat} {d : Dma} {x : StreamId} {rest : List StreamId}

/-- `d'` is `d` with its queue emptied and exactly the queued streams' IRQ outputs asserted besides those already high. -/
structure Dma.Drained (d d' : Dma) : Prop where
  dq : d'.dq = []
  site : d'.site = d.site
  streams : d'.streams = d.streams
  fin : d'.fin = d.fin
  irq : ∀ x : StreamId, d'.irq[x] = (d.irq[x] || decide (x ∈ d.dq))

theorem Dma.drained_of_empty (h : d.dq = []) : d.Drained d :=
  ⟨h, rfl, rfl, rfl, fun x => by simp [h]⟩

/-- A sync step of a nonempty queue and the drain of what it leaves are together the drain of the whole queue. -/
theorem Dma.Drained.of_sync {d' : Dma} (hhead : d.dq = x :: rest) (h : d.sync.Drained d') : d.Drained d' where
  dq := h.dq
  site := h.site.trans d.sync_site
  streams := h.streams.trans d.sync_streams
  fin := h.fin.trans d.sync_fin
  irq y := by
    have hrest : d.sync.dq = rest := by rw [Dma.sync_of_head hhead]
    rw [h.irq, Dma.sync_irq, hrest, hhead, List.head?_cons]
    simp [Bool.or_assoc, eq_comm (a := y), beq_eq_decide]

/-- A drain of a nonempty queue begins with one sync step. -/
theorem drainDma_succ (fuel : Nat) (hd : s.dmas[k]? = some d) (hhead : d.dq = x :: rest) :
    drainDma k (fuel + 1) s = drainDma k fuel { s with dmas := s.dmas.set k d.sync } := by
  rw [drainDma, hd, Option.map_some, hhead]
  simp only [step_present_encode (i := .dmaSync k) rfl, exec_dmaSync_next hd]

/-- As many sync steps as the queue is long drain it. -/
theorem drainDma_drained {n : Nat} (hd : s.dmas[k]? = some d) (hn : d.dq.length = n) :
    ∃ d', drainDma k n s = .next { s with dmas := s.dmas.set k d' } ∧ d.Drained d' := by
  induction n generalizing s d with
  | zero => exact ⟨d, by rw [set_self hd]; rfl, Dma.drained_of_empty (List.length_eq_zero_iff.1 hn)⟩
  | succ n ih =>
    obtain ⟨x, rest, hhead⟩ := List.exists_cons_of_length_eq_add_one hn
    have hk : k < s.dmas.length := (List.getElem?_eq_some_iff.1 hd).1
    have hlen : d.sync.dq.length = n := by
      rw [Dma.sync_of_head hhead]
      rw [hhead] at hn
      exact Nat.succ.inj hn
    obtain ⟨d', hdrain, hdrained⟩ :=
      ih (s := { s with dmas := s.dmas.set k d.sync }) (List.getElem?_set_self hk) hlen
    exact ⟨d', by rw [drainDma_succ n hd hhead, hdrain, List.set_set], hdrained.of_sync hhead⟩

end

/-- Settles O23, by induction on the length of the queue: each sync step takes its head. -/
theorem drainAssertsEveryQueuedIrq : Obligations.DrainAssertsEveryQueuedIrq := by
  intro s k d hd
  obtain ⟨d', hdrain, h⟩ := drainDma_drained hd rfl
  exact ⟨d', hdrain, h.dq, h.site, h.streams, h.fin, h.irq⟩

end Sys2Proof.Machine
end

