-- ==== Sys2Proof/Proofs/I2cLines.lean ====
section
/-! The I²C flags and lines as functions of the state (R301, R302), and the I²C transactions whose line changes start no
transfer or that change no line (R303, R382). -/

namespace Sys2Proof.Machine

/-! ### Flags and lines (R301, R302) -/

section
variable (c : I2c)

theorem I2c.inSr_iff : c.inSr = true ↔ c.st = .awaitingSr1Read ∨ c.st = .awaitingSr2Read := by
  simp [I2c.inSr]

theorem I2c.sb_iff : c.sb = true ↔ c.st = .awaitingAddress := by
  simp [I2c.sb]

theorem I2c.rxne_iff : c.rxne = true ↔ c.st = .receivingData ∧ c.rxq ≠ [] := by
  simp [I2c.rxne]

theorem I2c.txe_iff : c.txe = true ↔ (c.st = .awaitingData ∧ c.txq = []) ∨
    (c.rw = false ∧ (c.st = .awaitingSr1Read ∨ c.st = .awaitingSr2Read)) := by
  simp [I2c.txe, I2c.inSr_iff]

/-- BTF in each direction: past the ADDR states TxE means an empty `TXQ` (R301). -/
theorem I2c.btf_iff : c.btf = true ↔ (c.rw = true ∧ c.st = .receivingData ∧ c.rxq ≠ []) ∨
    (c.rw = false ∧ c.st = .awaitingData ∧ c.txq = []) := by
  rw [I2c.btf, Bool.and_eq_true, Bool.or_eq_true, beq_iff_eq, beq_iff_eq]
  cases hrw : c.rw
  · rw [if_neg Bool.false_ne_true, I2c.txe_iff]
    cases hst : c.st <;> simp
  · rw [if_pos rfl, I2c.rxne_iff]
    cases hst : c.st <;> simp

theorem I2c.dmaTx_iff : c.dmaTx = true ↔ c.dmaen = true ∧ c.st = .awaitingData ∧ c.txq = [] := by
  rw [I2c.dmaTx, Bool.and_eq_true, Bool.and_eq_true, beq_iff_eq, I2c.txe_iff]
  cases hst : c.st <;> simp

theorem I2c.dmaRx_iff : c.dmaRx = true ↔ c.dmaen = true ∧ c.st = .receivingData ∧ c.rxq ≠ [] := by
  rw [I2c.dmaRx, Bool.and_eq_true, Bool.and_eq_true, beq_iff_eq, I2c.rxne_iff]
  tauto

theorem I2c.erIrq_iff : c.erIrq = true ↔ c.iterren = true ∧ c.af = true := by
  rw [I2c.erIrq, Bool.and_eq_true]

/-- EV_IRQ: TxE of the ADDR states adds nothing, since ADDR itself raises the line there. -/
theorem I2c.evIrq_iff : c.evIrq = true ↔ c.itevten = true ∧
    (c.st = .awaitingAddress ∨ c.st = .awaitingSr1Read ∨ c.st = .awaitingSr2Read ∨
      (c.rw = true ∧ c.st = .receivingData ∧ c.rxq ≠ []) ∨ (c.rw = false ∧ c.st = .awaitingData ∧ c.txq = []) ∨
      (c.itbufen = true ∧
        ((c.st = .awaitingData ∧ c.txq = []) ∨ (c.st = .receivingData ∧ c.rxq ≠ [])))) := by
  simp only [I2c.evIrq, Bool.and_eq_true, Bool.or_eq_true, I2c.addr, I2c.sb_iff, I2c.inSr_iff, I2c.btf_iff, I2c.txe_iff,
    I2c.rxne_iff]
  tauto

end

/-- Settles O30, line by line. -/
theorem linesFollowTheState : Obligations.LinesFollowTheState :=
  fun c => ⟨c.dmaTx_iff, c.dmaRx_iff, c.erIrq_iff, c.evIrq_iff⟩

/-! ### When the lines to the DMA are low -/

section
variable {c c' : I2c}

theorem I2c.dmaTx_low (h : c.st ≠ .awaitingData) : c.dmaTx = false := by
  rw [← Bool.not_eq_true, I2c.dmaTx_iff]
  exact fun ⟨_, hst, _⟩ => h hst

theorem I2c.dmaRx_low (h : c.st ≠ .receivingData) : c.dmaRx = false := by
  rw [← Bool.not_eq_true, I2c.dmaRx_iff]
  exact fun ⟨_, hst, _⟩ => h hst

/-- No line changes between two states that move no data. -/
theorem lineEvents_outside_data (hc : c.st ≠ .awaitingData ∧ c.st ≠ .receivingData)
    (hc' : c'.st ≠ .awaitingData ∧ c'.st ≠ .receivingData) : lineEvents c c' = [] :=
  lineEvents_same ((I2c.dmaTx_low hc'.1).trans (I2c.dmaTx_low hc.1).symm)
    ((I2c.dmaRx_low hc'.2).trans (I2c.dmaRx_low hc.2).symm)

/-- No line changes while DMAEN is 0. -/
theorem lineEvents_dma_disabled (hc : c.dmaen = false) (hc' : c'.dmaen = false) : lineEvents c c' = [] :=
  lineEvents_same (by simp [I2c.dmaTx, hc, hc']) (by simp [I2c.dmaRx, hc, hc'])

end

/-! ### Actions without a dispatch (R303, R382) -/

/-- More line events than `CASCADE_LIMIT` refuse the action that raised them. -/
theorem i2cStep_too_many {s : State} {j : Nat} {c c' : I2c} {e' : Children} (hq : s.QuietEvents (lineEvents c c'))
    (h : s.cascadeLimit < (lineEvents c c').length) : i2cStep j c c' e' s = .refused .cascadeLimit := by
  have hdel : deliver s.cascadeLimit ⟨{ s with i2cs := s.i2cs.set j c', child := e' }, lineEvents c c'⟩ =
      .error .cascadeLimit := deliver_too_many hq h
  simp [i2cStep, settle, Work.commitI2c, hdel]

/-- Settles O31, by whether the events are within the limit. -/
theorem quietLineChangesOnlySetLatches : Obligations.QuietLineChangesOnlySetLatches :=
  fun _ _ _ _ _ hq => ⟨fun hlimit => i2cStep_noDispatch ⟨hq, hlimit⟩, i2cStep_too_many hq⟩

section
variable {s : State} {j : Nat} {c c' : I2c} {r : I2cReg} {v : Word} {e' : Children}

/-- A 32-bit read of an I²C register that changes no line. -/
theorem i2cRead32_quiet (hc : s.i2cs[j]? = some c) (hread : c.readReg r = (v, c')) (h : lineEvents c c' = []) :
    i2cRead32 j r s = .next { s with results := s.results ++ [⟨.word, v⟩], i2cs := s.i2cs.set j c' } := by
  rw [i2cRead32, onI2c_some hc, hread]
  exact i2cStep_quiet (s := s.addResult .word v) h

/-- A 32-bit write of an I²C register that changes no line. -/
theorem i2cWrite32_quiet (hc : s.i2cs[j]? = some c) (hwrite : i2cWriteReg j r v c s.child = (c', e'))
    (h : lineEvents c c' = []) :
    i2cWrite32 j r v s = .next { s with i2cs := s.i2cs.set j c', child := e' } := by
  rw [i2cWrite32, onI2c_some hc, hwrite]
  exact i2cStep_quiet h

theorem exec_i2cRd32Dr (j) (s : State) : exec (.i2cRd32Dr j) s = i2cRead32 j .dr s := rfl
theorem exec_i2cRd32Sr1 (j) (s : State) : exec (.i2cRd32Sr1 j) s = i2cRead32 j .sr1 s := rfl
theorem exec_i2cRd32Sr2 (j) (s : State) : exec (.i2cRd32Sr2 j) s = i2cRead32 j .sr2 s := rfl
theorem exec_i2cWr32Cr1 (j v) (s : State) : exec (.i2cWr32Cr1 j v) s = i2cWrite32 j .cr1 v s := rfl
theorem exec_i2cWr32Cr2 (j v) (s : State) : exec (.i2cWr32Cr2 j v) s = i2cWrite32 j .cr2 v s := rfl
theorem exec_i2cWr32Dr (j v) (s : State) : exec (.i2cWr32Dr j v) s = i2cWrite32 j .dr v s := rfl

end

end Sys2Proof.Machine
end

