-- ==== Sys2Proof/Proofs/I2cStatus.lean ====
section
/-! The status reads of the I²C controller (R310, R311, R346, R348): ADDR from the address phase until SR2 is read
(R319). -/

namespace Sys2Proof.Machine

/-! ### What the reads leave (R310, R311) -/

section
variable {c : I2c}

/-- SR1 shows ADDR at bit 1 (R346). -/
theorem I2c.sr1Value_addr (c : I2c) : c.sr1Value.getLsbD 1 = c.addr := by
  simp only [I2c.sr1Value, BitVec.getLsbD_or, bitAt_bit _ _ (show 1 < 32 by decide)]
  simp

/-- An SR1 read in an ADDR state clears AF and leaves AwaitingSr2Read (R310). -/
theorem I2c.readSr1_inSr (h : c.inSr = true) :
    c.readReg .sr1 = (c.sr1Value, { c with af := false, st := .awaitingSr2Read }) := by
  obtain h | h := c.inSr_iff.1 h <;> simp [I2c.readReg, I2c.readSr1, I2c.sr1ReadStep, h]

theorem I2c.sr2ReadStep_write (hst : c.st = .awaitingSr2Read) (hrw : c.rw = false) :
    c.sr2ReadStep = { c with st := .awaitingData } := by
  simp [I2c.sr2ReadStep, hst, hrw]

/-- An SR2 read in AwaitingSr2Read leaves the ADDR states and keeps DMAEN (R311). -/
theorem I2c.sr2ReadStep_leaves (hst : c.st = .awaitingSr2Read) :
    c.sr2ReadStep.inSr = false ∧ c.sr2ReadStep.dmaen = c.dmaen := by
  cases hrw : c.rw <;> simp [I2c.sr2ReadStep, I2c.inSr, hst, hrw]

end

/-! ### ADDR until SR2 is read (R319) -/

/-- What a read that changes no line leaves: the value answered and the controller stepped. -/
def State.afterRead (j : Nat) (v : Word) (c' : I2c) (s : State) : State :=
  { s with results := s.results ++ [⟨.word, v⟩], i2cs := s.i2cs.set j c' }

section
variable {s : State} {j : Nat} {c : I2c}

theorem State.afterRead_results (j v) (c' : I2c) (s : State) :
    (s.afterRead j v c').results = s.results ++ [⟨.word, v⟩] := rfl

theorem State.afterRead_self (v) (c' : I2c) (hc : s.i2cs[j]? = some c) : (s.afterRead j v c').i2cs[j]? = some c' :=
  List.getElem?_set_self (List.getElem?_eq_some_iff.1 hc).1

/-- With DMAEN = 0 a read of SR1 in an ADDR state changes no line. -/
theorem exec_i2cRd32Sr1_dma_disabled (hc : s.i2cs[j]? = some c) (hdma : c.dmaen = false) :
    exec (.i2cRd32Sr1 j) s = .next (s.afterRead j c.sr1Value (c.readReg .sr1).2) := by
  have hkept : (c.readReg .sr1).2.dmaen = false := by
    simp only [I2c.readReg, I2c.readSr1, I2c.sr1ReadStep]
    split <;> exact hdma
  exact i2cRead32_quiet hc rfl (lineEvents_dma_disabled hdma hkept)

/-- With DMAEN = 0 the read of SR2 that leaves the ADDR states changes no line. -/
theorem exec_i2cRd32Sr2_dma_disabled (hc : s.i2cs[j]? = some c) (hst : c.st = .awaitingSr2Read)
    (hdma : c.dmaen = false) :
    exec (.i2cRd32Sr2 j) s = .next (s.afterRead j c.sr2Value c.sr2ReadStep) :=
  i2cRead32_quiet hc rfl (lineEvents_dma_disabled hdma ((I2c.sr2ReadStep_leaves hst).2.trans hdma))

/-- Any number of SR1 reads from an ADDR state show ADDR each time and end in AwaitingSr2Read. -/
theorem runOps_sr1_reads (n : Nat) (hc : s.i2cs[j]? = some c) (hsr : c.inSr = true) (hdma : c.dmaen = false) :
    ∃ (t : State) (c' : I2c) (vs : List Word),
      runOps (List.replicate (n + 1) (encode (.i2cRd32Sr1 j))) s = .next t ∧
      t.i2cs[j]? = some c' ∧ c'.st = .awaitingSr2Read ∧ c'.dmaen = false ∧
      vs.length = n + 1 ∧ t.results = s.results ++ vs.map (fun v => ⟨.word, v⟩) ∧
      ∀ v ∈ vs, v.getLsbD 1 = true := by
  have hread := exec_i2cRd32Sr1_dma_disabled hc hdma
  rw [I2c.readSr1_inSr hsr] at hread
  have hc₁ := State.afterRead_self c.sr1Value { c with af := false, st := .awaitingSr2Read } hc
  have haddr : c.sr1Value.getLsbD 1 = true := c.sr1Value_addr.trans hsr
  induction n generalizing s c with
  | zero =>
    refine ⟨_, _, [c.sr1Value], ?_, hc₁, rfl, hdma, rfl, State.afterRead_results .., by simpa using haddr⟩
    simp only [List.replicate, runOps, step_present_encode (i := .i2cRd32Sr1 j) rfl, hread]
  | succ n ih =>
    have hread₁ := exec_i2cRd32Sr1_dma_disabled hc₁ hdma
    obtain ⟨t, c', vs, hrun, hc', hst', hdma', hlen, hres, hall⟩ :=
      ih hc₁ rfl hdma hread₁ (State.afterRead_self _ _ hc₁) (I2c.sr1Value_addr _)
    refine ⟨t, c', c.sr1Value :: vs, ?_, hc', hst', hdma', by rw [List.length_cons, hlen], ?_,
      List.forall_mem_cons.2 ⟨haddr, hall⟩⟩
    · rw [List.replicate_succ]
      simp only [runOps, step_present_encode (i := .i2cRd32Sr1 j) rfl, hread]
      exact hrun
    · rw [hres, State.afterRead_results, List.append_assoc]
      rfl

end

/-- Settles O34: the SR1 reads end in AwaitingSr2Read, the SR2 read leaves the ADDR states, and the last SR1 read shows
that. -/
theorem addrReadsOneUntilSr2IsRead : Obligations.AddrReadsOneUntilSr2IsRead := by
  intro s j c n hc hst hdma
  obtain ⟨t, c', vs, hrun, hc', hst', hdma', hlen, hres, haddr⟩ :=
    runOps_sr1_reads n hc (c.inSr_iff.2 (.inl hst)) hdma
  obtain ⟨hleft, hkept⟩ := I2c.sr2ReadStep_leaves hst'
  have hsr2 := exec_i2cRd32Sr2_dma_disabled hc' hst' hdma'
  have hsr1 := exec_i2cRd32Sr1_dma_disabled (State.afterRead_self c'.sr2Value c'.sr2ReadStep hc') (hkept.trans hdma')
  have hrun' : runOps [encode (.i2cRd32Sr2 j), encode (.i2cRd32Sr1 j)] t =
      .next ((t.afterRead j c'.sr2Value c'.sr2ReadStep).afterRead j c'.sr2ReadStep.sr1Value
        (c'.sr2ReadStep.readReg .sr1).2) := by
    simp only [runOps, step_present_encode (i := .i2cRd32Sr1 j) rfl, step_present_encode (i := .i2cRd32Sr2 j) rfl,
      hsr2, hsr1]
  exact ⟨_, vs, c'.sr2Value, c'.sr2ReadStep.sr1Value, (runOps_append hrun).trans hrun', hlen,
    by simp [State.afterRead_results, hres], haddr, (I2c.sr1Value_addr _).trans hleft⟩

end Sys2Proof.Machine
end

