-- ==== Sys2Proof/Proofs/I2cData.lean ====
section
/-! Accesses of the I²C data register (R309, R312, R313, R344, R345): the address byte, the bytes sent and the bytes
received. -/

namespace Sys2Proof.Machine

/-! ### Writes of DR (R309, R312, R345) -/

section
variable {c : I2c} (v : Word)

theorem I2c.writeDr_address (h : c.st = .awaitingAddress) : c.writeDr v = c.addressWrite v := by
  rw [I2c.writeDr, h]

theorem I2c.writeDr_data (h : c.st = .awaitingData) : c.writeDr v = c.dataWrite v := by
  rw [I2c.writeDr, h]

/-- The four states that take no data drop the write (R345). -/
theorem I2c.writeDr_dropped (hdata : c.st ≠ .awaitingData) (haddr : c.st ≠ .awaitingAddress) : c.writeDr v = c := by
  unfold I2c.writeDr
  split
  case h_1 h => exact absurd h haddr
  case h_2 h => exact absurd h hdata
  all_goals rfl

theorem I2c.dataWrite_eq (c : I2c) :
    c.dataWrite v = { c with txq := c.txq ++ [v.extractLsb' 0 8], dq := c.dq ++ [.flush] } := by
  rw [I2c.dataWrite, BitVec.setWidth_eq_extractLsb' (by decide)]

end

theorem i2cWriteReg_dr (j v c) (e : Children) : i2cWriteReg j .dr v c e = (c.writeDr v, e) := rfl

/-- Settles O41: the address phase leads to a state that moves no data, so no line changes. -/
theorem addressWriteSelectsOrFails : Obligations.AddressWriteSelectsOrFails := by
  intro s j c v hc hst
  have hquiet {c' : I2c} (hwrite : c.addressWrite v = c')
      (hc' : c'.st ≠ .awaitingData ∧ c'.st ≠ .receivingData) :
      exec (.i2cWr32Dr j v) s = .next { s with i2cs := s.i2cs.set j c' } := by
    refine i2cWrite32_quiet (r := .dr) (v := v) hc ?_ (lineEvents_outside_data (by simp [hst]) hc')
    rw [i2cWriteReg_dr, I2c.writeDr_address v hst, hwrite]
  exact ⟨fun hchild => hquiet (if_pos hchild) ⟨nofun, nofun⟩, fun hchild => hquiet (if_neg hchild) ⟨nofun, nofun⟩⟩

/-- Settles O42, by whether the state takes data. -/
theorem dataWriteQueuesOneByte : Obligations.DataWriteQueuesOneByte := by
  rintro s j c c' v hc
  refine ⟨?_, fun hdata haddr => ?_⟩
  · rintro hst rfl hquiet
    refine i2cWrite32_noDispatch (r := .dr) (v := v) hc ?_ hquiet
    rw [i2cWriteReg_dr, I2c.writeDr_data v hst, I2c.dataWrite_eq]
  · rw [exec_i2cWr32Dr, i2cWrite32, onI2c_some hc, i2cWriteReg_dr, I2c.writeDr_dropped v hdata haddr]
    exact i2cStep_same hc

/-! ### Reads of DR (R313, R344) -/

/-- DataRead in one equation: the oldest byte or 0 is read, and a pull is deferred when no byte is left (R313). -/
theorem I2c.dataRead_eq (c : I2c) : c.dataRead = ((c.rxq.headD 0).setWidth 32,
    { c with rxq := c.rxq.tail, dq := if c.rxq.tail = [] then c.dq ++ [.pull] else c.dq }) := by
  unfold I2c.dataRead
  split <;> simp_all

theorem I2c.readReg_dr (c : I2c) : c.readReg .dr = if c.st = .receivingData then c.dataRead else (0, c) := rfl

/-- Settles O43, by whether the state has data to read. -/
theorem dataReadDequeuesOneByte : Obligations.DataReadDequeuesOneByte := by
  rintro s j c c' hc
  refine ⟨fun hst => ?_, ?_⟩
  · have hread : c.readReg .dr = (0, c) := (I2c.readReg_dr c).trans (if_neg hst)
    rw [exec_i2cRd32Dr, i2cRead32, onI2c_some hc, hread]
    exact i2cStep_same (s := s.addResult .word 0) hc
  · rintro hst rfl hquiet
    refine i2cRead32_noDispatch hc ?_ hquiet
    rw [I2c.readReg_dr, if_pos hst, I2c.dataRead_eq]

end Sys2Proof.Machine
end

