-- ==== Sys2Proof/Proofs/I2cSync.lean ====
section
/-! The sync step of the I²C controller (R314, R315, R352): what a pull and a flush make of the answer of the selected child
(R304). -/

namespace Sys2Proof.Machine

/-! ### Child calls by their answer (R304) -/

section
variable {j : Nat} {a : ChildAddr} {op : ChildOp} {c : I2c} {e e₁ e' : Children} {ans : Option (List Byte)}

/-- A call takes the next answer and records it. -/
theorem childCall_of_draw (j : Nat) (a : ChildAddr) (op : ChildOp) (h : e.draw = (ans, e₁)) :
    childCall j a op e = (answerOf op ans, { e₁ with calls := e.calls ++ [⟨j, a, op, answerOf op ans⟩] }) := by
  have hcalls : e₁.calls = e.calls := by rw [← e.draw_calls, h]
  rw [childCall, h, hcalls]

/-- A `ChildWrite` empties `TXQ` exactly if it is answered (R315, R317). -/
theorem deliverTx_of_call (h : childCall j a (.write c.txq) e = (ans, e')) :
    deliverTx j a c e = (ans.isSome, if ans.isSome then { c with txq := [] } else c.abort, e') := by
  unfold deliverTx
  rw [h]
  cases ans <;> rfl

/-- A pull appends the batch that the child answers (R314). -/
theorem pullAction_batch {bytes : List Byte} (hst : c.st = .receivingData) (hsel : c.sel = some a)
    (h : childCall j a .read e = (some bytes, e')) : pullAction j c e = ({ c with rxq := c.rxq ++ bytes }, e') := by
  rw [pullAction, hst, hsel]
  simp only [h]

/-- A pull that the child fails aborts (R314, R316). -/
theorem pullAction_abort (hst : c.st = .receivingData) (hsel : c.sel = some a)
    (h : childCall j a .read e = (none, e')) : pullAction j c e = (c.abort, e') := by
  rw [pullAction, hst, hsel]
  simp only [h]

/-- A pull outside ReceivingData or with no child does nothing (R314, D43). -/
theorem pullAction_guarded (h : c.st ≠ .receivingData ∨ c.sel = none) : pullAction j c e = (c, e) := by
  obtain hsame | ⟨a, hst, hsel, -⟩ := pullAction_cases j c e
  · exact hsame
  · simp [hst, hsel] at h

/-- A flush with bytes to send and a child is one `ChildWrite` of all of them (R315). -/
theorem flushAction_of_call (hq : c.txq ≠ []) (hsel : c.sel = some a)
    (h : childCall j a (.write c.txq) e = (ans, e')) :
    flushAction j c e = (if ans.isSome then { c with txq := [] } else c.abort, e') := by
  obtain ⟨b, bs, hcons⟩ := List.exists_cons_of_ne_nil hq
  have hdeliver : flushAction j c e = (deliverTx j a c e).2 := by rw [flushAction, hsel, hcons]
  rw [hdeliver, deliverTx_of_call h]

/-- A flush with an empty `TXQ` or no child does nothing (R315, D43). -/
theorem flushAction_guarded (h : c.txq = [] ∨ c.sel = none) : flushAction j c e = (c, e) := by
  obtain hsame | ⟨a, hq, hsel, -⟩ := flushAction_cases j c e
  · exact hsame
  · simp [hq, hsel] at h

end

/-! ### The sync step (R352) -/

section
variable {s : State} {j : Nat} {c c' : I2c} {e e' : Children} {rest : List I2cAction}

theorem i2cSyncAction_empty (h : c.dq = []) : i2cSyncAction j c e = (c, e) := by
  rw [i2cSyncAction, h]

theorem i2cSyncAction_pull (h : c.dq = .pull :: rest) : i2cSyncAction j c e = pullAction j { c with dq := rest } e := by
  rw [i2cSyncAction, h]

theorem i2cSyncAction_flush (h : c.dq = .flush :: rest) :
    i2cSyncAction j c e = flushAction j { c with dq := rest } e := by
  rw [i2cSyncAction, h]

/-- A sync step performs the sync action of its controller. -/
theorem exec_i2cSync (hc : s.i2cs[j]? = some c) (h : i2cSyncAction j c s.child = (c', e')) :
    exec (.i2cSync j) s = i2cStep j c c' e' s := by
  have hrun : exec (.i2cSync j) s = execI2cSync j s := rfl
  rw [hrun, execI2cSync, onI2c_some hc, h]

/-- A sync step that only removes the head of the queue. -/
theorem exec_i2cSync_guarded (hc : s.i2cs[j]? = some c)
    (h : i2cSyncAction j c s.child = ({ c with dq := rest }, s.child)) :
    exec (.i2cSync j) s = .next { s with i2cs := s.i2cs.set j { c with dq := rest } } :=
  (exec_i2cSync hc h).trans (i2cStep_quiet (lineEvents_same rfl rfl))

end

/-- Settles O44, by the guards and then by the answer. -/
theorem syncPullsABatch : Obligations.SyncPullsABatch := by
  intro s j c c' rest hc hdq
  refine ⟨fun hguard => exec_i2cSync_guarded hc ((i2cSyncAction_pull hdq).trans (pullAction_guarded hguard)), ?_⟩
  intro a ans e₁ hst hsel hdraw hc' hquiet
  have hcall := childCall_of_draw j a .read hdraw
  refine (exec_i2cSync hc ((i2cSyncAction_pull hdq).trans ?_)).trans (i2cStep_noDispatch hquiet)
  rw [hc']
  cases ans with
  | some bytes => exact pullAction_batch hst hsel hcall
  | none => exact pullAction_abort hst hsel hcall

/-- Settles O45, by the queue, the guards and then the answer. -/
theorem syncFlushesTheQueue : Obligations.SyncFlushesTheQueue := by
  intro s j c c' hc
  refine ⟨fun hempty => (exec_i2cSync hc (i2cSyncAction_empty hempty)).trans (i2cStep_same hc), fun rest hdq => ?_⟩
  refine ⟨fun hguard => exec_i2cSync_guarded hc ((i2cSyncAction_flush hdq).trans (flushAction_guarded hguard)), ?_⟩
  intro a ans e₁ hq hsel hdraw hc' hquiet
  have hcall := childCall_of_draw j a (.write c.txq) hdraw
  have hflush := flushAction_of_call (c := { c with dq := rest }) hq hsel hcall
  refine (exec_i2cSync hc ((i2cSyncAction_flush hdq).trans (hflush.trans ?_))).trans (i2cStep_noDispatch hquiet)
  rw [hc']
  cases ans <;> rfl

end Sys2Proof.Machine
end

