-- ==== Sys2Proof/Proofs/I2cControl.lean ====
section
/-! Writes of the I²C control register CR1 (R306–R308, R316, R317, R341): the commit of a transaction by START and STOP, and
the soft reset. -/

namespace Sys2Proof.Machine

/-! ### EndTransaction (R317) -/

/-- The call history has no part in the answers (log entry 5). -/
theorem Children.draw_withCalls {e e₁ : Children} {ans : Option (List Byte)} (l : List ChildCall)
    (h : e.draw = (ans, e₁)) : ({ e with calls := l } : Children).draw = (ans, { e₁ with calls := l }) := by
  unfold Children.draw at h ⊢
  split at h <;> (cases h; simp_all)

/-- Whether the commit of the bytes `q` fails on the next two answers: `FinishTransmission` alone or the `Write` takes the
first, and `FinishTransmission` after a `Write` the second (R317). -/
def commitFails (q : List Byte) (a₁ a₂ : Option (List Byte)) : Bool := a₁.isNone || (!q.isEmpty && a₂.isNone)

section
variable {j : Nat} {a : ChildAddr} {c : I2c} {e e' : Children} {ans a₁ a₂ : Option (List Byte)}

/-- A `FinishTransmission` aborts unless it is answered (R317). -/
theorem deliverFinish_of_call (h : childCall j a .finish e = (ans, e')) :
    deliverFinish j a c e = (ans.isSome, if ans.isSome then c else c.abort, e') := by
  unfold deliverFinish
  rw [h]
  cases ans <;> rfl

theorem endTransaction_finish (hsel : c.sel = some a) (hq : c.txq = []) :
    endTransaction j c e = deliverFinish j a c e := by
  simp only [endTransaction, hsel, if_pos hq]

theorem endTransaction_write_failed {c' : I2c} (hsel : c.sel = some a) (hq : c.txq ≠ [])
    (h : deliverTx j a c e = (false, c', e')) : endTransaction j c e = (false, c', e') := by
  simp only [endTransaction, hsel, if_neg hq, h]

theorem endTransaction_write_done {c' : I2c} (hsel : c.sel = some a) (hq : c.txq ≠ [])
    (h : deliverTx j a c e = (true, c', e')) : endTransaction j c e = deliverFinish j a c' e' := by
  simp only [endTransaction, hsel, if_neg hq, h]

/-- EndTransaction with a child makes the calls of one commit, and aborts if one of them fails (R317). -/
theorem endTransaction_commits (hsel : c.sel = some a) (h : Commits j a c.txq e a₁ a₂ e') :
    endTransaction j c e =
      (!commitFails c.txq a₁ a₂, if commitFails c.txq a₁ a₂ then c.abort else { c with txq := [] }, e') := by
  obtain ⟨e₁, e₂, hdraw₁, hdraw₂, ⟨hq, rfl⟩ | ⟨hq, rfl, rfl⟩ | ⟨hq, hans, rfl⟩⟩ := h
  · have hkept : ({ c with txq := [] } : I2c) = c := by rw [← hq]
    rw [endTransaction_finish hsel hq, deliverFinish_of_call (childCall_of_draw j a .finish hdraw₁), hkept, hq]
    cases a₁ <;> rfl
  · exact endTransaction_write_failed hsel hq (deliverTx_of_call (childCall_of_draw j a (.write c.txq) hdraw₁))
  · obtain ⟨bytes, rfl⟩ := Option.ne_none_iff_exists'.1 hans
    have hwrite := deliverTx_of_call (childCall_of_draw j a (.write c.txq) hdraw₁)
    have hdraw := Children.draw_withCalls (e.calls ++ [⟨j, a, .write c.txq, some []⟩]) hdraw₂
    have hfinish := deliverFinish_of_call (c := { c with txq := [] }) (childCall_of_draw j a .finish hdraw)
    refine ((endTransaction_write_done hsel hq hwrite).trans hfinish).trans ?_
    rw [commitFails, List.isEmpty_eq_false_iff.2 hq]
    cases a₂ <;> simp [answerOf, I2c.abort]

end

/-! ### START and STOP (R306, R307) -/

/-- What START and STOP leave of a controller whose transaction they committed, in state `st`. -/
def I2c.committed (st : I2cState) (failed : Bool) (c : I2c) : I2c :=
  { c with txq := [], rxq := [], sel := none, af := c.af || failed, st := st }

/-- START, then STOP, as a CR1 write makes them (R341). -/
def startStop (j : Nat) (start stop : Bool) (c : I2c) (e : Children) : I2c × Children :=
  let p := if start then startCondition j c e else (c, e)
  if stop then stopCondition j p.1 p.2 else p

theorem i2cWriteReg_cr1 (j v c) (e : Children) : i2cWriteReg j .cr1 v c e =
    let q := startStop j (v.getLsbD 8) (v.getLsbD 9) { c with ack := v.getLsbD 10 } e
    if v.getLsbD 15 then (q.1.softReset, q.2) else q := rfl

section
variable {j : Nat} {a : ChildAddr} {c : I2c} {e e' : Children} {a₁ a₂ : Option (List Byte)} {start stop : Bool}

/-- START before the first address byte only enters the address phase (R306). -/
theorem startCondition_before_address (h : c.st = .idle ∨ c.st = .awaitingAddress) :
    startCondition j c e = ({ c with st := .awaitingAddress }, e) := by
  obtain ⟨hidle, -⟩ | ⟨hsame, hst⟩ | ⟨-, hidle, haddr⟩ := startCondition_cases j c e
  · exact hidle
  · rw [hsame, ← hst]
  · exact absurd h (not_or.2 ⟨hidle, haddr⟩)

theorem startCondition_past_address (h : c.st ≠ .idle ∧ c.st ≠ .awaitingAddress) :
    startCondition j c e = repeatedStart j c e := by
  obtain ⟨-, hst⟩ | ⟨-, hst⟩ | ⟨hrepeat, -⟩ := startCondition_cases j c e
  · exact absurd hst h.1
  · exact absurd hst h.2
  · exact hrepeat

theorem repeatedStart_commits (hsel : c.sel = some a) (h : Commits j a c.txq e a₁ a₂ e') :
    repeatedStart j c e = (c.committed (if commitFails c.txq a₁ a₂ then .idle else .awaitingAddress)
      (commitFails c.txq a₁ a₂), e') := by
  rw [repeatedStart, endTransaction_commits hsel h]
  cases commitFails c.txq a₁ a₂ <;> simp [I2c.committed, I2c.abort]

theorem stopCondition_commits (hsel : c.sel = some a) (h : Commits j a c.txq e a₁ a₂ e') :
    stopCondition j c e = (c.committed .idle (commitFails c.txq a₁ a₂), e') := by
  rw [stopCondition, hsel]
  simp only [endTransaction_commits hsel h]
  cases commitFails c.txq a₁ a₂ <;> simp [I2c.committed, I2c.abort, I2c.stopped]

/-- STOP with no child selected calls none (R307). -/
theorem stopCondition_no_child (hsel : c.sel = none) : stopCondition j c e = (c.stopped, e) := by
  rw [stopCondition, hsel]

/-- START with no child selected calls none and selects none. -/
theorem startCondition_no_child (hsel : c.sel = none) :
    (startCondition j c e).1.sel = none ∧ (startCondition j c e).2 = e := by
  by_cases h : c.st = .idle ∨ c.st = .awaitingAddress
  · rw [startCondition_before_address h]
    exact ⟨hsel, rfl⟩
  · rw [startCondition_past_address (not_or.1 h), repeatedStart, endTransaction, hsel]
    exact ⟨rfl, rfl⟩

/-- Past the address phase START, STOP or both commit once: after START's commit STOP finds no child selected (R341,
D37). -/
theorem startStop_commits (hsel : c.sel = some a) (hst : c.st ≠ .idle ∧ c.st ≠ .awaitingAddress)
    (hany : start = true ∨ stop = true) (h : Commits j a c.txq e a₁ a₂ e') :
    startStop j start stop c e =
      (c.committed (if commitFails c.txq a₁ a₂ || stop then .idle else .awaitingAddress)
        (commitFails c.txq a₁ a₂), e') := by
  cases start
  · obtain rfl : stop = true := by simpa using hany
    rw [Bool.or_true, if_pos rfl]
    exact stopCondition_commits hsel h
  · have hstart := (startCondition_past_address hst).trans (repeatedStart_commits hsel h)
    cases stop
    · rw [Bool.or_false]
      exact hstart
    · rw [Bool.or_true, if_pos rfl]
      simp only [startStop, if_true, hstart]
      exact stopCondition_no_child rfl

/-- The children after START and STOP where there is a transaction to commit: those of one commit (R341). -/
theorem startStop_children_commit (hsel : c.sel = some a)
    (hcommit : stop = true ∨ start = true ∧ c.st ≠ .idle ∧ c.st ≠ .awaitingAddress)
    (h : Commits j a c.txq e a₁ a₂ e') : (startStop j start stop c e).2 = e' := by
  by_cases hst : c.st = .idle ∨ c.st = .awaitingAddress
  · obtain rfl := hcommit.resolve_right fun ⟨_, hpast⟩ => not_or.2 hpast hst
    cases start
    · exact congrArg Prod.snd (stopCondition_commits hsel h)
    · simp only [startStop, if_true, startCondition_before_address hst]
      exact congrArg Prod.snd (stopCondition_commits (c := { c with st := .awaitingAddress }) hsel h)
  · rw [startStop_commits hsel (not_or.1 hst) (hcommit.symm.imp_left And.left) h]

/-- START and STOP call no child where there is no transaction to commit (R306, R307). -/
theorem startStop_children_kept
    (h : c.sel = none ∨ stop = false ∧ (start = false ∨ c.st = .idle ∨ c.st = .awaitingAddress)) :
    (startStop j start stop c e).2 = e := by
  obtain hsel | ⟨rfl, hstart⟩ := h
  · unfold startStop
    extract_lets p
    have hp : p.1.sel = none ∧ p.2 = e := by
      unfold p; split
      · exact startCondition_no_child hsel
      · exact ⟨hsel, rfl⟩
    obtain ⟨hpsel, hpkept⟩ := hp
    split
    · rw [stopCondition_no_child hpsel]
      exact hpkept
    · exact hpkept
  · cases start
    · rfl
    · rw [startStop, if_pos rfl, startCondition_before_address (hstart.resolve_left nofun)]
      rfl

/-! ### The soft reset (R308) -/

theorem endTransaction_dq (j c) (e : Children) : (endTransaction j c e).2.1.dq = c.dq := by
  obtain ⟨-, h | ⟨-, h⟩⟩ | ⟨-, h⟩ := endTransaction_cases j c e <;> simp [h, I2c.abort]

theorem startCondition_dq (j c) (e : Children) : (startCondition j c e).1.dq = c.dq := by
  obtain ⟨h, -⟩ | ⟨h, -⟩ | ⟨h, -⟩ := startCondition_cases j c e <;> rw [h]
  obtain ⟨-, ⟨h, -⟩ | ⟨h, -⟩⟩ := repeatedStart_cases j c e <;> rw [h]
  · exact endTransaction_dq j c e
  · rfl

theorem stopCondition_dq (j c) (e : Children) : (stopCondition j c e).1.dq = c.dq := by
  obtain ⟨h, -⟩ | ⟨-, -, ⟨h, -⟩ | ⟨h, -⟩⟩ := stopCondition_cases j c e <;> rw [h]
  · rfl
  · exact endTransaction_dq j c e
  · rfl

/-- START and STOP keep what a soft reset keeps: the parameters and the deferred actions. -/
theorem startStop_softReset : (startStop j start stop c e).1.softReset = c.softReset := by
  have hsite : (startStop j start stop c e).1.site = c.site := by
    cases start <;> cases stop <;> simp [startStop]
  have hdq : (startStop j start stop c e).1.dq = c.dq := by
    cases start <;> cases stop <;> simp [startStop, startCondition_dq, stopCondition_dq]
  rw [I2c.softReset, I2c.softReset, hsite, hdq]

end

/-- Settles O39, by the commit that START and STOP make. -/
theorem stopAndRepeatedStartCommit : Obligations.StopAndRepeatedStartCommit := by
  rintro s j c c' a v a₁ a₂ e' hc hsel hidle haddr hreset hany hcommits rfl hquiet
  refine i2cWrite32_noDispatch (r := .cr1) (v := v) hc ?_ hquiet
  rw [i2cWriteReg_cr1, hreset, if_neg Bool.false_ne_true,
    startStop_commits (c := { c with ack := v.getLsbD 10 }) hsel ⟨hidle, haddr⟩ hany hcommits]
  simp only [I2c.committed, commitFails, Bool.or_assoc]

/-- Settles O40: whatever START and STOP made of the controller, the reset leaves the same; the children are theirs. -/
theorem softResetKeepsOnlyDeferredActions : Obligations.SoftResetKeepsOnlyDeferredActions := by
  rintro s j c c' v hc hreset rfl hquiet
  have hnext {e' : Children}
      (he' : (startStop j (v.getLsbD 8) (v.getLsbD 9) { c with ack := v.getLsbD 10 } s.child).2 = e') :
      exec (.i2cWr32Cr1 j v) s = .next (s.afterI2c j c c.softReset e') := by
    refine i2cWrite32_noDispatch (r := .cr1) (v := v) hc ?_ hquiet
    rw [i2cWriteReg_cr1, hreset, if_pos rfl, startStop_softReset, he']
    rfl
  exact ⟨fun hkept => hnext (startStop_children_kept hkept),
    fun a a₁ a₂ e' hsel hcommit hcommits => hnext (startStop_children_commit hsel hcommit hcommits)⟩

end Sys2Proof.Machine
end

