-- ==== Sys2Proof/Proofs/DmaTx.lean ====
section
/-! DMA_TX at work (R302, R382, R383, R385): raising the line to a stream aimed at DR moves one item from the bus into `TXQ`,
and that lowers the line again. -/

namespace Sys2Proof.Machine

/-! ### Windows (R101, R380) -/

/-- Windows at different pages are disjoint. -/
theorem inWindow_unique {p q : BitVec 22} {a : Word} (hp : inWindow p a = true) (hq : inWindow q a = true) : p = q := by
  rw [inWindow_iff] at hp hq
  exact BitVec.eq_of_toNat_eq (by omega)

/-- The search for a window ends at the first controller that has it. -/
theorem findI2c_first {a : Word} {l : List I2c} {c : I2c} {i j : Nat} (hc : l[j]? = some c)
    (hin : inWindow c.site.page a = true)
    (hbefore : ∀ j' c', l[j']? = some c' → j' < j → inWindow c'.site.page a = false) :
    findI2c a i l = some (i + j, c) := by
  induction l generalizing i j with
  | nil => simp at hc
  | cons b l ih =>
    cases j with
    | zero =>
      obtain rfl : b = c := by simpa using hc
      rw [findI2c, if_pos hin, Nat.add_zero]
    | succ j =>
      have hb : inWindow b.site.page a = false := hbefore 0 b rfl (Nat.succ_pos j)
      rw [findI2c, if_neg (by rw [hb]; exact Bool.false_ne_true),
        ih (by simpa using hc) fun j' c' hc' hj' => hbefore (j' + 1) c' (by simpa using hc') (Nat.succ_lt_succ hj'),
        Nat.succ_add_eq_add_succ]

/-- Controller `j` is the first at its page. -/
def State.FirstAtPage (s : State) (j : Nat) (page : BitVec 22) : Prop :=
  ∀ j' c', s.i2cs[j']? = some c' → j' < j → c'.site.page ≠ page

/-- An address in the window of the first controller at its page is routed to that controller (log entry 7). -/
theorem State.route_first {s : State} {j : Nat} {c : I2c} {a : Word} (n : Width) (hc : s.i2cs[j]? = some c)
    (hin : inWindow c.site.page a = true) (hfirst : s.FirstAtPage j c.site.page) : s.route a n = .i2c j c := by
  have hfind : findI2c a 0 s.i2cs = some (0 + j, c) := findI2c_first hc hin fun j' c' hc' hj' =>
    Bool.eq_false_iff.2 fun hin' => hfirst j' c' hc' hj' (inWindow_unique hin' hin)
  rw [Nat.zero_add] at hfind
  simp only [State.route, hfind]

/-- Which accesses go to the system bus depends on the platform only. -/
theorem SamePlatform.route_bus {s t : State} (h : SamePlatform s t) {a : Word} {n : Width} (hs : s.route a n = .bus) :
    t.route a n = .bus := by
  obtain ⟨hdmas, hi2cs, -⟩ := h
  have hallowed := (State.allowsAccess_congr hdmas hi2cs a n).2 (.of_bus hs)
  have houtside : ¬∃ j c, t.route a n = .i2c j c := by
    rw [State.route_i2c_iff, any_page_of_sites I2c.site I2cSite.page, hi2cs, ← any_page_of_sites I2c.site I2cSite.page,
      ← s.route_i2c_iff a n, hs]
    exact fun ⟨_, _, hi2c⟩ => nomatch hi2c
  cases ht : t.route a n with
  | i2c j c => exact absurd ⟨j, c, ht⟩ houtside
  | dmaWindow => exact absurd (.inl ⟨ht, rfl⟩) (hallowed .dmaSelfAccess)
  | straddle => exact absurd (.inr (.inl ⟨ht, rfl⟩)) (hallowed .misalignedAccess)
  | bus => rfl

/-- The address of DR lies in the window (R60). -/
theorem inWindow_dr (p : BitVec 22) : inWindow p (baseOf p + 0x10#32) = true := by
  rw [inWindow_iff, BitVec.toNat_add, baseOf_toNat]
  have := p.isLt
  simp
  omega

theorem offsetIn_dr (p : BitVec 22) : offsetIn p (baseOf p + 0x10#32) = 0x10#10 := by
  refine BitVec.eq_of_toNat_eq ?_
  rw [offsetIn_toNat, BitVec.toNat_add, baseOf_toNat]
  have := p.isLt
  simp

/-! ### Items written to DR (R266, R385) -/

theorem i2cWriteAt_dr (j n v c) (e : Children) : i2cWriteAt j n 0x10#10 v c e = (c.writeDr (clip n v), e) := rfl

theorem aligned_dr (n : Width) : aligned n 0x10#10 = true := by
  cases n <;> rfl

/-- DR takes the low byte of an item, whatever its width (R108, R312). -/
theorem extract_lowByte_clip (n : Width) (v : Word) : (clip n v).extractLsb' 0 8 = v.extractLsb' 0 8 := by
  refine BitVec.eq_of_getLsbD_eq fun i hi => ?_
  have hlane : i < 8 * widthBytes n := by cases n <;> simp only [widthBytes] <;> omega
  simp [clip, widthMask_bit, hi, hlane]

/-- The bus after one item: the next answer is drawn, and its two accesses are recorded (R266). -/
theorem Bus.afterItems_one (k : Nat) (m : Stream) (b : Bus) : b.afterItems k m 1 = { b.draw.2 with
    log := b.log ++ [.read k (srcAddr m 0) (copyWidth m) (clip (copyWidth m) b.draw.1),
      .write k (dstAddr m 0) (copyWidth m) (clip (copyWidth m) b.draw.1)] } := by
  rw [Bus.afterItems_succ, Bus.afterItems_zero]

/-- A read that goes to the system bus draws the next answer and is recorded (R112, R380). -/
theorem memRead_bus {k : Nat} {a : Word} {n : Width} {w : Work} (h : w.st.route a n = .bus) :
    memRead k a n w = .ok (clip n w.st.bus.draw.1, Work.logBus (.read k a n (clip n w.st.bus.draw.1))
      { w with st := { w.st with bus := w.st.bus.draw.2 } }) := by
  simp only [memRead, h]

/-- A write that goes to an I²C window, aligned there, is a write transaction and is recorded (R380, R385). -/
theorem memWrite_i2c {k j : Nat} {a : Word} {n : Width} {v : Word} {c : I2c} {w : Work} (h : w.st.route a n = .i2c j c)
    (hal : aligned n (offsetIn c.site.page a) = true) :
    memWrite k a n v w = .ok ((w.logBus (.write k a n v)).commitI2c j c
      (i2cWriteAt j n (offsetIn c.site.page a) v c w.st.child).1
      (i2cWriteAt j n (offsetIn c.site.page a) v c w.st.child).2) := by
  simp only [memWrite, h, if_pos hal]

/-- The copy of an item from the system bus to DR: a bus read, then the write transaction of its low byte (R385). -/
theorem copyItem_to_dr {k j : Nat} {m : Stream} {c : I2c} {w : Work}
    (hsrc : w.st.route (srcAddr m 0) (copyWidth m) = .bus) (hdst : w.st.route (dstAddr m 0) (copyWidth m) = .i2c j c)
    (hdr : offsetIn c.site.page (dstAddr m 0) = 0x10#10) :
    copyItem k (srcAddr m 0) (dstAddr m 0) (copyWidth m) w =
      .ok (Work.commitI2c j c (c.writeDr (clip (copyWidth m) (clip (copyWidth m) w.st.bus.draw.1))) w.st.child
        { w with st := { w.st with bus := w.st.bus.afterItems k m 1 } }) := by
  have hal : aligned (copyWidth m) (offsetIn c.site.page (dstAddr m 0)) = true := by
    rw [hdr]
    exact aligned_dr _
  have hread := memRead_bus (k := k) hsrc
  have hwrite := memWrite_i2c (k := k) (v := clip (copyWidth m) w.st.bus.draw.1)
    (w := Work.logBus (.read k (srcAddr m 0) (copyWidth m) (clip (copyWidth m) w.st.bus.draw.1))
      { w with st := { w.st with bus := w.st.bus.draw.2 } })
    ((congrFun (congrFun (State.route_congr rfl rfl) _) _).trans hdst) hal
  rw [hdr, i2cWriteAt_dr] at hwrite
  simp only [copyItem, hread, hwrite, Bus.afterItems_one]
  simp [Work.logBus]

/-! ### A stream that serves DMA_TX (R302, R385) -/

/-- Stream `x` of DMA controller `k`, standing as `m`, serves DMA_TX of I²C controller `j`: it is wired to the line, enabled
with items to move, and moves them from the system bus to DR. -/
structure State.TxStream (s : State) (j k : Nat) (x : StreamId) (site : I2cSite) (d : Dma) (m : Stream) : Prop where
  dma : s.dmas[k]? = some d
  wire : site.txReq = some (k, x)
  en : m.en = true
  dir : m.dir = 1#2
  ndt : m.ndt ≠ 0
  dest : dstAddr m 0 = baseOf site.page + 0x10#32
  source : s.route (srcAddr m 0) (copyWidth m) = .bus
  first : s.FirstAtPage j site.page

/-- The destination of an M→P stream without PINC stays at PAR (R262). -/
theorem dstAddr_of_fixed_peripheral {m : Stream} (hdir : m.dir = 1#2) (hpinc : m.pinc = false) (i : Nat) :
    dstAddr m i = m.par := by
  rw [dstAddr, (sides_of_mem_to_peripheral hdir).2, sideAddr, peripheralSide, hpinc]
  rfl

/-- The controller after a DMA write of `b` to DR in AwaitingData with `TXQ` empty (R312). -/
def I2c.sentByte (b : Byte) (c : I2c) : I2c := { c with txq := [b], dq := c.dq ++ [.flush] }

section
variable {s : State} {j k : Nat} {x : StreamId} {c c' : I2c} {d : Dma} {m : Stream} {e' : Children}

theorem I2c.writeDr_of_dmaTx (v : Word) (h : c.dmaTx = true) : c.writeDr v = c.sentByte (v.extractLsb' 0 8) := by
  obtain ⟨-, hst, hq⟩ := c.dmaTx_iff.1 h
  rw [I2c.writeDr_data v hst, I2c.dataWrite_eq, hq]
  rfl

/-- The byte lowers DMA_TX and leaves DMA_RX low. -/
theorem lineEvents_sentByte (b : Byte) (hwire : c.site.txReq = some (k, x)) (h : c.dmaTx = true) :
    lineEvents c (c.sentByte b) = [⟨k, x, false⟩] := by
  obtain ⟨-, hst, -⟩ := c.dmaTx_iff.1 h
  have hdata : c.st ≠ .receivingData := by rw [hst]; decide
  have htx : (c.sentByte b).dmaTx = false := by
    rw [← Bool.not_eq_true, I2c.dmaTx_iff]
    exact fun ⟨_, _, hempty⟩ => List.cons_ne_nil b [] hempty
  have hrx : (c.sentByte b).dmaRx = false := I2c.dmaRx_low hdata
  simp [lineEvents, lineEvent, h, htx, I2c.dmaRx_low hdata, hrx, hwire]

/-- What the rise of DMA_TX leaves before the line falls again: one item is in `TXQ`, and its transfer is accounted. -/
def State.afterTxItem (j k : Nat) (x : StreamId) (c : I2c) (d : Dma) (m : Stream) (s : State) : State :=
  { s with
    i2cs := s.i2cs.set j (c.sentByte (s.bus.draw.1.extractLsb' 0 8))
    bus := s.bus.afterItems k m 1
    dmas := s.dmas.set k (d.itemEnded x m) }

/-- The latch of a stream has no part in whether it serves the line. -/
theorem State.TxStream.withReq (h : s.TxStream j k x c.site d m) (b : Bool) :
    s.TxStream j k x c.site d { m with req := b } :=
  ⟨h.dma, h.wire, h.en, h.dir, h.ndt, h.dest, h.source, h.first⟩

/-- A stream stored and dispatched while it serves a high DMA_TX moves one item into `TXQ`, and the line falls. -/
theorem selectTransfer_stored_to_dr (h : s.TxStream j k x c.site d m) (hc : s.i2cs[j]? = some c)
    (hline : c.dmaTx = true) :
    selectTransfer k x m ⟨s.modDma k fun d => d.modStream x fun _ => m, []⟩ =
      .ok ⟨s.afterTxItem j k x c d m, [⟨k, x, false⟩]⟩ := by
  have hplatform : SamePlatform s (s.modDma k fun d => d.modStream x fun _ => m) :=
    .modDma (Dma.modStream_site x _) k s
  have hwindow : inWindow c.site.page (dstAddr m 0) = true := by rw [h.dest]; exact inWindow_dr _
  have hcopy := copyItem_to_dr (k := k) (w := ⟨s.modDma k fun d => d.modStream x fun _ => m, []⟩)
    (hplatform.route_bus h.source) (State.route_first _ hc hwindow h.first) (by rw [h.dest, offsetIn_dr])
  rw [I2c.writeDr_of_dmaTx _ hline, extract_lowByte_clip, extract_lowByte_clip] at hcopy
  have hfinish := Work.modDma_after_bus
    (s := { s with i2cs := s.i2cs.set j (c.sentByte (s.bus.draw.1.extractLsb' 0 8)) }) (Dma.modStream x fun _ => m)
    (Dma.finishItem x) (s.bus.afterItems k m 1) [⟨k, x, false⟩] h.dma
  rw [Dma.finishItem_stored h.en] at hfinish
  obtain ⟨hreserved, hburst⟩ : m.dir ≠ 3#2 ∧ m.dir ≠ 2#2 := by rw [h.dir]; decide
  rw [selectTransfer, if_neg hreserved, if_neg hburst, doPeripheralTransfer, if_neg h.ndt, hcopy]
  simp only [Work.commitI2c, lineEvents_sentByte _ h.wire hline]
  exact congrArg Except.ok hfinish

/-- The rise of DMA_TX moves one item into `TXQ`, and the line falls. -/
theorem dmaReq_rise_of_dmaTx (h : s.TxStream j k x c.site d m) (hm : d.streams[x] = m) (hreq : m.req = false)
    (hc : s.i2cs[j]? = some c) (hline : c.dmaTx = true) :
    dmaReq k x true ⟨s, []⟩ = .ok ⟨s.afterTxItem j k x c d { m with req := true }, [⟨k, x, false⟩]⟩ :=
  (dmaReq_rising h.dma hm hreq h.en).trans (selectTransfer_stored_to_dr (h.withReq true) hc hline)

/-- The fall of DMA_TX only lowers the latch. -/
theorem dmaReq_fall_after_item (hd : s.dmas[k]? = some d) (hreq : m.req = false) :
    dmaReq k x false ⟨s.afterTxItem j k x c d { m with req := true }, []⟩ = .ok ⟨s.afterTxItem j k x c d m, []⟩ := by
  have hk : k < s.dmas.length := (List.getElem?_eq_some_iff.1 hd).1
  rw [dmaReq_no_edge (List.getElem?_set_self hk) rfl (by simp), State.modDma_eq _ (List.getElem?_set_self hk)]
  simp only [State.afterTxItem, List.set_set]
  rw [← Dma.itemEnded_fall hreq]
  rfl

/-- The two events of a byte moved by DMA_TX: they are delivered exactly if `CASCADE_LIMIT` admits both (R382). -/
theorem deliver_dmaTx (h : s.TxStream j k x c.site d m) (hm : d.streams[x] = m) (hreq : m.req = false)
    (hc : s.i2cs[j]? = some c) (hline : c.dmaTx = true) (n : Nat) :
    deliver n ⟨s, [⟨k, x, true⟩]⟩ = if 2 ≤ n then .ok (s.afterTxItem j k x c d m) else .error .cascadeLimit := by
  match n with
  | 0 => rfl
  | 1 => simp only [deliver, dmaReq_rise_of_dmaTx h hm hreq hc hline]; rfl
  | n + 2 =>
    simp only [deliver, dmaReq_rise_of_dmaTx h hm hreq hc hline, dmaReq_fall_after_item h.dma hreq, deliver_nil]
    rw [if_pos (Nat.le_add_left 2 n)]

/-- Storing the controller moves no window and no stream. -/
theorem State.TxStream.commitI2c (h : s.TxStream j k x c.site d m) (hc : s.i2cs[j]? = some c) (hsite : c'.site = c.site)
    (e' : Children) : State.TxStream { s with i2cs := s.i2cs.set j c', child := e' } j k x c'.site d m := by
  rw [hsite]
  refine ⟨h.dma, h.wire, h.en, h.dir, h.ndt, h.dest, ?_, fun j' b hb hj' => h.first j' b ?_ hj'⟩
  · exact (SamePlatform.commitI2c (w := ⟨s, []⟩) hc hsite e').route_bus h.source
  · rwa [List.getElem?_set_ne (Nat.ne_of_gt hj')] at hb

theorem State.TxStream.addResult (h : s.TxStream j k x c.site d m) (n : Width) (v : Word) :
    (s.addResult n v).TxStream j k x c.site d m :=
  ⟨h.dma, h.wire, h.en, h.dir, h.ndt, h.dest, (SamePlatform.addResult n v s).route_bus h.source, h.first⟩

/-- The only event of an action that raises DMA_TX. -/
theorem lineEvents_raises_dmaTx (hwire : c.site.txReq = some (k, x)) (hlow : c.dmaTx = false) (hrx : c.dmaRx = false)
    (hline : c'.dmaTx = true) : lineEvents c c' = [⟨k, x, true⟩] := by
  obtain ⟨-, hst, -⟩ := c'.dmaTx_iff.1 hline
  have hrx' : c'.dmaRx = false := I2c.dmaRx_low (by rw [hst]; decide)
  simp [lineEvents, lineEvent, hlow, hline, hrx, hrx', hwire]

/-- An I²C action that raises DMA_TX moves one byte, if `CASCADE_LIMIT` admits the two line events (R303, R382). -/
theorem i2cStep_raises_dmaTx (h : s.TxStream j k x c.site d m) (hm : d.streams[x] = m) (hreq : m.req = false)
    (hc : s.i2cs[j]? = some c) (hsite : c'.site = c.site) (hlow : c.dmaTx = false) (hrx : c.dmaRx = false)
    (hline : c'.dmaTx = true) (e' : Children) :
    (2 ≤ s.cascadeLimit →
      i2cStep j c c' e' s = .next { s.afterTxItem j k x c' d m with child := e' }) ∧
    (s.cascadeLimit < 2 → i2cStep j c c' e' s = .refused .cascadeLimit) := by
  have hj : j < s.i2cs.length := (List.getElem?_eq_some_iff.1 hc).1
  have hdel := deliver_dmaTx (h.commitI2c hc hsite e') hm hreq (List.getElem?_set_self hj) hline s.cascadeLimit
  have hstep : i2cStep j c c' e' s =
      settle (.ok ⟨{ s with i2cs := s.i2cs.set j c', child := e' }, [⟨k, x, true⟩]⟩) := by
    rw [i2cStep, Work.commitI2c, lineEvents_raises_dmaTx h.wire hlow hrx hline]
    rfl
  rw [hstep, settle]
  simp only [hdel]
  refine ⟨fun hlimit => ?_, fun hlimit => ?_⟩
  · rw [if_pos hlimit]
    simp only [State.afterTxItem, List.set_set]
  · rw [if_neg (Nat.not_le.2 hlimit)]

end

/-- The end of an item of an enabled stream whose latch is low, field by field (R265). -/
theorem Dma.itemEnded_eq {x : StreamId} {d : Dma} {m : Stream} (hen : m.en = true) (hreq : m.req = false) :
    d.itemEnded x m = { d with
      streams := d.streams.set x { m with
        req := false
        ndt := if m.ndt = 1 then (if m.circ then m.latch else 0) else m.ndt - 1
        en := m.circ || m.ndt != 1 }
      fin := if m.ndt = 1 then d.fin.set x true else d.fin
      dq := if m.ndt = 1 ∧ m.tcie = true then d.dq ++ [x] else d.dq } := by
  by_cases hlast : m.ndt = 1#16
  · simp [Dma.itemEnded_last hlast, Dma.burstEnded, hlast, hreq]
  · have hmore : (m.ndt != 1#16) = true := bne_iff_ne.2 hlast
    simp [Dma.itemEnded_more hlast, hlast, hmore, hen, hreq]

/-- In AwaitingSr2Read with RW = 0 a read of SR2 answers TRA, BUSY and MSL (R348). -/
theorem I2c.sr2Value_write {c : I2c} (hst : c.st = .awaitingSr2Read) (hrw : c.rw = false) :
    c.sr2Value = 0x00000007#32 := by
  simp [I2c.sr2Value, I2c.tra, I2c.busy, I2c.msl, I2c.inSr, hst, hrw, bitAt]

/-- Settles O51: the SR2 read and the CR2 write each raise DMA_TX, and the rise moves the byte. -/
theorem raisingDmaTxMovesOneByte : Obligations.RaisingDmaTxMovesOneByte := by
  intro s j k x c d m hc hd hm hrw hq hwire hen hreq hdir hndt hpinc hpar hfirst hsrc d'
  have hserves : s.TxStream j k x c.site d m :=
    ⟨hd, hwire, hen, hdir, hndt, (dstAddr_of_fixed_peripheral hdir hpinc 0).trans hpar, hsrc, hfirst⟩
  have hd' : d.itemEnded x m = d' := Dma.itemEnded_eq hen hreq
  refine ⟨fun hst hdma => ?_, fun v hst hdma hv => ?_⟩
  · have hraise := i2cStep_raises_dmaTx (c' := { c with st := .awaitingData })
      (hserves.addResult .word 0x00000007#32) hm hreq hc rfl (I2c.dmaTx_low (by rw [hst]; decide))
      (I2c.dmaRx_low (by rw [hst]; decide)) ((I2c.dmaTx_iff _).2 ⟨hdma, rfl, hq⟩) s.child
    have hrun : exec (.i2cRd32Sr2 j) s =
        i2cStep j c { c with st := .awaitingData } s.child (s.addResult .word 0x00000007#32) := by
      have hread : c.readReg .sr2 = (0x00000007#32, { c with st := .awaitingData }) :=
        Prod.ext (I2c.sr2Value_write hst hrw) (I2c.sr2ReadStep_write hst hrw)
      rw [exec_i2cRd32Sr2, i2cRead32, onI2c_some hc, hread]
    rw [hrun, ← hd']
    exact hraise
  · have hraise := i2cStep_raises_dmaTx (c' := c.writeCr2 v) hserves hm hreq hc rfl (by simp [I2c.dmaTx, hdma])
      (by simp [I2c.dmaRx, hdma]) ((I2c.dmaTx_iff _).2 ⟨hv, hst, hq⟩) s.child
    have hrun : exec (.i2cWr32Cr2 j v) s = i2cStep j c (c.writeCr2 v) s.child s := onI2c_some hc _
    rw [hrun, ← hd', ← hv]
    exact hraise

end Sys2Proof.Machine
end

