-- ==== Sys2Proof/Proofs/I2cRegisters.lean ====
section
/-! The status and control registers of the I²C window (R340–R343, R346–R351): the bits that their reads show, what their
writes store, and the CR1 writes that commit nothing (R306, R307). -/

namespace Sys2Proof.Machine

/-! ### Transactions that leave the controller as it is -/

section
variable {s : State} {j : Nat} {c : I2c} {r : I2cReg} {v : Word}

/-- A 32-bit read of an I²C register without side effects only adds its result. -/
theorem i2cRead32_pure (hc : s.i2cs[j]? = some c) (hread : c.readReg r = (v, c)) :
    i2cRead32 j r s = .next { s with results := s.results ++ [⟨.word, v⟩] } := by
  rw [i2cRead32, onI2c_some hc, hread]
  exact i2cStep_same (s := s.addResult .word v) hc

/-- A 32-bit write of an I²C register that is ignored changes nothing. -/
theorem i2cWrite32_ignored (hc : s.i2cs[j]? = some c) (hwrite : i2cWriteReg j r v c s.child = (c, s.child)) :
    i2cWrite32 j r v s = .next s := by
  rw [i2cWrite32, onI2c_some hc, hwrite]
  exact i2cStep_same hc

end

/-! ### Register values bit by bit (R61–R65) -/

/-- A bit placed inside a word is its only nonzero bit, at every position asked for. -/
theorem bitAt_getLsbD (b : Bool) {p : Nat} (hp : p < 32) (i : Nat) : (bitAt b p).getLsbD i = (i == p && b) := by
  obtain hi | hi := Nat.lt_or_ge i 32
  · exact bitAt_bit b p hi
  · have hne : i ≠ p := by omega
    rw [BitVec.getLsbD_of_ge _ _ hi, beq_false_of_ne hne, Bool.false_and]

section
variable (c : I2c) (i : Nat)

theorem I2c.cr1Value_bit : c.cr1Value.getLsbD i = (i == 10 && c.ack) :=
  bitAt_getLsbD c.ack (by decide) i

theorem I2c.cr2Value_bit : c.cr2Value.getLsbD i =
    ((i == 8 && c.iterren) || (i == 9 && c.itevten) || (i == 10 && c.itbufen) || (i == 11 && c.dmaen) ||
      (i == 12 && c.last)) := by
  simp (disch := decide) only [I2c.cr2Value, BitVec.getLsbD_or, bitAt_getLsbD]
  ac_rfl

theorem I2c.sr1Value_bit : c.sr1Value.getLsbD i =
    ((i == 10 && c.af) || (i == 7 && c.txe) || (i == 6 && c.rxne) || (i == 2 && c.btf) || (i == 1 && c.addr) ||
      (i == 0 && c.sb)) := by
  simp (disch := decide) only [I2c.sr1Value, BitVec.getLsbD_or, bitAt_getLsbD]

theorem I2c.sr2Value_bit : c.sr2Value.getLsbD i =
    ((i == 2 && c.tra) || (i == 1 && c.busy) || (i == 0 && c.msl)) := by
  simp (disch := decide) only [I2c.sr2Value, BitVec.getLsbD_or, bitAt_getLsbD]

theorem I2c.msl_iff : c.msl = true ↔ c.st ≠ .idle := by
  simp [I2c.msl]

theorem I2c.busy_iff : c.busy = true ↔ c.st ≠ .idle := by
  simp [I2c.busy]

theorem I2c.tra_iff : c.tra = true ↔ c.rw = false ∧
    (c.st = .awaitingSr1Read ∨ c.st = .awaitingSr2Read ∨ c.st = .awaitingData) := by
  simp [I2c.tra, I2c.inSr_iff, or_assoc]

/-- SR1 shows each flag at its position (R346, D9); ADDR is `I2c.sr1Value_addr`. -/
theorem I2c.sr1Value_flags : c.sr1Value.getLsbD 0 = c.sb ∧ c.sr1Value.getLsbD 2 = c.btf ∧
    c.sr1Value.getLsbD 6 = c.rxne ∧ c.sr1Value.getLsbD 7 = c.txe ∧ c.sr1Value.getLsbD 10 = c.af := by
  simp only [I2c.sr1Value_bit]
  simp

/-- SR2 shows each flag at its position (R348, D9). -/
theorem I2c.sr2Value_flags : c.sr2Value.getLsbD 0 = c.msl ∧ c.sr2Value.getLsbD 1 = c.busy ∧
    c.sr2Value.getLsbD 2 = c.tra := by
  simp only [I2c.sr2Value_bit]
  simp

/-- SR1 is 0 outside the positions of its six flags. -/
theorem I2c.sr1Value_zero (hi : i ∉ [0, 1, 2, 6, 7, 10]) : c.sr1Value.getLsbD i = false := by
  simp only [List.mem_cons, List.not_mem_nil, or_false, not_or] at hi
  obtain ⟨h₀, h₁, h₂, h₆, h₇, h₁₀⟩ := hi
  rw [I2c.sr1Value_bit]
  simp [h₀, h₁, h₂, h₆, h₇, h₁₀]

/-- SR2 is 0 above its three flags. -/
theorem I2c.sr2Value_zero (hi : 3 ≤ i) : c.sr2Value.getLsbD i = false := by
  have h₀ : i ≠ 0 := by omega
  have h₁ : i ≠ 1 := by omega
  have h₂ : i ≠ 2 := by omega
  rw [I2c.sr2Value_bit]
  simp [h₀, h₁, h₂]

end

/-! ### SR1 and SR2 (R346–R348) -/

/-- The read of SR1 in one equation: AF is cleared, and AwaitingSr1Read is left (R310). -/
theorem I2c.readReg_sr1 (c : I2c) : c.readReg .sr1 = (c.sr1Value, { c with
    af := false
    st := if c.st = .awaitingSr1Read then .awaitingSr2Read else c.st }) := by
  by_cases hst : c.st = .awaitingSr1Read <;> simp [I2c.readReg, I2c.readSr1, I2c.sr1ReadStep, hst]

/-- The read of SR1 changes no line: it moves between ADDR states only, and AF drives no line to the DMA. -/
theorem lineEvents_readSr1 (c : I2c) : lineEvents c (c.readReg .sr1).2 = [] := by
  rw [I2c.readReg_sr1]
  by_cases hst : c.st = .awaitingSr1Read
  · rw [if_pos hst]
    exact lineEvents_outside_data (by simp [hst]) ⟨nofun, nofun⟩
  · rw [if_neg hst]
    exact lineEvents_same rfl rfl

/-- Settles O32: the read changes no line, and the value shows each flag at its position. -/
theorem sr1ReadAnswersThenSteps : Obligations.Sr1ReadAnswersThenSteps := by
  intro s j c hc
  have hread := c.readReg_sr1
  have hquiet := lineEvents_readSr1 c
  rw [hread] at hquiet
  obtain ⟨hsb, hbtf, hrxne, htxe, haf⟩ := c.sr1Value_flags
  exact ⟨c.sr1Value, i2cRead32_quiet hc hread hquiet, hsb ▸ c.sb_iff, c.sr1Value_addr ▸ c.inSr_iff, hbtf ▸ c.btf_iff,
    hrxne ▸ c.rxne_iff, htxe ▸ c.txe_iff, haf, c.sr1Value_zero⟩

/-- Settles O33: the value shows each flag at its position, and the step is `sr2ReadStep`. -/
theorem sr2ReadAnswersThenSteps : Obligations.Sr2ReadAnswersThenSteps := by
  rintro s j c c' hc rfl hquiet
  obtain ⟨hmsl, hbusy, htra⟩ := c.sr2Value_flags
  exact ⟨c.sr2Value, i2cRead32_noDispatch (r := .sr2) hc rfl hquiet, hmsl ▸ c.msl_iff, hbusy ▸ c.busy_iff,
    htra ▸ c.tra_iff, c.sr2Value_zero⟩

theorem I2c.writeSr1_eq (v : Word) (c : I2c) : c.writeSr1 v = { c with af := c.af && v.getLsbD 10 } := by
  rw [I2c.writeSr1]
  cases v.getLsbD 10
  · rw [if_neg Bool.false_ne_true, Bool.and_false]
  · rw [if_pos rfl, Bool.and_true]

/-- Settles O36: AF drives no line to the DMA. -/
theorem sr1WriteClearsAcknowledgeFailure : Obligations.Sr1WriteClearsAcknowledgeFailure := by
  intro s j c v hc
  have hwrite : i2cWriteReg j .sr1 v c s.child = ({ c with af := c.af && v.getLsbD 10 }, s.child) := by
    rw [← I2c.writeSr1_eq]
    rfl
  exact i2cWrite32_quiet hc hwrite (lineEvents_same rfl rfl)

/-! ### CR1, CR2 and the unmapped offsets (R340–R343, R349–R351) -/

/-- Settles O35: these transactions leave the controller as it is. -/
theorem i2cControlReadsAndIgnoredWrites : Obligations.I2cControlReadsAndIgnoredWrites := by
  intro s j c o v hc
  exact ⟨⟨c.cr1Value, c.cr2Value, i2cRead32_pure (r := .cr1) hc rfl, i2cRead32_pure (r := .cr2) hc rfl,
      c.cr1Value_bit, c.cr2Value_bit⟩,
    i2cRead32_pure (r := .unmapped) hc rfl, i2cWrite32_ignored (r := .sr2) (v := v) hc rfl,
    i2cWrite32_ignored (r := .unmapped) (v := v) hc rfl⟩

/-- Settles O37: the write stores what `I2c.writeCr2` says. -/
theorem cr2WriteStoresControlBits : Obligations.Cr2WriteStoresControlBits := by
  rintro s j c c' v hc rfl hquiet
  exact i2cWrite32_noDispatch (r := .cr2) (v := v) hc rfl hquiet

/-! ### START and STOP without a commit (R306, R307, R341) -/

section
variable {j : Nat} {c : I2c} {e : Children}

/-- START alone before the first address byte. -/
theorem startStop_start_before_address (h : c.st = .idle ∨ c.st = .awaitingAddress) :
    startStop j true false c e = ({ c with st := .awaitingAddress }, e) :=
  startCondition_before_address h

/-- STOP before the first address byte with no child selected: a START made beside it leaves no trace (D37). -/
theorem startStop_stop_before_address (start : Bool) (hsel : c.sel = none)
    (h : c.st = .idle ∨ c.st = .awaitingAddress) : startStop j start true c e = (c.stopped, e) := by
  cases start
  · exact stopCondition_no_child hsel
  · simp only [startStop, if_true, startCondition_before_address h]
    exact stopCondition_no_child (c := { c with st := .awaitingAddress }) hsel

end

/-- Settles O38, by the actions set: none of the three changes a line to the DMA. -/
theorem cr1WriteWithoutCommit : Obligations.Cr1WriteWithoutCommit := by
  intro s j c v hc hreset
  have hnext {c' : I2c}
      (hact : startStop j (v.getLsbD 8) (v.getLsbD 9) { c with ack := v.getLsbD 10 } s.child = (c', s.child))
      (hquiet : lineEvents c c' = []) :
      exec (.i2cWr32Cr1 j v) s = .next { s with i2cs := s.i2cs.set j c' } := by
    refine i2cWrite32_quiet (r := .cr1) (v := v) hc ?_ hquiet
    rw [i2cWriteReg_cr1, hreset, if_neg Bool.false_ne_true, hact]
  have houtside {c' : I2c} (hst : c.st = .idle ∨ c.st = .awaitingAddress)
      (hst' : c'.st ≠ .awaitingData ∧ c'.st ≠ .receivingData) : lineEvents c c' = [] :=
    lineEvents_outside_data (by obtain h | h := hst <;> simp [h]) hst'
  refine ⟨fun hstart hstop => ?_, fun hstart hstop hst => ?_, fun hstop hsel hst => ?_⟩
  · rw [hstart, hstop] at hnext
    exact hnext rfl (lineEvents_same rfl rfl)
  · rw [hstart, hstop] at hnext
    exact hnext (startStop_start_before_address hst) (houtside hst ⟨nofun, nofun⟩)
  · rw [hstop] at hnext
    refine hnext ?_ (houtside hst ⟨nofun, nofun⟩)
    rw [startStop_stop_before_address (c := { c with ack := v.getLsbD 10 }) _ hsel hst, I2c.stopped, hsel]

end Sys2Proof.Machine
end

