-- ==== Sys2Proof/Proofs/Histories.lean ====
section
/-! No step takes back an observation (R304, R388). The DMA controllers hold no history, so only what is recorded, drawn or
called counts: the copies of a transfer, the results of reads, and the children that an I²C action calls. -/

namespace Sys2Proof.Machine

/-! ### HistoriesGrow -/

theorem HistoriesGrow.refl (s : State) : HistoriesGrow s s := ⟨List.prefix_rfl, List.prefix_rfl, List.prefix_rfl⟩

theorem HistoriesGrow.trans {s t u : State} (h : HistoriesGrow s t) (h' : HistoriesGrow t u) : HistoriesGrow s u := by
  obtain ⟨hresults, hlog, hcalls⟩ := h
  obtain ⟨hresults', hlog', hcalls'⟩ := h'
  exact ⟨hresults.trans hresults', hlog.trans hlog', hcalls.trans hcalls'⟩

/-! ### Updates of the state -/

/-- A change of a DMA controller touches no history. -/
theorem HistoriesGrow.modDma (k : Nat) (f : Dma → Dma) (s : State) : HistoriesGrow s (s.modDma k f) := .refl s

theorem HistoriesGrow.addResult (n : Width) (v : Word) (s : State) : HistoriesGrow s (s.addResult n v) :=
  ⟨List.prefix_append .., List.prefix_rfl, List.prefix_rfl⟩

theorem HistoriesGrow.commitI2c {w : Work} {e' : Children} (he : w.st.child.calls <+: e'.calls) (j : Nat) (c c' : I2c) :
    HistoriesGrow w.st (w.commitI2c j c c' e').st :=
  ⟨List.prefix_rfl, List.prefix_rfl, he⟩

/-! ### The transfer engine -/

theorem CopyFrame.historiesGrow {w w' : Work} (h : CopyFrame w w') : HistoriesGrow w.st w'.st :=
  ⟨h.results ▸ List.prefix_rfl, h.log, h.calls⟩

theorem selectTransfer_historiesGrow {k x m} {w w' : Work} (h : selectTransfer k x m w = .ok w') :
    HistoriesGrow w.st w'.st := by
  obtain ⟨-, ⟨-, rfl⟩ | ⟨-, -, w₁, hcopy, rfl⟩ | ⟨-, -, w₁, hcopy, rfl⟩⟩ := selectTransfer_ok h
  · exact .modDma k _ w.st
  · exact (copyItems_frame hcopy).historiesGrow.trans (.modDma k _ w₁.st)
  · exact (copyItem_frame hcopy).historiesGrow.trans (.modDma k _ w₁.st)

theorem dmaReq_historiesGrow {k x v} {w w' : Work} (h : dmaReq k x v w = .ok w') : HistoriesGrow w.st w'.st := by
  obtain ⟨d, -, ⟨-, -, -, hsel⟩ | ⟨-, rfl⟩⟩ := dmaReq_ok h
  · have htransfer := selectTransfer_historiesGrow hsel
    exact (HistoriesGrow.modDma k _ w.st).trans htransfer
  · exact .modDma k _ w.st

/-- A write of the DMA window adds to the histories only by the burst that an enabling write of SxCR starts (R222). -/
theorem dmaWriteReg_historiesGrow {k r v} {w w' : Work} (h : dmaWriteReg k r v w = .ok w') :
    HistoriesGrow w.st w'.st := by
  obtain ⟨-, rfl⟩ | ⟨-, rfl⟩ | ⟨-, rfl⟩ | ⟨x, -, hcr⟩ | ⟨x, q, -, -, rfl⟩ := dmaWriteReg_ok h
  · exact .refl _
  · exact .modDma k _ w.st
  · exact .modDma k _ w.st
  · obtain ⟨d, -, ⟨-, -, -, -, hsel⟩ | ⟨-, -, -, rfl⟩ | ⟨-, rfl⟩⟩ := writeStreamCr_ok hcr
    · have htransfer := selectTransfer_historiesGrow hsel
      exact (HistoriesGrow.modDma k _ w.st).trans htransfer
    · exact .modDma k _ w.st
    · exact .modDma k _ w.st
  · exact .modDma k _ w.st

/-! ### Cascades and steps -/

/-- An operation whose own work adds to the histories only adds to them to the end of its cascade (R382). -/
theorem settle_historiesGrow {p : Except Refusal Work} {s t : State} (h : settle p = .next t)
    (hwork : ∀ w, p = .ok w → HistoriesGrow s w.st) : HistoriesGrow s t := by
  obtain ⟨w, hp, hdel⟩ := settle_next h
  exact deliver_keeps (P := HistoriesGrow s) (fun _ _ _ _ _ hreq hw => hw.trans (dmaReq_historiesGrow hreq)) hdel
    (hwork w hp)

theorem i2cStep_historiesGrow {j : Nat} {c c' : I2c} {e' : Children} {s t : State}
    (he : s.child.calls <+: e'.calls) (h : i2cStep j c c' e' s = .next t) : HistoriesGrow s t := by
  refine settle_historiesGrow h fun w hw => ?_
  cases hw
  exact .commitI2c (w := ⟨s, []⟩) he j c c'

theorem StepForm.historiesGrow {s t : State} (h : StepForm s t) : HistoriesGrow s t := by
  cases h with
  | dmaRead n v ht => exact ht ▸ .addResult n v s
  | dmaWrite k r v hset => exact settle_historiesGrow hset fun _ => dmaWriteReg_historiesGrow
  | request k x v _ hset => exact settle_historiesGrow hset fun _ => dmaReq_historiesGrow
  | dmaSync k ht => exact ht ▸ .modDma k _ s
  | dmaReset k ht => exact ht ▸ .modDma k _ s
  | i2c j c c' e' s₀ hs hc hmove hstep =>
    obtain rfl | ⟨n, v, rfl⟩ := hs
    · exact i2cStep_historiesGrow hmove.calls hstep
    · exact (HistoriesGrow.addResult n v s).trans (i2cStep_historiesGrow hmove.calls hstep)

/-- Settles O57, by the forms of a step: an idle step changes nothing, and taking an operation from `ops` touches no
history. -/
theorem stepOnlyExtendsTheHistories : Obligations.StepOnlyExtendsTheHistories := by
  intro s t h
  obtain rfl | ⟨p, rest, -, hform⟩ := step_next_form h
  · exact .refl _
  · exact hform.historiesGrow

end Sys2Proof.Machine
end

