-- ==== Sys2Proof/Proofs/Routing.lean ====
section
/-! Where an access of the DMA goes by its address (R380, R384): into an I²C window, into a DMA window, across the edge of a
window, or to the system bus. -/

namespace Sys2Proof.Machine

section
variable {s : State} {a : Word} {n : Width}

/-! ### Windows and bytes (R101, R380) -/

theorem State.inDmaWindow_iff : s.inDmaWindow a = true ↔ ∃ d ∈ s.dmas, inWindow d.site.page a = true :=
  List.any_eq_true

theorem State.inSomeWindow_iff :
    s.inSomeWindow a = true ↔
      (∃ c ∈ s.i2cs, inWindow c.site.page a = true) ∨ ∃ d ∈ s.dmas, inWindow d.site.page a = true := by
  rw [State.inSomeWindow, Bool.or_eq_true, List.any_eq_true, State.inDmaWindow_iff]

theorem State.straddles_iff :
    s.straddles a n = true ↔
      a.toNat % widthBytes n ≠ 0 ∧ ∃ i, i < widthBytes n ∧ s.inSomeWindow (a + BitVec.ofNat 32 i) = true := by
  simp only [State.straddles, Bool.and_eq_true, bne_iff_ne, List.any_eq_true, List.mem_range]

/-! ### Routes (R380) -/

theorem State.route_i2c_iff_exists :
    (∃ j c, s.route a n = .i2c j c) ↔ ∃ c ∈ s.i2cs, inWindow c.site.page a = true :=
  (s.route_i2c_iff a n).trans List.any_eq_true

/-- A route other than into an I²C window is taken outside those windows, by the DMA windows first and then by the bytes of
the access. -/
theorem State.route_eq_iff {r : Route} (hr : ∀ j c, r ≠ .i2c j c) :
    s.route a n = r ↔
      (¬∃ c ∈ s.i2cs, inWindow c.site.page a = true) ∧
        (if s.inDmaWindow a then .dmaWindow else if s.straddles a n then .straddle else .bus) = r := by
  by_cases hin : ∃ c ∈ s.i2cs, inWindow c.site.page a = true
  · obtain ⟨j, c, hroute⟩ := State.route_i2c_iff_exists.2 hin
    exact iff_of_false (hroute ▸ (hr j c).symm) fun h => h.1 hin
  · have hfind : findI2c a 0 s.i2cs = none :=
      findI2c_none.2 fun c hc => Bool.eq_false_iff.2 fun h => hin ⟨c, hc, h⟩
    simp only [State.route, hfind, hin, not_false_eq_true, true_and]

theorem State.route_dmaWindow_iff :
    s.route a n = .dmaWindow ↔
      (¬∃ c ∈ s.i2cs, inWindow c.site.page a = true) ∧ ∃ d ∈ s.dmas, inWindow d.site.page a = true := by
  rw [State.route_eq_iff (r := .dmaWindow) (fun _ _ => Route.noConfusion), ← State.inDmaWindow_iff]
  split_ifs <;> simp [*]

theorem State.route_straddle_iff :
    s.route a n = .straddle ↔ ¬s.inSomeWindow a = true ∧ s.straddles a n = true := by
  rw [State.route_eq_iff (r := .straddle) (fun _ _ => Route.noConfusion), State.inSomeWindow_iff, ← State.inDmaWindow_iff, not_or, and_assoc]
  split_ifs <;> simp [*]

theorem State.route_bus_iff :
    s.route a n = .bus ↔ ¬s.inSomeWindow a = true ∧ ¬s.straddles a n = true := by
  rw [State.route_eq_iff (r := .bus) (fun _ _ => Route.noConfusion), State.inSomeWindow_iff, ← State.inDmaWindow_iff, not_or, and_assoc]
  split_ifs <;> simp [*]

end

/-- Settles O14: each clause is one of the routes, with the windows read as bounds on addresses (R101). -/
theorem dmaAccessesAreRoutedByAddress : Obligations.DmaAccessesAreRoutedByAddress := by
  intro s a n inPage windowed
  have hpage (p : BitVec 22) (b : Word) : inPage p b ↔ inWindow p b = true := (inWindow_iff p b).symm
  have hwindowed (b : Word) : windowed b ↔ s.inSomeWindow b = true := by
    simp only [windowed, hpage, State.inSomeWindow_iff]
  simp only [hpage, hwindowed]
  refine ⟨State.route_i2c_iff_exists, fun j c => State.route_i2c, State.route_dmaWindow_iff, ?_, ?_⟩
  · rw [State.route_straddle_iff, State.straddles_iff]
  · rw [State.route_bus_iff, State.straddles_iff]
    simp only [not_and_or, not_ne_iff, not_exists, imp_iff_not_or]

end Sys2Proof.Machine
end

