-- ==== Sys2Proof/Proofs/BusMaster.lean ====
section
/-! A bus master's access by address is the register transaction of the window that holds the address, at `OFF = A − base`
(R381, R140). -/

namespace Sys2Proof.Machine

/-! ### The descriptor of a transaction (R140) -/

theorem append_toNat_add {p q : Nat} (x : BitVec p) (y : BitVec q) : (x ++ y).toNat = 2 ^ q * x.toNat + y.toNat := by
  rw [BitVec.toNat_append, Nat.shiftLeft_eq, Nat.mul_comm, Nat.two_pow_add_eq_or_of_lt y.isLt]

/-- A bus master's descriptor holds the fields of its transaction. -/
theorem transactionDescriptor_eq (b : Block) (n : Width) (w : Bool) (o : Offset) :
    transactionDescriptor b n w o = descriptor b (some n) w o := by
  refine BitVec.eq_of_toNat_eq ?_
  unfold transactionDescriptor
  rw [append_toNat_add, append_toNat_add, append_toNat_add, append_toNat_add, BitVec.toNat_ofBool, descriptor_toNat]
  cases b <;> cases n <;> simp only [blockCode, sizeCode, BitVec.toNat_ofNat] <;> omega

theorem decode_transactionDescriptor (k : Nat) (b : Block) (n : Width) (w : Bool) (o : Offset) (v : Word) :
    decode ⟨k, transactionDescriptor b n w o, v⟩ = decodeFields k (some b) (some n) w o v := by
  rw [transactionDescriptor_eq, decode_descriptor]

/-! ### The window that holds an address (R101) -/

/-- `OFF = A − base` in the window that holds `A` (R101). -/
theorem offsetIn_toNat_of_inWindow {p : BitVec 22} {a : Word} (h : inWindow p a = true) :
    (offsetIn p a).toNat = a.toNat - p.toNat * 0x400 := by
  rw [inWindow_iff] at h
  rw [offsetIn_toNat]
  omega

/-- The search for a DMA window ends at the first controller that has it. -/
theorem findDma_first {a : Word} {l : List Dma} {d : Dma} {i k : Nat} (hd : l[k]? = some d)
    (hin : inWindow d.site.page a = true)
    (hbefore : ∀ k' d', l[k']? = some d' → k' < k → inWindow d'.site.page a = false) :
    findDma a i l = some (i + k, d) := by
  induction l generalizing i k with
  | nil => simp at hd
  | cons b l ih =>
    cases k with
    | zero =>
      obtain rfl : b = d := by simpa using hd
      rw [findDma, if_pos hin, Nat.add_zero]
    | succ k =>
      have hskip : ¬inWindow b.site.page a = true := Bool.eq_false_iff.1 (hbefore 0 b rfl k.succ_pos)
      have hrest := ih (i := i + 1) hd fun k' d' hd' hk' => hbefore (k' + 1) d' hd' (Nat.succ_lt_succ hk')
      rw [findDma, if_neg hskip, hrest, Nat.add_right_comm, Nat.add_assoc]

section
variable {s : State} {n : Width} {w : Bool} {a v : Word}

/-- An access in an I²C window is the transaction of the first controller that has it (R381; log entry 7). -/
theorem State.busMasterOperation_i2c {j : Nat} {c : I2c} (hc : s.i2cs[j]? = some c)
    (hfirst : ∀ j' c', s.i2cs[j']? = some c' → j' < j → inWindow c'.site.page a = false)
    (hin : inWindow c.site.page a = true) :
    s.busMasterOperation n w a v = some ⟨j, transactionDescriptor .i2c n w (offsetIn c.site.page a), v⟩ := by
  simp only [State.busMasterOperation, findI2c_first hc hin hfirst, Nat.zero_add]

/-- An access in a DMA window and in no I²C window is the transaction of the first DMA controller that has it. -/
theorem State.busMasterOperation_dma {k : Nat} {d : Dma} (hd : s.dmas[k]? = some d)
    (houtside : ∀ c ∈ s.i2cs, inWindow c.site.page a = false)
    (hfirst : ∀ k' d', s.dmas[k']? = some d' → k' < k → inWindow d'.site.page a = false)
    (hin : inWindow d.site.page a = true) :
    s.busMasterOperation n w a v = some ⟨k, transactionDescriptor .dma n w (offsetIn d.site.page a), v⟩ := by
  simp only [State.busMasterOperation, findI2c_none.2 houtside, findDma_first hd hin hfirst, Nat.zero_add]

end

/-- Settles O6: the search finds the controller, and its transaction's descriptor decodes by its fields. -/
theorem busMasterAccessReachesItsWindow : Obligations.BusMasterAccessReachesItsWindow := by
  refine fun s n a v => ⟨fun j c hc hfirst hlo hhi => ?_, fun k d hd houtside hfirst hlo hhi => ?_⟩
  · have hin := (inWindow_iff c.site.page a).2 ⟨hlo, hhi⟩
    refine ⟨offsetIn c.site.page a, offsetIn_toNat_of_inWindow hin, ?_, ?_⟩ <;>
      rw [State.busMasterOperation_i2c hc hfirst hin, Option.map_some, decode_transactionDescriptor] <;> rfl
  · have hin := (inWindow_iff d.site.page a).2 ⟨hlo, hhi⟩
    refine ⟨offsetIn d.site.page a, offsetIn_toNat_of_inWindow hin, ?_, ?_⟩ <;>
      rw [State.busMasterOperation_dma hd houtside hfirst hin, Option.map_some, decode_transactionDescriptor] <;> rfl

end Sys2Proof.Machine
end

