-- ==== Sys2Proof/Proofs/Reset.lean ====
section
/-! The resets of both controllers (R440, R441) and the power-on state (R442): every field at its reset value (R50, R66). -/

namespace Sys2Proof.Machine

/-! ### A DMA controller at its reset values (R50, R440) -/

theorem Dma.reset_fin (p : DmaSite) (x : StreamId) : (Dma.reset p).fin[x] = false := Vector.getElem_replicate _

theorem Dma.reset_stream (p : DmaSite) (x : StreamId) : (Dma.reset p).streams[x] = Stream.reset :=
  Vector.getElem_replicate _

theorem exec_dmaReset_next {s : State} {k : Nat} {d : Dma} (hd : s.dmas[k]? = some d) :
    exec (.dmaReset k) s = .next { s with dmas := s.dmas.set k (Dma.reset d.site) } := by
  rw [← State.modDma_eq (fun d => Dma.reset d.site) hd]
  exact onDma_some hd _

/-- Settles O24: the reset stores `Dma.reset`, read field by field. -/
theorem dmaResetRestoresTheResetValues : Obligations.DmaResetRestoresTheResetValues :=
  fun _ _ d hd => ⟨Dma.reset d.site, exec_dmaReset_next hd, rfl, rfl, fun x =>
    ⟨Dma.reset_fin _ x, Dma.reset_irq _ x, Dma.reset_stream _ x⟩⟩

/-! ### An I²C controller at its reset values (R66, R441) -/

theorem exec_i2cReset {s : State} {j : Nat} {c : I2c} (hc : s.i2cs[j]? = some c) :
    exec (.i2cReset j) s = i2cStep j c (I2c.reset c.site) s.child s :=
  onI2c_some hc _

/-- Settles O46: the reset is an I²C action whose line events, all falls, start no transfer. -/
theorem i2cResetRestoresTheResetValues : Obligations.I2cResetRestoresTheResetValues := by
  rintro s j c _ hc rfl hquiet
  exact (exec_i2cReset hc).trans (i2cStep_noDispatch hquiet)

/-- The four lines of a controller at its reset values are low (R302). -/
theorem I2c.reset_lines_low (p : I2cSite) : (I2c.reset p).evIrq = false ∧ (I2c.reset p).erIrq = false ∧
    (I2c.reset p).dmaTx = false ∧ (I2c.reset p).dmaRx = false :=
  ⟨rfl, rfl, I2c.dmaTx_low nofun, I2c.dmaRx_low nofun⟩

/-! ### The power-on state (R442) -/

theorem State.mem_reset_dmas {d : Dma} (h : d ∈ State.reset.dmas) : ∃ p, d = Dma.reset p := by
  cases h with
  | head => exact ⟨_, rfl⟩
  | tail _ hmore =>
    obtain ⟨k, -, rfl⟩ := List.mem_map.1 hmore
    exact ⟨_, rfl⟩

theorem State.mem_reset_i2cs {c : I2c} (h : c ∈ State.reset.i2cs) : ∃ p, c = I2c.reset p := by
  cases h with
  | head => exact ⟨_, rfl⟩
  | tail _ hmore =>
    obtain ⟨j, -, rfl⟩ := List.mem_map.1 hmore
    exact ⟨_, rfl⟩

/-- Settles O53: each controller is one at its reset values; the rest is how `State.reset` is made. -/
theorem powerOnStateIsReset : Obligations.PowerOnStateIsReset := by
  refine ⟨fun d hd => ?_, fun c hc => ?_, rfl, rfl, rfl, rfl, List.cons_ne_nil _ _, List.cons_ne_nil _ _,
    Nat.succ_pos _⟩
  · obtain ⟨p, rfl⟩ := State.mem_reset_dmas hd
    exact ⟨rfl, fun x => ⟨Dma.reset_fin p x, Dma.reset_irq p x, Dma.reset_stream p x⟩⟩
  · obtain ⟨p, rfl⟩ := State.mem_reset_i2cs hc
    exact ⟨rfl, rfl, rfl, rfl, rfl, rfl, rfl, rfl, rfl, rfl, rfl, rfl, rfl, I2c.reset_lines_low p⟩

end Sys2Proof.Machine
end

