-- ==== Sys2Proof/Proofs/DmaFlush.lean ====
section
/-! A flush with an armed DMA_TX stream (R302, R315, R382, R451): emptying `TXQ` raises the line, and the rise moves one
further byte into it. -/

namespace Sys2Proof.Machine

/-- Settles O50: the answered flush empties `TXQ`, which raises DMA_TX, and the rise moves the byte. -/
theorem flushMovesOneByteByDma : Obligations.FlushMovesOneByteByDma := by
  intro s j k x c d m a rest ans e₁ hc hd hm hst hrw hsel hq hrxq hdq hdma hwire hen hreq hdir hndt hpinc hpar hfirst hsrc
    hdraw
  have hserves : s.TxStream j k x c.site d m :=
    ⟨hd, hwire, hen, hdir, hndt, (dstAddr_of_fixed_peripheral hdir hpinc 0).trans hpar, hsrc, hfirst⟩
  have hflush := flushAction_of_call (c := { c with dq := rest }) hq hsel
    (childCall_of_draw j a (.write c.txq) hdraw)
  have hrun := exec_i2cSync hc ((i2cSyncAction_flush hdq).trans hflush)
  have hlow : c.dmaTx = false := by
    rw [← Bool.not_eq_true, I2c.dmaTx_iff]
    exact fun ⟨_, _, hempty⟩ => hq hempty
  have hraise := i2cStep_raises_dmaTx (c' := { c with dq := rest, txq := [] }) hserves hm hreq hc rfl hlow
    (I2c.dmaRx_low (by rw [hst]; decide)) ((I2c.dmaTx_iff _).2 ⟨hdma, hst, rfl⟩)
    { e₁ with calls := s.child.calls ++ [⟨j, a, .write c.txq, some []⟩] }
  rw [State.afterTxItem, Dma.itemEnded_eq hen hreq] at hraise
  rw [hrun]
  exact hraise

end Sys2Proof.Machine
end

