-- ==== Sys2Proof/Proofs/DmaRx.lean ====
section
/-! DMA_RX at work (R302, R382, R383, R385, R450): raising the line to a stream aimed at DR moves the first byte of `RXQ` to the
bus, and the line falls again only if that was the last byte. -/

namespace Sys2Proof.Machine

/-! ### Items read from DR (R266, R385) -/

/-- A received byte fits the lowest lane of every width, so DR shows it whole (R107). -/
theorem readLane_dr (n : Width) (b : Byte) : readLane n 0x10#10 (b.setWidth 32) = b.setWidth 32 := by
  refine BitVec.eq_of_getLsbD_eq fun i _ => ?_
  rw [readLane_bit, show 8 * ((0x10#10 : Offset).toNat % 4) + i = i from Nat.zero_add i]
  by_cases hlane : i < 8 * widthBytes n
  · rw [decide_eq_true hlane, Bool.true_and]
  · have hbyte : 8 ≤ i := by
      have : 1 ≤ widthBytes n := by cases n <;> decide
      omega
    simp [hlane, BitVec.getLsbD_of_ge b i hbyte]

/-- The controller after a DMA read of DR in ReceivingData: the oldest byte is gone, and a pull is deferred when none is left
(R313). -/
def I2c.tookByte (c : I2c) : I2c :=
  { c with rxq := c.rxq.tail, dq := if c.rxq.tail = [] then c.dq ++ [.pull] else c.dq }

/-- The system bus after the item that moves the byte `b` from DR: nothing is drawn, and its two accesses are recorded. -/
def Bus.afterDrItem (k : Nat) (m : Stream) (b : Byte) (u : Bus) : Bus :=
  { u with log := u.log ++
    [.read k (srcAddr m 0) (copyWidth m) (b.setWidth 32), .write k (dstAddr m 0) (copyWidth m) (b.setWidth 32)] }

/-- A read that goes to an I²C window, aligned there, is a read transaction and is recorded (R380, R385). -/
theorem memRead_i2c {k j : Nat} {a : Word} {n : Width} {c : I2c} {w : Work} (h : w.st.route a n = .i2c j c)
    (hal : aligned n (offsetIn c.site.page a) = true) :
    memRead k a n w = .ok ((c.readAt n (offsetIn c.site.page a)).1,
      (w.logBus (.read k a n (c.readAt n (offsetIn c.site.page a)).1)).commitI2c j c
        (c.readAt n (offsetIn c.site.page a)).2 w.st.child) := by
  simp only [memRead, h, if_pos hal]

/-- A write that goes to the system bus is recorded (R112, R380). -/
theorem memWrite_bus {k : Nat} {a : Word} {n : Width} {v : Word} {w : Work} (h : w.st.route a n = .bus) :
    memWrite k a n v w = .ok (w.logBus (.write k a n v)) := by
  simp only [memWrite, h]

section
variable {s : State} {j k : Nat} {x : StreamId} {c c' : I2c} {d : Dma} {m : Stream} {b : Byte} {bs : List Byte}

/-- A read of DR in ReceivingData takes the oldest byte, whatever its width (R107, R313). -/
theorem I2c.readAt_dr (n : Width) (hst : c.st = .receivingData) (hq : c.rxq = b :: bs) :
    c.readAt n 0x10#10 = (b.setWidth 32, c.tookByte) := by
  have hread : c.readReg .dr = (b.setWidth 32, c.tookByte) := by
    rw [I2c.readReg_dr, if_pos hst, I2c.dataRead_eq, hq]
    simp only [I2c.tookByte, hq]
    rfl
  have hat : c.readAt n 0x10#10 = (readLane n 0x10#10 (c.readReg .dr).1, (c.readReg .dr).2) := rfl
  rw [hat, hread, readLane_dr]

/-- The copy of an item from DR to the system bus: the read transaction of the oldest byte, then a bus write (R385). -/
theorem copyItem_from_dr {w : Work} (hsrc : w.st.route (srcAddr m 0) (copyWidth m) = .i2c j c)
    (hdr : offsetIn c.site.page (srcAddr m 0) = 0x10#10) (hdst : w.st.route (dstAddr m 0) (copyWidth m) = .bus)
    (hst : c.st = .receivingData) (hq : c.rxq = b :: bs) :
    copyItem k (srcAddr m 0) (dstAddr m 0) (copyWidth m) w =
      .ok (Work.commitI2c j c c.tookByte w.st.child
        { w with st := { w.st with bus := w.st.bus.afterDrItem k m b } }) := by
  have hread := memRead_i2c (k := k) hsrc (by rw [hdr]; exact aligned_dr _)
  rw [hdr, I2c.readAt_dr _ hst hq] at hread
  have hwrite := memWrite_bus (k := k) (v := b.setWidth 32) ((memRead_frame hread).samePlatform.route_bus hdst)
  simp only [copyItem, hread, hwrite]
  simp [Work.logBus, Work.commitI2c, Bus.afterDrItem]

/-! ### A stream that serves DMA_RX (R302, R385) -/

/-- Stream `x` of DMA controller `k`, standing as `m`, serves DMA_RX of I²C controller `j`: it is wired to the line, enabled
with items to move, and moves them from DR to the system bus. -/
structure State.RxStream (s : State) (j k : Nat) (x : StreamId) (site : I2cSite) (d : Dma) (m : Stream) : Prop where
  dma : s.dmas[k]? = some d
  wire : site.rxReq = some (k, x)
  en : m.en = true
  dir : m.dir = 0#2
  ndt : m.ndt ≠ 0
  source : srcAddr m 0 = baseOf site.page + 0x10#32
  dest : s.route (dstAddr m 0) (copyWidth m) = .bus
  first : s.FirstAtPage j site.page

/-- The source of a P→M stream without PINC stays at PAR (R262). -/
theorem srcAddr_of_fixed_peripheral (hdir : m.dir = 0#2) (hpinc : m.pinc = false) (i : Nat) : srcAddr m i = m.par := by
  rw [srcAddr, (sides_of_other_direction (by rw [hdir]; decide)).1, sideAddr, peripheralSide, hpinc]
  rfl

/-- The latch of a stream has no part in whether it serves the line. -/
theorem State.RxStream.withReq (h : s.RxStream j k x c.site d m) (r : Bool) :
    s.RxStream j k x c.site d { m with req := r } :=
  ⟨h.dma, h.wire, h.en, h.dir, h.ndt, h.source, h.dest, h.first⟩

/-- Storing the controller moves no window and no stream. -/
theorem State.RxStream.commitI2c (h : s.RxStream j k x c.site d m) (hc : s.i2cs[j]? = some c) (hsite : c'.site = c.site)
    (e' : Children) : State.RxStream { s with i2cs := s.i2cs.set j c', child := e' } j k x c'.site d m := by
  rw [hsite]
  refine ⟨h.dma, h.wire, h.en, h.dir, h.ndt, h.source, ?_, fun j' a ha hj' => h.first j' a ?_ hj'⟩
  · exact (SamePlatform.commitI2c (w := ⟨s, []⟩) hc hsite e').route_bus h.dest
  · rwa [List.getElem?_set_ne (Nat.ne_of_gt hj')] at ha

/-! ### One item over DMA_RX (R302, R382, R450) -/

/-- The line event of the read that takes a byte and leaves `bs`: DMA_RX falls when no byte is left, and only then. -/
def rxFall (k : Nat) (x : StreamId) (bs : List Byte) : List ReqEvent := if bs = [] then [⟨k, x, false⟩] else []

theorem lineEvents_tookByte (hwire : c.site.rxReq = some (k, x)) (h : c.dmaRx = true) (hq : c.rxq = b :: bs) :
    lineEvents c c.tookByte = rxFall k x bs := by
  obtain ⟨hdma, hst, -⟩ := c.dmaRx_iff.1 h
  have hdata : c.st ≠ .awaitingData := by rw [hst]; decide
  have htx : c.tookByte.dmaTx = c.dmaTx := (I2c.dmaTx_low hdata).trans (I2c.dmaTx_low hdata).symm
  have hrx : c.tookByte.dmaRx = true ↔ bs ≠ [] := by
    simp [I2c.dmaRx_iff, I2c.tookByte, hdma, hst, hq]
  by_cases hlast : bs = []
  · have hlow : c.tookByte.dmaRx = false := Bool.eq_false_iff.2 fun hhigh => hrx.1 hhigh hlast
    simp [lineEvents, lineEvent, htx, h, hlow, hwire, rxFall, hlast]
  · rw [lineEvents_same htx ((hrx.2 hlast).trans h.symm), rxFall, if_neg hlast]

/-- What the rise of DMA_RX leaves when the stream stood as `m` at the end of its item: the byte `b` is on the bus, and the
transfer is accounted. -/
def State.afterRxItem (j k : Nat) (x : StreamId) (b : Byte) (c : I2c) (d : Dma) (m : Stream) (s : State) : State :=
  { s with
    i2cs := s.i2cs.set j c.tookByte
    bus := s.bus.afterDrItem k m b
    dmas := s.dmas.set k (d.itemEnded x m) }

/-- A stream stored and dispatched while it serves a high DMA_RX moves the oldest byte of `RXQ`. -/
theorem selectTransfer_stored_from_dr (h : s.RxStream j k x c.site d m) (hc : s.i2cs[j]? = some c)
    (hline : c.dmaRx = true) (hq : c.rxq = b :: bs) :
    selectTransfer k x m ⟨s.modDma k fun d => d.modStream x fun _ => m, []⟩ =
      .ok ⟨s.afterRxItem j k x b c d m, rxFall k x bs⟩ := by
  obtain ⟨-, hst, -⟩ := c.dmaRx_iff.1 hline
  have hplatform : SamePlatform s (s.modDma k fun d => d.modStream x fun _ => m) :=
    .modDma (Dma.modStream_site x _) k s
  have hwindow : inWindow c.site.page (srcAddr m 0) = true := by rw [h.source]; exact inWindow_dr _
  have hcopy := copyItem_from_dr (k := k) (w := ⟨s.modDma k fun d => d.modStream x fun _ => m, []⟩)
    (State.route_first _ hc hwindow h.first) (by rw [h.source, offsetIn_dr]) (hplatform.route_bus h.dest) hst hq
  have hfinish := Work.modDma_after_bus (s := { s with i2cs := s.i2cs.set j c.tookByte }) (Dma.modStream x fun _ => m)
    (Dma.finishItem x) (s.bus.afterDrItem k m b) (rxFall k x bs) h.dma
  rw [Dma.finishItem_stored h.en] at hfinish
  obtain ⟨hreserved, hburst⟩ : m.dir ≠ 3#2 ∧ m.dir ≠ 2#2 := by rw [h.dir]; decide
  rw [selectTransfer, if_neg hreserved, if_neg hburst, doPeripheralTransfer, if_neg h.ndt, hcopy]
  simp only [Work.commitI2c, lineEvents_tookByte h.wire hline hq]
  exact congrArg Except.ok hfinish

/-- The rise of DMA_RX moves the oldest byte of `RXQ`. -/
theorem dmaReq_rise_of_dmaRx (h : s.RxStream j k x c.site d m) (hm : d.streams[x] = m) (hreq : m.req = false)
    (hc : s.i2cs[j]? = some c) (hline : c.dmaRx = true) (hq : c.rxq = b :: bs) :
    dmaReq k x true ⟨s, []⟩ = .ok ⟨s.afterRxItem j k x b c d { m with req := true }, rxFall k x bs⟩ :=
  (dmaReq_rising h.dma hm hreq h.en).trans (selectTransfer_stored_from_dr (h.withReq true) hc hline hq)

/-- The fall of DMA_RX only lowers the latch. -/
theorem dmaReq_fall_after_rxItem (hd : s.dmas[k]? = some d) (hreq : m.req = false) :
    dmaReq k x false ⟨s.afterRxItem j k x b c d { m with req := true }, []⟩ =
      .ok ⟨s.afterRxItem j k x b c d m, []⟩ := by
  have hk : k < s.dmas.length := (List.getElem?_eq_some_iff.1 hd).1
  rw [dmaReq_no_edge (List.getElem?_set_self hk) rfl (by simp), State.modDma_eq _ (List.getElem?_set_self hk)]
  simp only [State.afterRxItem, List.set_set]
  rw [← Dma.itemEnded_fall hreq]
  rfl

/-- The line events of a byte moved by DMA_RX: the rise, and the fall if no byte is left. -/
def rxEvents (bs : List Byte) : Nat := if bs = [] then 2 else 1

/-- A byte moved by DMA_RX: its line events are delivered exactly if `CASCADE_LIMIT` admits them all, and the latch stays
high as long as bytes are left (R382, R450). -/
theorem deliver_dmaRx (h : s.RxStream j k x c.site d m) (hm : d.streams[x] = m) (hreq : m.req = false)
    (hc : s.i2cs[j]? = some c) (hline : c.dmaRx = true) (hq : c.rxq = b :: bs) (n : Nat) :
    deliver n ⟨s, [⟨k, x, true⟩]⟩ =
      if rxEvents bs ≤ n then .ok (s.afterRxItem j k x b c d { m with req := !bs.isEmpty })
      else .error .cascadeLimit := by
  have hrise := dmaReq_rise_of_dmaRx h hm hreq hc hline hq
  cases bs with
  | nil =>
    have hlow : ({ m with req := false } : Stream) = m := by rw [← hreq]
    match n with
    | 0 => rfl
    | 1 => simp only [deliver, hrise]; rfl
    | n + 2 =>
      have hfall := dmaReq_fall_after_rxItem (x := x) (j := j) (b := b) (c := c) h.dma hreq
      have hlimit : rxEvents [] ≤ n + 2 := Nat.le_add_left 2 n
      rw [if_pos hlimit, List.isEmpty_nil, Bool.not_true, hlow]
      simp only [deliver, hrise, rxFall, if_true, hfall, deliver_nil]
  | cons b' bs =>
    match n with
    | 0 => rfl
    | n + 1 =>
      have hlimit : rxEvents (b' :: bs) ≤ n + 1 := Nat.le_add_left 1 n
      rw [if_pos hlimit]
      simp only [deliver, hrise]
      exact deliver_nil n _

/-- The only event of an action that raises DMA_RX. -/
theorem lineEvents_raises_dmaRx (hwire : c.site.rxReq = some (k, x)) (hlow : c.dmaRx = false) (htx : c.dmaTx = false)
    (hline : c'.dmaRx = true) : lineEvents c c' = [⟨k, x, true⟩] := by
  obtain ⟨-, hst, -⟩ := c'.dmaRx_iff.1 hline
  have htx' : c'.dmaTx = false := I2c.dmaTx_low (by rw [hst]; decide)
  simp [lineEvents, lineEvent, hlow, hline, htx, htx', hwire]

/-- An I²C action in ReceivingData that raises DMA_RX moves one byte, if `CASCADE_LIMIT` admits the line events (R303,
R382). -/
theorem i2cStep_raises_dmaRx (h : s.RxStream j k x c.site d m) (hm : d.streams[x] = m) (hreq : m.req = false)
    (hc : s.i2cs[j]? = some c) (hst : c.st = .receivingData) (hsite : c'.site = c.site) (hlow : c.dmaRx = false)
    (hline : c'.dmaRx = true) (hq : c'.rxq = b :: bs) (e' : Children) :
    (rxEvents bs ≤ s.cascadeLimit → i2cStep j c c' e' s =
      .next { s.afterRxItem j k x b c' d { m with req := !bs.isEmpty } with child := e' }) ∧
    (s.cascadeLimit < rxEvents bs → i2cStep j c c' e' s = .refused .cascadeLimit) := by
  have hj : j < s.i2cs.length := (List.getElem?_eq_some_iff.1 hc).1
  have hdel := deliver_dmaRx (h.commitI2c hc hsite e') hm hreq (List.getElem?_set_self hj) hline hq s.cascadeLimit
  have hstep : i2cStep j c c' e' s =
      settle (.ok ⟨{ s with i2cs := s.i2cs.set j c', child := e' }, [⟨k, x, true⟩]⟩) := by
    rw [i2cStep, Work.commitI2c, lineEvents_raises_dmaRx h.wire hlow (I2c.dmaTx_low (by rw [hst]; decide)) hline]
    rfl
  rw [hstep, settle]
  simp only [hdel]
  refine ⟨fun hlimit => ?_, fun hlimit => ?_⟩
  · rw [if_pos hlimit]
    simp only [State.afterRxItem, List.set_set]
  · rw [if_neg (Nat.not_le.2 hlimit)]

end

/-- The end of an item of an enabled stream, field by field; the latch stays as it stands (R265). -/
theorem Dma.itemEnded_fields {m : Stream} (hen : m.en = true) (x : StreamId) (d : Dma) :
    d.itemEnded x m = { d with
      streams := d.streams.set x { m with
        ndt := if m.ndt = 1 then (if m.circ then m.latch else 0) else m.ndt - 1
        en := m.circ || m.ndt != 1 }
      fin := if m.ndt = 1 then d.fin.set x true else d.fin
      dq := if m.ndt = 1 ∧ m.tcie = true then d.dq ++ [x] else d.dq } := by
  by_cases hlast : m.ndt = 1#16
  · simp [Dma.itemEnded_last hlast, Dma.burstEnded, hlast]
  · have hmore : (m.ndt != 1#16) = true := bne_iff_ne.2 hlast
    simp [Dma.itemEnded_more hlast, hlast, hmore, hen]

/-- Settles O52: the pull and the CR2 write each raise DMA_RX, and the rise moves the first byte. -/
theorem raisingDmaRxMovesOneByte : Obligations.RaisingDmaRxMovesOneByte := by
  intro s j k x c d m b bs hc hd hm hst hrw hwire hen hreq hdir hndt hpinc hpar hfirst hdst bus' d' events
  have hsrc : srcAddr m 0 = m.par := srcAddr_of_fixed_peripheral hdir hpinc 0
  have hserves : s.RxStream j k x c.site d m := ⟨hd, hwire, hen, hdir, hndt, hsrc.trans hpar, hdst, hfirst⟩
  have hbus : s.bus.afterDrItem k { m with req := !bs.isEmpty } b = bus' :=
    congrArg (fun a => ({ s.bus with log := s.bus.log ++
      [.read k a (copyWidth m) (b.setWidth 32), .write k (dstAddr m 0) (copyWidth m) (b.setWidth 32)] } : Bus)) hsrc
  have hd' : d.itemEnded x { m with req := !bs.isEmpty } = d' :=
    Dma.itemEnded_fields (m := { m with req := !bs.isEmpty }) hen x d
  refine ⟨fun a rest e₁ hdma hsel hempty hdq hdraw => ?_, fun v hdma hq hv => ?_⟩
  · have hpull := pullAction_batch (c := { c with dq := rest }) hst hsel (childCall_of_draw j a .read hdraw)
    rw [show c.rxq ++ b :: bs = b :: bs by rw [hempty]; rfl] at hpull
    have hrun := exec_i2cSync hc ((i2cSyncAction_pull hdq).trans hpull)
    have hraise := i2cStep_raises_dmaRx (c' := { c with dq := rest, rxq := b :: bs }) hserves hm hreq hc hst rfl
      (by rw [← Bool.not_eq_true, I2c.dmaRx_iff]; exact fun ⟨_, _, hbytes⟩ => hbytes hempty)
      ((I2c.dmaRx_iff _).2 ⟨hdma, hst, List.cons_ne_nil b bs⟩) rfl
      { e₁ with calls := s.child.calls ++ [⟨j, a, .read, some (b :: bs)⟩] }
    rw [State.afterRxItem, hbus, hd'] at hraise
    rw [hrun]
    exact hraise
  · have hraise := i2cStep_raises_dmaRx (c' := c.writeCr2 v) hserves hm hreq hc hst rfl (by simp [I2c.dmaRx, hdma])
      ((I2c.dmaRx_iff _).2 ⟨hv, hst, hq ▸ List.cons_ne_nil b bs⟩) hq s.child
    have hrun : exec (.i2cWr32Cr2 j v) s = i2cStep j c (c.writeCr2 v) s.child s := onI2c_some hc _
    have htook : (c.writeCr2 v).tookByte = { c.writeCr2 v with
        rxq := bs
        dq := if bs = [] then c.dq ++ [.pull] else c.dq } := by
      rw [I2c.tookByte, show (c.writeCr2 v).rxq = b :: bs from hq]
      rfl
    rw [State.afterRxItem, hbus, hd', htook] at hraise
    rw [hrun, ← hv]
    exact hraise

end Sys2Proof.Machine
end
